-- ==== Sys2Proof/Word.lean ====
section
/-! DEFINITION. The two word types of the block (00_scope rule R10): a byte, and the 32-bit value that the
clock, the deadline, the cursor and the pixel coordinates are made of. -/

namespace Sys2Proof

/-- Eight bits, unsigned (R10). -/
abbrev Byte := BitVec 8

/-- Thirty-two bits: clock values and the deadline in ms (R44, R21), the cursor (R21), coordinates (R250). -/
abbrev Word := BitVec 32

end Sys2Proof
end

