-- ==== Sys2Proof/Syntax.lean ====
section
/-! DEFINITION. The instructions of the block as syntax: the rows of spec/opcode_table.json in their three code
spaces (bytecode entries, host requests, state dispatches), and the names that go with them (responses, transport
operations, the assembler's statements). -/

namespace Sys2Proof

/-- The instructions: one constructor per row of spec/opcode_table.json, in the table's order. A bytecode entry is
its 16-bit header word (30_encoding R87); its data bytes follow it in the ROM. -/
inductive Instr where
  /-- DELAY t (R186). -/
  | delay (t : Byte)
  /-- CMD c with n data bytes (R184). -/
  | cmd (c : Byte) (n : BitVec 7)
  /-- CMD.B7: a CMD whose count byte has bit 7 set (R185). -/
  | cmdB7 (c : Byte) (n : BitVec 7)
  /-- Host request 01 (R124). -/
  | beginCycle
  /-- Host request 10 (R122). -/
  | advance
  /-- Host request 11, reserved (R123). -/
  | reqReserved
  /-- Dispatch of state code 0 (R129). -/
  | stateIdle
  /-- Dispatch of state code 1 (R130). -/
  | stateReset
  /-- Dispatch of state code 2 (R130). -/
  | stateResetEnd
  /-- Dispatch of state code 3 (R131). -/
  | stateUpdate
  /-- Dispatch of state code 4 (R132). -/
  | stateInitialise
  /-- Dispatch of state code 5 (R133). -/
  | stateTransferData
  /-- Dispatch of state code 6 (R134). -/
  | statePowerOn
  /-- Dispatch of state code 7 (R135). -/
  | statePostPowerOn
  /-- Dispatch of state code 8 (R136). -/
  | stateRefreshScreen
  /-- Dispatch of state code 9 (R137). -/
  | statePowerOff
  /-- Dispatch of state code 10 (R138). -/
  | stateDeepSleep
  /-- Dispatch of the unknown state code 11 (R139). -/
  | stateUnknown11
  /-- Dispatch of an unknown state code 12..15, `low` its two low bits (R139). -/
  | stateUnknownHigh (low : BitVec 2)
  deriving DecidableEq, Repr

/-- A bytecode entry of the init sequence (R80), as its header word gives it. -/
inductive Entry where
  | delay (t : Byte)
  | cmd (c : Byte) (n : BitVec 7)
  | cmdB7 (c : Byte) (n : BitVec 7)
  deriving DecidableEq, Repr

/-- A host request that is presented (R90); code 00 presents none. -/
inductive Request where
  | beginCycle
  | advance
  | reserved
  deriving DecidableEq, Repr

/-- The sixteen codes of the Driver State register by name (R89). -/
inductive StateCode where
  | idle
  | reset
  | resetEnd
  | update
  | initialise
  | transferData
  | powerOn
  | postPowerOn
  | refreshScreen
  | powerOff
  | deepSleep
  | unknown11
  | unknownHigh (low : BitVec 2)
  deriving DecidableEq, Repr

/-- The instruction a bytecode entry is. -/
def Instr.ofEntry : Entry → Instr
  | .delay t => .delay t
  | .cmd c n => .cmd c n
  | .cmdB7 c n => .cmdB7 c n

/-- The instruction a host request is. -/
def Instr.ofRequest : Request → Instr
  | .beginCycle => .beginCycle
  | .advance => .advance
  | .reserved => .reqReserved

/-- The instruction the dispatch of a state code is. -/
def Instr.ofState : StateCode → Instr
  | .idle => .stateIdle
  | .reset => .stateReset
  | .resetEnd => .stateResetEnd
  | .update => .stateUpdate
  | .initialise => .stateInitialise
  | .transferData => .stateTransferData
  | .powerOn => .statePowerOn
  | .postPowerOn => .statePostPowerOn
  | .refreshScreen => .stateRefreshScreen
  | .powerOff => .statePowerOff
  | .deepSleep => .stateDeepSleep
  | .unknown11 => .stateUnknown11
  | .unknownHigh low => .stateUnknownHigh low

/-- The answer that ends a request (R91). -/
inductive Response where
  | accepted
  | rejected
  | processed
  | heldDelay
  | heldBusy
  | ignored
  | faulted
  | halted
  deriving DecidableEq, Repr

/-- The causes the fault_code register can record (R271). -/
inductive FaultCause where
  | none
  | initTruncated
  | initOverlength
  | bufferAlloc
  | unknownState
  deriving DecidableEq, Repr

/-- One operation issued to the transport (R92). -/
inductive TransportOp where
  /-- The command byte, then the payload bytes in order. -/
  | command (c : Byte) (payload : List Byte)
  /-- Opens a data phase. -/
  | dataBegin
  /-- Data bytes inside an open data phase, in order. -/
  | data (bytes : List Byte)
  /-- Closes the data phase. -/
  | dataEnd
  deriving DecidableEq, Repr

/-- The five phases whose action and delay are per-model parameters (R8, R134 to R138). -/
inductive Phase where
  | powerOn
  | postPowerOn
  | refreshScreen
  | powerOff
  | deepSleep
  deriving DecidableEq, Repr

/-- The assembler's statements (R88). -/
inductive Asm where
  | delay (t : Nat)
  | cmd (c : Byte) (data : List Byte)
  | cmdB7 (c : Byte) (data : List Byte)
  /-- The pseudo-instruction WAIT ms. -/
  | wait (ms : Nat)
  deriving DecidableEq, Repr

end Sys2Proof
end

