-- ==== Sys2Proof/Config.lean ====
section
/-! DEFINITION. The configuration record (the Panel Descriptor) and the one free value of the model. The record is
plain data: hardware reset loads it into State and nothing writes it afterwards (10_state R30, R32). -/

namespace Sys2Proof

/-- One value for each of the five parameterised phases. -/
structure PerPhase (α : Type) where
  powerOn : α
  postPowerOn : α
  refreshScreen : α
  powerOff : α
  deepSleep : α
  deriving DecidableEq, Repr

/-- The value for phase `p`. -/
def PerPhase.get {α : Type} (v : PerPhase α) : Phase → α
  | .powerOn => v.powerOn
  | .postPowerOn => v.postPowerOn
  | .refreshScreen => v.refreshScreen
  | .powerOff => v.powerOff
  | .deepSleep => v.deepSleep

/-- The configuration record (10_state R30, 00_scope R8): each field with the width of its register image. -/
structure PanelConfig where
  /-- WIDTH (W), pixels. -/
  width : BitVec 16
  /-- HEIGHT (H), pixels. -/
  height : BitVec 16
  /-- DISPLAY_TYPE: 0 is COLOR6_4BPP, 1..15 are reserved. -/
  displayType : BitVec 4
  /-- BUFFER_LENGTH (N), bytes of the frame buffer. -/
  bufferLength : BitVec 32
  /-- INIT_SEQ, the bytes of the init-sequence ROM; INIT_LEN (L) is their count. -/
  initSeq : List Byte
  /-- RESET_PRESENT. -/
  resetPresent : Bool
  /-- RESET_DURATION_MS (D). -/
  resetDurationMs : Word
  /-- RESET_CYCLES (C); in a record still to be loaded it is RESET_CYCLES_CFG. -/
  resetCycles : BitVec 8
  /-- BUSY_PRESENT. -/
  busyPresent : Bool
  /-- BUSY_ACTIVE_LEVEL. -/
  busyActiveLevel : Bool
  /-- STAGING_SIZE (S). -/
  stagingSize : BitVec 8
  /-- TRANSFER_BUDGET_MS (B). -/
  transferBudgetMs : Word
  /-- TRANSFER_START_CMD. -/
  transferStartCmd : Byte
  /-- PHASE_OPS[p]. -/
  phaseOps : PerPhase (List TransportOp)
  /-- PHASE_DELAY_MS[p]. -/
  phaseDelayMs : PerPhase Word
  /-- QUANT_PRESENT: the color quantizer and its pixel write port exist. -/
  quantPresent : Bool
  /-- FILL_BYTE, the fill value without the quantizer (R252). -/
  fillByte : Byte
  /-- GRAY_T (R241). -/
  grayT : BitVec 8
  /-- LUMA_MID (R241). -/
  lumaMid : BitVec 10
  /-- ON_T (R241). -/
  onT : BitVec 8
  codeBlack : BitVec 3
  codeWhite : BitVec 3
  codeYellow : BitVec 3
  codeRed : BitVec 3
  codeBlue : BitVec 3
  codeGreen : BitVec 3
  deriving DecidableEq, Repr

/-- INIT_LEN (L): the number of bytes of the init sequence (R8, R63). -/
def PanelConfig.initLen (c : PanelConfig) : Nat := c.initSeq.length

/-- The record that `State.reset` holds. Where 00_scope R8 gives a default it is that default (S = 128, B = 10, the
quantizer's thresholds and codes, every phase delay 0, POST_POWER_ON without operations). DESIGN CHOICE (log 11,
unsafe for a claim about `State.reset` itself): every OPEN parameter is zero, empty or absent; W = 4 and H = 2, since
0 is illegal, are those of 95_test_vectors Program 3; a reset-cycle count of 0 is stored as 1 (R31). -/
def Config.resetConfig : PanelConfig where
  width := 4
  height := 2
  displayType := 0
  bufferLength := 4
  initSeq := []
  resetPresent := false
  resetDurationMs := 0
  resetCycles := 1
  busyPresent := false
  busyActiveLevel := false
  stagingSize := 128
  transferBudgetMs := 10
  transferStartCmd := 0
  phaseOps := { powerOn := [], postPowerOn := [], refreshScreen := [], powerOff := [], deepSleep := [] }
  phaseDelayMs := { powerOn := 0, postPowerOn := 0, refreshScreen := 0, powerOff := 0, deepSleep := 0 }
  quantPresent := false
  fillByte := 0
  grayT := 50
  lumaMid := 382
  onT := 128
  codeBlack := 0
  codeWhite := 1
  codeYellow := 2
  codeRed := 3
  codeBlue := 5
  codeGreen := 6

/-- FREE VALUE (log 10): what byte `k` of the frame buffer holds when hardware reset could not allocate the buffer,
which R300 leaves unspecified. No rule reads it. -/
opaque Config.unallocatedByte : Nat → Byte

end Sys2Proof
end

