-- ==== Sys2Proof/Machine/State.lean ====
section
/-! DEFINITION. The state of the machine as plain data: the registers of 10_state R21 and R22, the configuration
record, the memories, the ports, and the inputs the outside world has still to give. -/

namespace Sys2Proof.Machine

/-- Why a configuration record is refused at load (R9, R301, and the legal values of R8 and R30). -/
inductive ConfigProblem where
  /-- WIDTH is 0. -/
  | width
  /-- HEIGHT is 0. -/
  | height
  /-- A reserved DISPLAY_TYPE, 1..15. -/
  | displayType
  /-- BUFFER_LENGTH is 0 or is not ceil(W*H/2). -/
  | bufferLength
  /-- INIT_SEQ is longer than the 16-bit INIT_LEN can say. -/
  | initLen
  /-- RESET_DURATION_MS is 2^31 or more. -/
  | resetDuration
  /-- STAGING_SIZE is 0. -/
  | stagingSize
  /-- TRANSFER_BUDGET_MS is 2^31 or more. -/
  | transferBudget
  /-- A PHASE_DELAY_MS is 2^31 or more. -/
  | phaseDelay
  /-- A PHASE_OPS list is not well formed (R93). -/
  | phaseOps
  /-- LUMA_MID is above 765 (R241). -/
  | lumaMid
  /-- Two palette codes are equal. -/
  | paletteCodes
  deriving DecidableEq, Repr

/-- The reasons a step ends in a fault: none. Every fault of the spec is a state the block goes on in (a fatal
failure, R274; the unknown-state halt, R276; an allocation failure, R302), so no rule stops the model with a fault. -/
inductive Fault : Type
  deriving DecidableEq, Repr

/-- The reasons a step is refused: inputs for which the spec itself says that the model has no meaning. Each is safe:
the model stops where the spec gives no effect. -/
inductive Refusal where
  /-- An arm of `exec` without a meaning; no arm of this model raises it. -/
  | notModelled (mnemonic : String)
  /-- Raised by `execReqReserved`: request code 11 (R123: "refuses it (a refusal, not a fault)"). Safe. -/
  | reservedRequest
  /-- Raised by the frame-buffer access operations: an access at `addr`, N or above (R61: "a model that meets such an
  access refuses it"). Safe. -/
  | frameBufferRange (addr : Nat)
  /-- Raised by the producer's pixel write when QUANT_PRESENT is 0: "there is no pixel write port" (R252). Safe. -/
  | noPixelPort
  /-- Raised by hardware reset: a configuration record for which "there is no state of the block" (R301, R9). Safe. -/
  | illegalConfig (problem : ConfigProblem)
  deriving DecidableEq, Repr

/-- Who holds the open step for ever (R287 items 3, 4 and 5). -/
inductive Hang where
  /-- The producer never reports done. -/
  | producer
  /-- The transport never completes the operation issued. -/
  | transport
  /-- The clock has stopped during an interpreter DELAY. -/
  | sleep
  deriving DecidableEq, Repr

/-- One action of the block, as its event trace records it (R72): samples, the operations that reach outside, responses,
and every access to a memory (R65), each of one byte (R68). -/
inductive Event where
  /-- A clock sample (R100). -/
  | clock (v : Word)
  /-- A sample of the busy line's level (R43). -/
  | busy (level : Bool)
  /-- SetResetLine (R42). -/
  | resetLine (level : Bool)
  /-- prod_start (R46). -/
  | producerStart
  /-- prod_done (R46). -/
  | producerDone
  /-- Emit (R45, R92). -/
  | emit (op : TransportOp)
  /-- The response that ends a request (R91). -/
  | respond (r : Response)
  /-- The interpreter reads byte `k` of the init-sequence ROM (R63). -/
  | romRead (k : Nat) (v : Byte)
  /-- FB_Read(k) (R61). -/
  | fbRead (k : Nat) (v : Byte)
  /-- FB_Write(k, v) (R61). -/
  | fbWrite (k : Nat) (v : Byte)
  /-- The transfer sequencer writes byte `k` of the staging block (R64, R212). -/
  | stageWrite (k : Nat) (v : Byte)
  /-- A flush reads byte `k` of the staging block (R64, R214). -/
  | stageRead (k : Nat) (v : Byte)
  /-- Hardware reset (R300), with the configuration load. -/
  | hardwareReset
  /-- The reset fill (R303): `v` is written into every byte of the frame buffer. -/
  | fill (v : Byte)
  deriving DecidableEq, Repr

/-- One write of the frame producer (R47): by the byte port, or by the pixel port with signed coordinates (R250). -/
inductive ProducerWrite where
  | byte (addr : Word) (v : Byte)
  | pixel (x y : Word) (r g b : Byte)
  deriving DecidableEq, Repr

/-- What the producer does in one window (R131): its writes in order, and whether it then reports done. -/
structure ProducerRun where
  writes : List ProducerWrite
  done : Bool
  deriving DecidableEq, Repr

/-- What the agents outside the block do from some moment on: the clock, the busy line, the producer, the transport. -/
structure Agents where
  nowMs : Word
  nowScript : List Word
  busyIn : Bool
  busyScript : List Bool
  producer : List ProducerRun
  transportLeft : Option Nat
  deriving DecidableEq, Repr

/-- A hardware reset (R300, R301, R305). -/
structure ResetInput where
  /-- The record it loads. -/
  config : PanelConfig
  /-- The allocation's outcome ALLOC_OK. -/
  allocOk : Bool
  /-- When it comes: before the step's request (none), or inside the step, after the first `n` actions of it that the
  event trace records (log 7). -/
  cut : Option Nat
  /-- What the outside agents do from the reset on. The spec leaves open whether an agent that held a step open serves
  again afterwards; the reset input says it (log 29). -/
  agents : Agents
  deriving DecidableEq, Repr

/-- The state. -/
@[ext]
structure State where
  /-- `state`, the Driver State code (R21, R89). -/
  state : BitVec 4
  /-- `deadline` in ms, 0 for none (R21). -/
  deadline : Word
  /-- `wait_idle` (R24). -/
  waitIdle : Bool
  /-- `active` (R26). -/
  active : Bool
  /-- `failed` (R27). -/
  failed : Bool
  /-- `fault_code` (R271). -/
  faultCode : BitVec 3
  /-- `fault_index` (R21). -/
  faultIndex : BitVec 16
  /-- `expect_low` (R25). -/
  expectLow : Bool
  /-- `reset_count` (R160). -/
  resetCount : BitVec 8
  /-- `cursor` (R211). -/
  cursor : Word
  /-- `rst_q`, the level of the reset line (R42). -/
  rstQ : Bool
  /-- Step-local `t0` (R22, R125). -/
  t0 : Word
  /-- Step-local `i`, the interpreter's byte index (R22, R181). -/
  idx : BitVec 16
  /-- Step-local start sample `ts` of an interpreter delay (R22, R187). -/
  sleepStart : Word
  /-- The configuration record, with the init-sequence ROM in it (R30, R63). -/
  cfg : PanelConfig
  /-- The frame buffer: the bytes that differ from what an unlisted address reads as, by rising address (R60). -/
  fb : List Host.Cell
  /-- Whether hardware reset allocated and filled the frame buffer (R302, R303). -/
  fbAllocated : Bool
  /-- The staging block's bytes 0..k-1; the fill count k is their number (R64, R22). -/
  stage : List Byte
  /-- Input: the request codes the host will present, the next first (R40, R90; log 1). -/
  requests : List (BitVec 2)
  /-- The last response, none while a dispatch has not answered (R91; log 26). -/
  response : Option Response
  /-- Who holds the open step for ever, if one does (R287, R289; log 6). -/
  hang : Option Hang
  /-- Input: the value on the clock port (R44; log 2). -/
  nowMs : Word
  /-- Input: the values the clock will show at the next samples (log 2). -/
  nowScript : List Word
  /-- Input: the level of the busy line (R41; log 3). -/
  busyIn : Bool
  /-- Input: the levels the busy line will have at the next samples (log 3). -/
  busyScript : List Bool
  /-- Input: what the producer will do in its next windows (R46; log 4). -/
  producer : List ProducerRun
  /-- Input: how many operations the transport still completes; none for all (R45, R287; log 5). -/
  transportLeft : Option Nat
  /-- Input: the hardware-reset input at the next steps (R305; log 7). -/
  resetIn : List (Option ResetInput)
  /-- Output: the actions of the block in order (R72; log 17). -/
  trace : List Event
  deriving DecidableEq, Repr

/-- The machine right after hardware reset (R300) with the record `Config.resetConfig` and ALLOC_OK true (log 11,
log 22): IDLE and inactive, the reset line at rest, the frame buffer at its fill value. The step-local registers and
the inputs have no reset value in the spec; the values here are the model's (log 1 to 8, 26; DESIGN CHOICE, unsafe). -/
def State.reset : State where
  state := 0
  deadline := 0
  waitIdle := false
  active := false
  failed := false
  faultCode := 0
  faultIndex := 0
  expectLow := true
  resetCount := 0
  cursor := 0
  rstQ := true
  t0 := 0
  idx := 0
  sleepStart := 0
  cfg := Config.resetConfig
  fb := []
  fbAllocated := true
  stage := []
  requests := []
  response := none
  hang := none
  nowMs := 0
  nowScript := []
  busyIn := false
  busyScript := []
  producer := []
  transportLeft := none
  resetIn := []
  trace := []

end Sys2Proof.Machine
end

