-- ==== Sys2Proof/Machine/Memory.lean ====
section
/-! DEFINITION. The frame buffer (20_memory R60 to R62): a sparse memory in one canonical form, and its two access
operations. -/

namespace Sys2Proof.Machine

/-- The byte at `k` of a sparse memory; an unlisted address reads as `d`. -/
def Memory.read (d : Nat → Byte) : List Host.Cell → Nat → Byte
  | [], k => d k
  | (a, v) :: m, k => if k = a then v else Memory.read d m k

/-- Stores `v` at `k`, keeping the addresses rising and listing no byte equal to what its address reads as
unlisted. -/
def Memory.write (d : Nat → Byte) : List Host.Cell → Nat → Byte → List Host.Cell
  | [], k, v => if v = d k then [] else [(k, v)]
  | (a, w) :: m, k, v =>
    if k < a then (if v = d k then (a, w) :: m else (k, v) :: (a, w) :: m)
    else if k = a then (if v = d k then m else (k, v) :: m)
    else (a, w) :: Memory.write d m k v

/-- The canonical form: addresses strictly rising, every one below `n`, no entry equal to what its address reads as
unlisted. -/
def Memory.wf (d : Nat → Byte) (n : Nat) : List Host.Cell → Bool
  | [] => true
  | (a, w) :: m => decide (a < n) && (w != d a) && m.all (fun c => decide (a < c.1)) && Memory.wf d n m

/-- The fill value of the frame buffer (R251, R252, R303): the white code in both nibbles with the quantizer, FILL_BYTE
without it. -/
def fillValue (c : PanelConfig) : Byte :=
  if c.quantPresent then (c.codeWhite.setWidth 8 <<< 4) ||| c.codeWhite.setWidth 8 else c.fillByte

/-- What an unlisted frame-buffer address reads as: the fill value (R303); a free value where the buffer was never
allocated (R300, log 10). -/
def State.fbDefault (s : State) (k : Nat) : Byte :=
  if s.fbAllocated then fillValue s.cfg else Config.unallocatedByte k

/-- N = BUFFER_LENGTH, the size of the frame buffer (R60). -/
def State.bufferLen (s : State) : Nat := s.cfg.bufferLength.toNat

/-- The byte of the frame buffer at `k`, for `k` below N (R61). -/
def State.fbByte (s : State) (k : Nat) : Byte := Memory.read s.fbDefault s.fb k

/-- FB_Read (R61): none for `k ≥ N`. -/
def fbRead (s : State) (k : Nat) : Option Byte :=
  if k < s.bufferLen then some (s.fbByte k) else none

/-- FB_Write (R61): none for `k ≥ N`. -/
def fbWrite (s : State) (k : Nat) (v : Byte) : Option State :=
  if k < s.bufferLen then some { s with fb := Memory.write s.fbDefault s.fb k v } else none

/-- The frame buffer's list is in canonical form. -/
def State.fbWf (s : State) : Bool := Memory.wf s.fbDefault s.bufferLen s.fb

end Sys2Proof.Machine
end

