-- ==== Sys2Proof/WellFormed.lean ====
section
/-! DEFINITION. What makes an instruction, and an assembler statement, well formed. -/

namespace Sys2Proof

/-- An instruction is well formed unless it is a CMD.B7 with count 127: its second byte would be 0xFF, which is the
DELAY marker (R82, R185: n is 0..126). -/
def Instr.wf : Instr → Bool
  | .delay _ => true
  | .cmd _ _ => true
  | .cmdB7 _ n => n != 127
  | .beginCycle => true
  | .advance => true
  | .reqReserved => true
  | .stateIdle => true
  | .stateReset => true
  | .stateResetEnd => true
  | .stateUpdate => true
  | .stateInitialise => true
  | .stateTransferData => true
  | .statePowerOn => true
  | .statePostPowerOn => true
  | .stateRefreshScreen => true
  | .statePowerOff => true
  | .stateDeepSleep => true
  | .stateUnknown11 => true
  | .stateUnknownHigh _ => true

/-- What the assembler accepts (R88): a DELAY of 0..255 ms, a CMD with at most 127 data bytes, a CMD.B7 with at most
126, any WAIT. -/
def Asm.wf : Asm → Bool
  | .delay t => decide (t ≤ 255)
  | .cmd _ data => decide (data.length ≤ 127)
  | .cmdB7 _ data => decide (data.length ≤ 126)
  | .wait _ => true

end Sys2Proof
end

