-- ==== Sys2Proof/Decode.lean ====
section
/-! DEFINITION. The decoder, total on any bytes and codes and rejecting by name, and after it the encoder and the
assembler, both written from the encoding tables of 30_encoding. -/

namespace Sys2Proof

/-! ### The decoder -/

/-- DELAY_MARKER (R8). -/
def delayMarker : Byte := 0xFF

/-- Decoding of two header bytes (R80 to R82): the marker 0xFF is tested first. -/
def decodeEntry (c x : Byte) : Entry :=
  if x = delayMarker then .delay c
  else if x.getLsbD 7 then .cmdB7 c (x.extractLsb' 0 7)
  else .cmd c (x.extractLsb' 0 7)

/-- The number of data bytes after an entry's header (R83, R84). -/
def Entry.count : Entry → Nat
  | .delay _ => 0
  | .cmd _ n => n.toNat
  | .cmdB7 _ n => n.toNat

/-- The length of an entry in bytes (R83). -/
def Entry.length (e : Entry) : Nat := 2 + e.count

/-- The host request a 2-bit code presents (R90); 00 presents none. -/
def decodeRequest (code : BitVec 2) : Option Request :=
  if code = 1 then some .beginCycle
  else if code = 2 then some .advance
  else if code = 3 then some .reserved
  else none

/-- The name of a 4-bit Driver State code (R89). -/
def StateCode.ofCode (code : BitVec 4) : StateCode :=
  if code = 0 then .idle
  else if code = 1 then .reset
  else if code = 2 then .resetEnd
  else if code = 3 then .update
  else if code = 4 then .initialise
  else if code = 5 then .transferData
  else if code = 6 then .powerOn
  else if code = 7 then .postPowerOn
  else if code = 8 then .refreshScreen
  else if code = 9 then .powerOff
  else if code = 10 then .deepSleep
  else if code = 11 then .unknown11
  else .unknownHigh (code.extractLsb' 0 2)

/-- Why bytes or a code are no instruction. -/
inductive DecodeError where
  /-- Fewer than two bytes where an entry is expected (R86 a). -/
  | truncated
  /-- The count exceeds the bytes after the header (R86 b). -/
  | overlength
  /-- Request code 00: no request is presented (R90). -/
  | noRequest
  deriving DecidableEq, Repr

/-- The first entry of a byte string (R86): its two header bytes decoded, and its data bytes present. -/
def decodeBytes : List Byte → Except DecodeError Instr
  | c :: x :: rest =>
    if rest.length < (decodeEntry c x).count then .error .overlength
    else .ok (.ofEntry (decodeEntry c x))
  | _ => .error .truncated

/-- A code in one of the three code spaces of 30_encoding: a bytecode header word (R87), a request (R90), a state
(R89). -/
inductive Code where
  | header (h : BitVec 16)
  | request (code : BitVec 2)
  | state (code : BitVec 4)
  deriving DecidableEq, Repr

/-- Byte 0 of a header word: bits [15:8] (R87). -/
def headerByte0 (h : BitVec 16) : Byte := h.extractLsb' 8 8

/-- Byte 1 of a header word: bits [7:0] (R87). -/
def headerByte1 (h : BitVec 16) : Byte := h.extractLsb' 0 8

/-- The decoder over the three code spaces. -/
def decode : Code → Except DecodeError Instr
  | .header h => .ok (.ofEntry (decodeEntry (headerByte0 h) (headerByte1 h)))
  | .request code =>
    match decodeRequest code with
    | some r => .ok (.ofRequest r)
    | none => .error .noRequest
  | .state code => .ok (.ofState (.ofCode code))

/-- The code that a word of `nbits` bits names, as spec/opcode_table.json numbers bits. Rows of more than 8 bits are
header words. A row of 2 bits is a request and one of 4 bits a state code. Given in whole bytes (8 bits) the two
spaces overlap in the values 1, 2 and 3: 1 and 2 are then read as the requests, and 3 as the state code UPDATE, since
request code 3 has no meaning (DESIGN CHOICE, log 15). -/
def codeOfTableWord (nbits w : Nat) : Option Code :=
  if 8 < nbits then some (.header (BitVec.ofNat 16 w))
  else if nbits ≤ 2 then (if w < 4 then some (.request (BitVec.ofNat 2 w)) else none)
  else if nbits ≤ 4 then (if w < 16 then some (.state (BitVec.ofNat 4 w)) else none)
  else if 1 ≤ w ∧ w ≤ 2 then some (.request (BitVec.ofNat 2 w))
  else if w < 16 then some (.state (BitVec.ofNat 4 w))
  else none

/-- The bytes of the ROM that hold a bytecode row: the two header bytes, then as many zero data bytes as the header
declares (the bits above the table's are 0). -/
def entryBytes (h : BitVec 16) : List Byte :=
  headerByte0 h :: headerByte1 h ::
    List.replicate (decodeEntry (headerByte0 h) (headerByte1 h)).count 0

/-- The instruction the decoder reads from a word numbered as spec/opcode_table.json numbers it. -/
def decodeTableWord (nbits w : Nat) : Option Instr :=
  match codeOfTableWord nbits w with
  | some (.header h) => (decodeBytes (entryBytes h)).toOption
  | some (.request code) => (decode (.request code)).toOption
  | some (.state code) => (decode (.state code)).toOption
  | none => none

/-! ### The encoder -/

/-- The code of a Driver State (R89). -/
def StateCode.code : StateCode → BitVec 4
  | .idle => 0
  | .reset => 1
  | .resetEnd => 2
  | .update => 3
  | .initialise => 4
  | .transferData => 5
  | .powerOn => 6
  | .postPowerOn => 7
  | .refreshScreen => 8
  | .powerOff => 9
  | .deepSleep => 10
  | .unknown11 => 11
  | .unknownHigh low => 3#2 ++ low

/-- The WAIT column of the state table: the states that require idle before processing (R89, R141). -/
def StateCode.wait : StateCode → Bool
  | .idle => false
  | .reset => false
  | .resetEnd => false
  | .update => true
  | .initialise => true
  | .transferData => true
  | .powerOn => true
  | .postPowerOn => true
  | .refreshScreen => true
  | .powerOff => true
  | .deepSleep => true
  | .unknown11 => false
  | .unknownHigh _ => false

/-- The code of a request (R90). -/
def Request.code : Request → BitVec 2
  | .beginCycle => 1
  | .advance => 2
  | .reserved => 3

/-- The code of an instruction, from the encodings of R80, R90 and R89: `tttttttt11111111`, `cccccccc0nnnnnnn`,
`cccccccc1nnnnnnn`, the 2-bit requests, the 4-bit states. -/
def encode : Instr → Code
  | .delay t => .header (t ++ 0xFF#8)
  | .cmd c n => .header (c ++ (0#1 ++ n))
  | .cmdB7 c n => .header (c ++ (1#1 ++ n))
  | .beginCycle => .request 1
  | .advance => .request 2
  | .reqReserved => .request 3
  | .stateIdle => .state 0
  | .stateReset => .state 1
  | .stateResetEnd => .state 2
  | .stateUpdate => .state 3
  | .stateInitialise => .state 4
  | .stateTransferData => .state 5
  | .statePowerOn => .state 6
  | .statePostPowerOn => .state 7
  | .stateRefreshScreen => .state 8
  | .statePowerOff => .state 9
  | .stateDeepSleep => .state 10
  | .stateUnknown11 => .state 11
  | .stateUnknownHigh low => .state (3#2 ++ low)

/-- The code of a response (R91). -/
def Response.code : Response → BitVec 3
  | .accepted => 0
  | .rejected => 1
  | .processed => 2
  | .heldDelay => 3
  | .heldBusy => 4
  | .ignored => 5
  | .faulted => 6
  | .halted => 7

/-- The code of a fault cause (R271). -/
def FaultCause.code : FaultCause → BitVec 3
  | .none => 0
  | .initTruncated => 1
  | .initOverlength => 2
  | .bufferAlloc => 3
  | .unknownState => 4

/-- The kind code of a transport operation (R92). -/
def TransportOp.kind : TransportOp → BitVec 2
  | .command _ _ => 0
  | .dataBegin => 1
  | .data _ => 2
  | .dataEnd => 3

/-! ### The assembler (R88) -/

/-- The bytes of `DELAY t`. -/
def assembleDelay (t : Nat) : List Byte := [BitVec.ofNat 8 t, delayMarker]

/-- WAIT ms: floor(ms / 255) copies of DELAY 255, then DELAY (ms mod 255) when that is not 0. -/
def expandWait (ms : Nat) : List Nat :=
  List.replicate (ms / 255) 255 ++ (if ms % 255 = 0 then [] else [ms % 255])

/-- The bytes of one statement, or none where the assembler refuses it. -/
def assemble (a : Asm) : Option (List Byte) :=
  if a.wf then
    match a with
    | .delay t => some (assembleDelay t)
    | .cmd c data => some (c :: BitVec.ofNat 8 data.length :: data)
    | .cmdB7 c data => some (c :: (0x80#8 ||| BitVec.ofNat 8 data.length) :: data)
    | .wait ms => some ((expandWait ms).flatMap assembleDelay)
  else none

/-- The bytes of a program: its statements' bytes one after another, or none where one is refused. -/
def assembleAll : List Asm → Option (List Byte)
  | [] => some []
  | a :: rest =>
    match assemble a, assembleAll rest with
    | some bs, some more => some (bs ++ more)
    | _, _ => none

end Sys2Proof
end

