-- ==== Sys2Proof/Machine/Flags.lean ====
section
/-! DEFINITION. The block has no arithmetic flags (R28); its combinational results are the comparators of
40_elapsed_time, and its flags are seen through the read-only views of 10_state R33. -/

namespace Sys2Proof.Machine

/-- Deadline comparator (R101): the signed difference is not negative, that is the difference modulo 2^32 is below
2^31. -/
def reached (now deadline : Word) : Bool := decide ((now - deadline).toNat < 2 ^ 31)

/-- Budget comparator (R102). -/
def exceeded (t0 now budget : Word) : Bool := decide (budget.toNat < (now - t0).toNat)

/-- Delay comparator (R103). -/
def elapsed (ts now : Word) (t : Nat) : Bool := decide (t ≤ (now - ts).toNat)

/-- A Boolean as a one-bit value. -/
def bit (b : Bool) : BitVec 1 := BitVec.ofBool b

/-- The STATUS view (R33): bits [31:13] read as 0. -/
def statusView (s : State) : BitVec 32 :=
  0#19 ++ (bit s.rstQ ++ (s.faultCode ++ (bit s.failed ++ (bit s.active ++ (bit s.expectLow ++
    (bit (s.deadline != 0) ++ (bit s.waitIdle ++ s.state)))))))

/-- The RESET_COUNT view (R33). -/
def resetCountView (s : State) : BitVec 32 := s.resetCount.setWidth 32

/-- The CURSOR view (R33). -/
def cursorView (s : State) : BitVec 32 := s.cursor

/-- The FAULT_INDEX view (R33). -/
def faultIndexView (s : State) : BitVec 32 := s.faultIndex.setWidth 32

/-- `rst_out` always equals `rst_q` (R42). -/
def rstOut (s : State) : Bool := s.rstQ

/-- `req_ready` (R40): no step is held open. -/
def reqReady (s : State) : Bool := s.hang.isNone

/-- `prod_start` between model steps (R46, R131): raised only while the producer holds the UPDATE step open. -/
def prodStart (s : State) : Bool := decide (s.hang = some .producer)

/-- The fill count k of the staging block (R22). -/
def fillCount (s : State) : BitVec 8 := BitVec.ofNat 8 s.stage.length

end Sys2Proof.Machine
end

