-- ==== Sys2Proof/Machine/Operands.lean ====
section
/-! DEFINITION. The operands of the block's operations: ROM bytes and an entry's payload (30_encoding R84), the
per-phase parameters, and the well-formedness of transport operations (R92, R93). -/

namespace Sys2Proof.Machine

/-- L = INIT_LEN as a number. -/
def State.initLen (s : State) : Nat := s.cfg.initLen

/-- The ROM bytes from the interpreter's position `i` on. -/
def State.romRest (s : State) : List Byte := s.cfg.initSeq.drop s.idx.toNat

/-- The header of the entry at the interpreter's position: `SEQ[i]` and `SEQ[i+1]` decoded, or none where fewer than
two bytes are left (R181, R182). -/
def State.entryHere (s : State) : Option Entry :=
  match s.romRest with
  | c :: x :: _ => some (decodeEntry c x)
  | _ => none

/-- The payload `SEQ[i+2 .. i+2+n-1]` (R184). -/
def State.payload (s : State) (n : Nat) : List Byte := (s.romRest.drop 2).take n

/-- The over-length condition of R183 in exact integers: `n > L - (i + 2)`. -/
def State.overLength (s : State) (n : Nat) : Bool := decide (s.initLen < s.idx.toNat + 2 + n)

/-- A data phase is open, or closed, after an operation sequence; none where the sequence breaks R93. `open` says
whether a data phase is open before it. -/
def phaseAfter : Bool → List TransportOp → Option Bool
  | o, [] => some o
  | false, .command _ _ :: rest => phaseAfter false rest
  | false, .dataBegin :: rest => phaseAfter true rest
  | true, .data _ :: rest => phaseAfter true rest
  | true, .dataEnd :: rest => phaseAfter false rest
  | false, .data _ :: _ => none
  | false, .dataEnd :: _ => none
  | true, .command _ _ :: _ => none
  | true, .dataBegin :: _ => none

/-- The sizes of one operation (R92): a payload of at most 127 bytes, a DATA of 1..S bytes. -/
def opSizeOk (stagingSize : Nat) : TransportOp → Bool
  | .command _ payload => decide (payload.length ≤ 127)
  | .dataBegin => true
  | .data bytes => decide (1 ≤ bytes.length) && decide (bytes.length ≤ stagingSize)
  | .dataEnd => true

/-- A PHASE_OPS list is well formed on its own (R93): it keeps the data-phase rules, leaves no data phase open
(log 14), and each operation has a legal size. -/
def opsWf (stagingSize : Nat) (ops : List TransportOp) : Bool :=
  decide (phaseAfter false ops = some false) && ops.all (opSizeOk stagingSize)

end Sys2Proof.Machine
end

