-- ==== Sys2Proof/Machine/Ops.lean ====
section
/-! DEFINITION. The shared operations: the environment primitives of 00_scope R13, the deadline register, the
transition function, raising a fatal failure. Once a step is held open for ever (`hang`), no later primitive of it
runs. -/

namespace Sys2Proof.Machine

/-- `o`, then `f` on its result; a fault or refusal of `o` ends it. -/
def thenDo {α β : Type} (o : Host.Outcome α Fault Refusal) (f : α → Host.Outcome β Fault Refusal) :
    Host.Outcome β Fault Refusal :=
  match o with
  | .next a => f a
  | .fault r => .fault r
  | .refused r => .refused r

/-- The rest of a step: it runs unless the step is held open. -/
def State.andThen (s : State) (f : State → State) : State :=
  if s.hang.isSome then s else f s

/-- Adds one event to the trace (R72). -/
def record (e : Event) (s : State) : State := { s with trace := s.trace ++ [e] }

/-- Adds events to the trace, in order (R72). -/
def recordAll (es : List Event) (s : State) : State := { s with trace := s.trace ++ es }

/-- The accesses that read or write `bytes` at the addresses `first`, `first + 1`, …, in ascending order (R66, R68). -/
def accesses (f : Nat → Byte → Event) : Nat → List Byte → List Event
  | _, [] => []
  | first, v :: rest => f first v :: accesses f (first + 1) rest

/-- Answers the request (R91). -/
def respond (r : Response) (s : State) : State :=
  { s with response := some r, trace := s.trace ++ [.respond r] }

/-- Now() (R100): the next value of the clock input; past the script the clock stands still (log 2). -/
def now (s : State) : Word × State :=
  match s.nowScript with
  | [] => (s.nowMs, record (.clock s.nowMs) s)
  | v :: rest => (v, record (.clock v) { s with nowMs := v, nowScript := rest })

/-- BusyAsserted() (R43): false without a busy line, with nothing sampled; otherwise one sample of `busy_in` against
BUSY_ACTIVE_LEVEL. -/
def busyAsserted (s : State) : Bool × State :=
  if s.cfg.busyPresent then
    match s.busyScript with
    | [] => (s.busyIn == s.cfg.busyActiveLevel, record (.busy s.busyIn) s)
    | v :: rest =>
      (v == s.cfg.busyActiveLevel, record (.busy v) { s with busyIn := v, busyScript := rest })
  else (false, s)

/-- SetResetLine(level) (R42). -/
def setResetLine (level : Bool) (s : State) : State := record (.resetLine level) { s with rstQ := level }

/-- Emit(op) (R45, R92): the operation is issued, and the step goes on when the transport has completed it; a
transport that completes no more holds the step open (R287). -/
def emit (op : TransportOp) (s : State) : State :=
  if s.hang.isSome then s
  else
    match s.transportLeft with
    | none => record (.emit op) s
    | some 0 => { record (.emit op) s with hang := some .transport }
    | some (n + 1) => { record (.emit op) s with transportLeft := some n }

/-- EmitAll(list) (R142). -/
def emitAll (ops : List TransportOp) (s : State) : State := ops.foldl (fun t op => emit op t) s

/-- The samples of SleepMs (R187): it samples until a sample has elapsed; when the script has run out and the clock
stands still before that, the step is held open for ever (R287 item 5). -/
def sleepLoop (ts : Word) (t : Nat) : List Word → State → Bool × State
  | [], s =>
    let (v, s1) := now s
    if elapsed ts v t then (true, s1) else (false, { s1 with hang := some .sleep })
  | _ :: rest, s =>
    let (v, s1) := now s
    if elapsed ts v t then (true, s1) else sleepLoop ts t rest s1

/-- SleepMs(t) (R187). The result says whether the delay ended. -/
def sleepMs (t : Nat) (s : State) : Bool × State :=
  let (ts, s1) := now s
  sleepLoop ts t s1.nowScript { s1 with sleepStart := ts }

/-- Arm(d) (R104): 0 arms nothing and takes no sample; a sum that wraps to 0 arms nothing either. -/
def arm (d : Word) (s : State) : State :=
  if d = 0 then { s with deadline := 0 }
  else
    let (v, s1) := now s
    { s1 with deadline := v + d }

/-- DeadlineHolds(t0) (R105): a reached deadline is cleared. -/
def deadlineHolds (t0 : Word) (s : State) : Bool × State :=
  if s.deadline = 0 then (false, s)
  else if reached t0 s.deadline then (false, { s with deadline := 0 })
  else (true, s)

/-- Transition(next, d) (R140). -/
def transition (next : StateCode) (d : Word) (s : State) : State :=
  { arm d { s with state := next.code } with waitIdle := next.wait }

/-- raise Fault(code, info) (R274): the one way into a fatal failure. No transition; the ADVANCE ends with FAULTED.
There is no return from it (R278): only hardware reset clears `failed`. -/
def raiseFault (cause : FaultCause) (info : BitVec 16) (s : State) : State :=
  respond .faulted { s with failed := true, faultCode := cause.code, faultIndex := info, active := false }

/-- The halt on an unknown state code (R139, R276): `failed`, `fault_index` and `state` keep their values. -/
def unknownHalt (s : State) : State :=
  respond .halted { s with faultCode := FaultCause.unknownState.code, active := false }

/-- The transport operation an event issues, if it issues one. -/
def Event.op? : Event → Option TransportOp
  | .emit op => some op
  | _ => none

/-- The clock value an event samples, if it samples the clock. -/
def Event.sample? : Event → Option Word
  | .clock v => some v
  | _ => none

/-- The transport operations issued so far, in order (R92). -/
def State.ops (s : State) : List TransportOp := s.trace.filterMap Event.op?

end Sys2Proof.Machine
end

