-- ==== Sys2Proof/Machine/Bytecode.lean ====
section
/-! DEFINITION. The init-sequence bytecode: the meanings of DELAY, CMD and CMD.B7, and the interpreter that runs them
(43_init_interpreter). An entry answers whether the interpreter goes on after it. -/

namespace Sys2Proof.Machine

/-- The ROM accesses that read the payload of an entry with count `n` at the position `i` (R184, R66). -/
def payloadReads (n : Nat) (s : State) : List Event := accesses .romRead (s.idx.toNat + 2) (s.payload n)

/-- The ROM accesses that read the header of the entry at the position `i` (R181): `SEQ[i]`, then `SEQ[i+1]`. -/
def headerReads (s : State) : List Event := accesses .romRead s.idx.toNat (s.romRest.take 2)

/-- A command entry with count `n` at the position `i` (R183, R184): the over-length check, one COMMAND with the
payload, `i <- i + 2 + n`. -/
def commandEntry (c : Byte) (n : BitVec 7) (s : State) : Bool × State :=
  if s.overLength n.toNat then (false, raiseFault .initOverlength s.idx s)
  else
    let s1 := emit (.command c (s.payload n.toNat)) (recordAll (payloadReads n.toNat s) s)
    if s1.hang.isSome then (false, s1)
    else (true, { s1 with idx := s1.idx + 2 + n.setWidth 16 })

/-- DELAY t (R186): SleepMs(t), `i <- i + 2`. -/
def entryDelay (t : Byte) (s : State) : Bool × State :=
  let (ended, s1) := sleepMs t.toNat s
  if ended then (true, { s1 with idx := s1.idx + 2 }) else (false, s1)

/-- CMD (R184). -/
def entryCmd (c : Byte) (n : BitVec 7) (s : State) : Bool × State := commandEntry c n s

/-- CMD.B7 (R185): bit 7 of byte 1 is discarded. -/
def entryCmdB7 (c : Byte) (n : BitVec 7) (s : State) : Bool × State := commandEntry c n s

/-- The meaning of DELAY (R186). -/
def execDelay (t : Byte) (s : State) : Host.Outcome State Fault Refusal := .next (entryDelay t s).2

/-- The meaning of CMD (R184, with the fault of R183). -/
def execCmd (c : Byte) (n : BitVec 7) (s : State) : Host.Outcome State Fault Refusal := .next (entryCmd c n s).2

/-- The meaning of CMD.B7 (R185, with the fault of R183). -/
def execCmdB7 (c : Byte) (n : BitVec 7) (s : State) : Host.Outcome State Fault Refusal := .next (entryCmdB7 c n s).2

/-- The entry `e` run at the interpreter's position. -/
def runEntry (e : Entry) (s : State) : Bool × State :=
  match e with
  | .delay t => entryDelay t s
  | .cmd c n => entryCmd c n s
  | .cmdB7 c n => entryCmdB7 c n s

/-- The loop of Interpret (R181), with the checks in the order of R191: the header is read once two bytes are left. Every
entry is at least two bytes long, so L entries of fuel are never used up before `i = L`. -/
def interpretLoop : Nat → State → Bool × State
  | 0, s => (decide (s.idx.toNat = s.initLen), s)
  | fuel + 1, s =>
    if s.idx.toNat = s.initLen then (true, s)
    else
      match s.entryHere with
      | none => (false, raiseFault .initTruncated s.idx s)
      | some e =>
        let (goOn, s1) := runEntry e (recordAll (headerReads s) s)
        if goOn then interpretLoop fuel s1 else (false, s1)

/-- Interpret() (R181): from offset 0, every time it runs (R180). The result is `ok`. -/
def interpret (s : State) : Bool × State := interpretLoop s.initLen { s with idx := 0 }

end Sys2Proof.Machine
end

