-- ==== Sys2Proof/Machine/Quantizer.lean ====
section
/-! DEFINITION. The color quantizer, the pixel packer and the frame producer's window (45_color_quantizer,
41_controller_fsm R131). All arithmetic is on unsigned integers. -/

namespace Sys2Proof.Machine

/-- CORNER_CODE (R243): which channels exceed ON_T, mapped to a palette code. -/
def cornerCode (c : PanelConfig) : Bool → Bool → Bool → BitVec 3
  | false, false, false => c.codeBlack
  | false, false, true => c.codeBlue
  | false, true, false => c.codeGreen
  | false, true, true => c.codeGreen
  | true, false, false => c.codeRed
  | true, false, true => c.codeRed
  | true, true, false => c.codeYellow
  | true, true, true => c.codeWhite

/-- Quantize(r, g, b) (R242). -/
def quantize (c : PanelConfig) (r g b : Byte) : BitVec 3 :=
  let mx := max r.toNat (max g.toNat b.toNat)
  let mn := min r.toNat (min g.toNat b.toNat)
  if mx - mn < c.grayT.toNat then
    if c.lumaMid.toNat < r.toNat + g.toNat + b.toNat then c.codeWhite else c.codeBlack
  else cornerCode c (decide (c.onT < r)) (decide (c.onT < g)) (decide (c.onT < b))

/-- The linear index `y * W + x` of a pixel, none where the signed coordinates are out of bounds (R250). -/
def pixelIndex (c : PanelConfig) (x y : Word) : Option Nat :=
  if 0 ≤ x.toInt ∧ x.toInt < c.width.toNat ∧ 0 ≤ y.toInt ∧ y.toInt < c.height.toNat then
    some (y.toNat * c.width.toNat + x.toNat)
  else none

/-- The byte with the pixel's nibble replaced (R250, R67): high for an even index, low for an odd one. -/
def packNibble (idx : Nat) (old : Byte) (code : BitVec 3) : Byte :=
  if idx % 2 = 0 then (old &&& 0x0F) ||| (code.setWidth 8 <<< 4)
  else (old &&& 0xF0) ||| code.setWidth 8

/-- FB_Write as an operation of a step: an access at N or above is refused (R61). -/
def storeByte (k : Nat) (v : Byte) (s : State) : Host.Outcome State Fault Refusal :=
  match fbWrite s k v with
  | some t => .next (record (.fbWrite k v) t)
  | none => .refused (.frameBufferRange k)

/-- WritePixel(x, y, r, g, b) (R250): out-of-bounds coordinates write nothing; else the pixel's byte is read and written
back with its nibble replaced. -/
def writePixel (x y : Word) (r g b : Byte) (s : State) : Host.Outcome State Fault Refusal :=
  match pixelIndex s.cfg x y with
  | none => .next s
  | some idx =>
    storeByte (idx / 2) (packNibble idx (s.fbByte (idx / 2)) (quantize s.cfg r g b))
      (record (.fbRead (idx / 2) (s.fbByte (idx / 2))) s)

/-- One write of the producer (R47): the pixel port exists with the quantizer only (R252). -/
def producerWrite (w : ProducerWrite) (s : State) : Host.Outcome State Fault Refusal :=
  match w with
  | .byte addr v => storeByte addr.toNat v s
  | .pixel x y r g b => if s.cfg.quantPresent then writePixel x y r g b s else .refused .noPixelPort

/-- The producer's writes of one window, in order. -/
def producerWrites : List ProducerWrite → State → Host.Outcome State Fault Refusal
  | [], s => .next s
  | w :: rest, s => thenDo (producerWrite w s) (producerWrites rest)

/-- The byte of the frame buffer a producer write stores to, if it stores one (R250, R47). -/
def ProducerWrite.address (c : PanelConfig) : ProducerWrite → Option Nat
  | .byte addr _ => some addr.toNat
  | .pixel x y _ _ _ => (pixelIndex c x y).map (· / 2)

/-- A producer write that has a meaning (R61, R252): a byte below N, or a pixel where the pixel port exists. -/
def writeLegal (c : PanelConfig) : ProducerWrite → Bool
  | .byte addr _ => decide (addr.toNat < c.bufferLength.toNat)
  | .pixel _ _ _ _ _ => c.quantPresent

/-- What the producer does in its next window; past the inputs it writes nothing and reports done (log 4). -/
def State.nextRun (s : State) : ProducerRun := s.producer.headD { writes := [], done := true }

/-- InvokeProducer() (R131, R13): the window from prod_start to prod_done. A producer that never reports done holds
the step open (R287 item 3). -/
def invokeProducer (s : State) : Host.Outcome State Fault Refusal :=
  thenDo (producerWrites s.nextRun.writes (record .producerStart { s with producer := s.producer.tail })) fun t =>
    .next (if s.nextRun.done then record .producerDone t else { t with hang := some .producer })

end Sys2Proof.Machine
end

