-- ==== Sys2Proof/Machine/ResetPulse.lean ====
section
/-! DEFINITION. The reset-pulse generator (42_reset_pulse). -/

namespace Sys2Proof.Machine

/-- ResetStep (R161): without a reset line it is complete at once; otherwise it drives the line low, or high and counts,
by turns. The result is `done`. -/
def resetStep (s : State) : Bool × State :=
  if s.cfg.resetPresent then
    if s.expectLow then
      (false, { setResetLine false s with expectLow := false })
    else
      (decide (s.resetCount + 1 = s.cfg.resetCycles),
        { setResetLine true s with expectLow := true, resetCount := s.resetCount + 1 })
  else (true, s)

end Sys2Proof.Machine
end

