-- ==== Sys2Proof/Machine/Transfer.lean ====
section
/-! DEFINITION. The chunked transfer sequencer (44_chunked_transfer). -/

namespace Sys2Proof.Machine

/-- S = STAGING_SIZE as a number. -/
def State.stagingSize (s : State) : Nat := s.cfg.stagingSize.toNat

/-- A flush (R214): the staging block's bytes are read in order and go out as one DATA; after it the block is empty. -/
def flush (s : State) : State :=
  (emit (.data s.stage) (recordAll (accesses .stageRead 0 s.stage) s)).andThen fun t => { t with stage := [] }

/-- `stage[k] <- FB_Read(cursor)` with the byte `v` read, then k and `cursor` advance (R212). -/
def stageByte (v : Byte) (s : State) : State :=
  { s with
    stage := s.stage ++ [v]
    cursor := s.cursor + 1
    trace := s.trace ++ [.fbRead s.cursor.toNat v, .stageWrite s.stage.length v] }

/-- The loop of Transfer (R212). `.next (true, t)` is the loop left at `cursor = N`; `.next (false, t)` is the return
"not done" after the budget check (R215), or a step held open by the transport. The fuel is `N - cursor`; with the
cursor past N, which no rule reaches, the first FB_Read is refused (R61, log 20). -/
def transferLoop : Nat → State → Host.Outcome (Bool × State) Fault Refusal
  | 0, s => if s.cursor.toNat = s.bufferLen then .next (true, s) else .refused (.frameBufferRange s.cursor.toNat)
  | fuel + 1, s =>
    if s.cursor.toNat = s.bufferLen then .next (true, s)
    else
      match fbRead s s.cursor.toNat with
      | none => .refused (.frameBufferRange s.cursor.toNat)
      | some v =>
        let s1 := stageByte v s
        if s1.stage.length = s1.stagingSize then
          let s2 := flush s1
          if s2.hang.isSome then .next (false, s2)
          else
            let (t, s3) := now s2
            if exceeded s3.t0 t s3.cfg.transferBudgetMs then .next (false, emit .dataEnd s3)
            else transferLoop fuel s3
        else transferLoop fuel s1

/-- The start of a call (R212, R213): the start command when `cursor = 0`, then DATA_BEGIN, and an empty staging
block. -/
def transferOpen (s : State) : State :=
  (emit .dataBegin (if s.cursor = 0 then emit (.command s.cfg.transferStartCmd []) s else s)).andThen
    fun t => { t with stage := [] }

/-- The end of a completed call (R216): the partial flush, DATA_END, `cursor <- 0`. -/
def transferClose (s : State) : State :=
  (emit .dataEnd (if s.stage = [] then s else flush s)).andThen fun t => { t with cursor := 0 }

/-- Transfer(t0) (R212), with t0 in State. The result is `done`. -/
def transfer (s : State) : Host.Outcome (Bool × State) Fault Refusal :=
  let s1 := transferOpen s
  if s1.hang.isSome then .next (false, s1)
  else
    thenDo (transferLoop (s1.bufferLen - s1.cursor.toNat) s1) fun r =>
      if r.1 then .next ((transferClose r.2).hang.isNone, transferClose r.2) else .next (false, r.2)

end Sys2Proof.Machine
end

