-- ==== Sys2Proof/Machine/Panel.lean ====
section
/-! DEFINITION. The state dispatches of the panel control FSM (41_controller_fsm section 3): one meaning for each row
of the dispatch table (R128). -/

namespace Sys2Proof.Machine

/-- IDLE (R129): the cycle is finished; no transition function runs. -/
def execStateIdle (s : State) : Host.Outcome State Fault Refusal := .next { s with active := false }

/-- RESET and RESET_END (R130): one reset step, then UPDATE, or the other half of the pulse with the delay D. -/
def resetPhase (other : StateCode) (s : State) : State :=
  let (finished, t) := resetStep s
  if finished then transition .update 0 t else transition other t.cfg.resetDurationMs t

/-- RESET (R130). -/
def execStateReset (s : State) : Host.Outcome State Fault Refusal := .next (resetPhase .resetEnd s)

/-- RESET_END (R130). -/
def execStateResetEnd (s : State) : Host.Outcome State Fault Refusal := .next (resetPhase .reset s)

/-- UPDATE (R131): the producer's window, then INITIALISE. -/
def execStateUpdate (s : State) : Host.Outcome State Fault Refusal :=
  thenDo (invokeProducer s) fun t => .next (t.andThen (transition .initialise 0))

/-- INITIALISE (R132): Interpret, then TRANSFER_DATA when it was ok; after a fatal failure no transition. -/
def execStateInitialise (s : State) : Host.Outcome State Fault Refusal :=
  let (ok, t) := interpret s
  .next (if ok then transition .transferData 0 t else t)

/-- TRANSFER_DATA (R133): one Transfer call; POWER_ON when it is done, else no transition. -/
def execStateTransferData (s : State) : Host.Outcome State Fault Refusal :=
  thenDo (transfer s) fun r => .next (if r.1 then transition .powerOn 0 r.2 else r.2)

/-- A parameterised phase (R134 to R138): EmitAll(PHASE_OPS[p]), then Transition(next, PHASE_DELAY_MS[p]). -/
def phaseStep (p : Phase) (next : StateCode) (s : State) : State :=
  (emitAll (s.cfg.phaseOps.get p) s).andThen (transition next (s.cfg.phaseDelayMs.get p))

/-- POWER_ON (R134). -/
def execStatePowerOn (s : State) : Host.Outcome State Fault Refusal := .next (phaseStep .powerOn .postPowerOn s)

/-- POST_POWER_ON (R135). -/
def execStatePostPowerOn (s : State) : Host.Outcome State Fault Refusal :=
  .next (phaseStep .postPowerOn .refreshScreen s)

/-- REFRESH_SCREEN (R136). -/
def execStateRefreshScreen (s : State) : Host.Outcome State Fault Refusal :=
  .next (phaseStep .refreshScreen .powerOff s)

/-- POWER_OFF (R137). -/
def execStatePowerOff (s : State) : Host.Outcome State Fault Refusal := .next (phaseStep .powerOff .deepSleep s)

/-- DEEP_SLEEP (R138). -/
def execStateDeepSleep (s : State) : Host.Outcome State Fault Refusal := .next (phaseStep .deepSleep .idle s)

/-- The unknown state code 11 (R139): the halt. -/
def execStateUnknown11 (s : State) : Host.Outcome State Fault Refusal := .next (unknownHalt s)

/-- An unknown state code 12..15 (R139): the halt, whatever the two low bits. -/
def execStateUnknownHigh (_low : BitVec 2) (s : State) : Host.Outcome State Fault Refusal := .next (unknownHalt s)

/-- Step 3 of ADVANCE (R128): the dispatch on the Driver State. -/
def dispatch (s : State) : Host.Outcome State Fault Refusal :=
  match StateCode.ofCode s.state with
  | .idle => execStateIdle s
  | .reset => execStateReset s
  | .resetEnd => execStateResetEnd s
  | .update => execStateUpdate s
  | .initialise => execStateInitialise s
  | .transferData => execStateTransferData s
  | .powerOn => execStatePowerOn s
  | .postPowerOn => execStatePostPowerOn s
  | .refreshScreen => execStateRefreshScreen s
  | .powerOff => execStatePowerOff s
  | .deepSleep => execStateDeepSleep s
  | .unknown11 => execStateUnknown11 s
  | .unknownHigh low => execStateUnknownHigh low s

end Sys2Proof.Machine
end

