-- ==== Sys2Proof/Machine/Requests.lean ====
section
/-! DEFINITION. The host requests (41_controller_fsm sections 1 and 2): BEGIN_CYCLE, ADVANCE and the reserved code. -/

namespace Sys2Proof.Machine

/-- The registers an accepted BEGIN_CYCLE writes (R124). -/
def startCycle (s : State) : State :=
  { s with
    expectLow := true
    resetCount := 0
    deadline := 0
    waitIdle := false
    state := StateCode.reset.code
    active := true }

/-- BEGIN_CYCLE (R124): rejected unless the state is IDLE and the block has not failed. -/
def execBeginCycle (s : State) : Host.Outcome State Fault Refusal :=
  if s.failed || s.state != StateCode.idle.code then .next (respond .rejected s)
  else .next (respond .accepted (startCycle s))

/-- The end of an ADVANCE that dispatched (R122): PROCESSED, unless the dispatch has answered FAULTED or HALTED
itself or the step is held open. -/
def finishDispatch (s : State) : State :=
  if s.hang.isNone && s.response.isNone then respond .processed s else s

/-- Step 3 of ADVANCE (R122, R128) with its response. -/
def dispatchAndRespond (s : State) : Host.Outcome State Fault Refusal :=
  thenDo (dispatch { s with response := none }) fun t => .next (finishDispatch t)

/-- Step 2 of ADVANCE (R127): with `wait_idle` set, one sample of the busy line. The result says whether the request
is held. -/
def busyHolds (s : State) : Bool × State :=
  if s.waitIdle then
    let (busy, s1) := busyAsserted s
    if busy then (true, s1) else (false, { s1 with waitIdle := false })
  else (false, s)

/-- The start sample of an ADVANCE (R125). -/
def sampleT0 (s : State) : State :=
  let (v, s1) := now s
  { s1 with t0 := v }

/-- ADVANCE (R122). -/
def execAdvance (s : State) : Host.Outcome State Fault Refusal :=
  if s.failed || !s.active then .next (respond .ignored s)
  else
    let s1 := sampleT0 s
    let (delayed, s2) := deadlineHolds s1.t0 s1
    if delayed then .next (respond .heldDelay s2)
    else
      let (busy, s3) := busyHolds s2
      if busy then .next (respond .heldBusy s3) else dispatchAndRespond s3

/-- The reserved request code 11 (R123): refused. -/
def execReqReserved (_s : State) : Host.Outcome State Fault Refusal := .refused .reservedRequest

end Sys2Proof.Machine
end

