-- ==== Sys2Proof/Machine/Dispatch.lean ====
section
/-! DEFINITION. The dispatch of every instruction to its meaning. -/

namespace Sys2Proof.Machine

/-- The meaning of an instruction. -/
def exec (i : Instr) (s : State) : Host.Outcome State Fault Refusal :=
  match i with
  | .delay t => Sys2Proof.Machine.execDelay t s
  | .cmd c n => Sys2Proof.Machine.execCmd c n s
  | .cmdB7 c n => Sys2Proof.Machine.execCmdB7 c n s
  | .beginCycle => Sys2Proof.Machine.execBeginCycle s
  | .advance => Sys2Proof.Machine.execAdvance s
  | .reqReserved => Sys2Proof.Machine.execReqReserved s
  | .stateIdle => Sys2Proof.Machine.execStateIdle s
  | .stateReset => Sys2Proof.Machine.execStateReset s
  | .stateResetEnd => Sys2Proof.Machine.execStateResetEnd s
  | .stateUpdate => Sys2Proof.Machine.execStateUpdate s
  | .stateInitialise => Sys2Proof.Machine.execStateInitialise s
  | .stateTransferData => Sys2Proof.Machine.execStateTransferData s
  | .statePowerOn => Sys2Proof.Machine.execStatePowerOn s
  | .statePostPowerOn => Sys2Proof.Machine.execStatePostPowerOn s
  | .stateRefreshScreen => Sys2Proof.Machine.execStateRefreshScreen s
  | .statePowerOff => Sys2Proof.Machine.execStatePowerOff s
  | .stateDeepSleep => Sys2Proof.Machine.execStateDeepSleep s
  | .stateUnknown11 => Sys2Proof.Machine.execStateUnknown11 s
  | .stateUnknownHigh low => Sys2Proof.Machine.execStateUnknownHigh low s

end Sys2Proof.Machine
end

