-- ==== Sys2Proof/Machine/Fetch.lean ====
section
/-! DEFINITION. What a step takes from the outside before it runs an instruction: the hardware-reset input and the
request port; and how a word is placed so that the next step runs it. -/

namespace Sys2Proof.Machine

/-- The hardware-reset input at this step (R305), and the state with that entry taken off the input. -/
def takeReset (s : State) : Option ResetInput × State :=
  match s.resetIn with
  | [] => (none, s)
  | r :: rest => (r, { s with resetIn := rest })

/-- The request presented at this step, decoded (R40, R90), and the state with it taken off the port. Code 00, or a
host that presents nothing more, presents no request. -/
def takeRequest (s : State) : Option Instr × State :=
  match s.requests with
  | [] => (none, s)
  | code :: rest => ((decodeRequest code).map Instr.ofRequest, { s with requests := rest })

/-- The next step runs the host request `code`: nothing is held open, no hardware reset comes first, and the host
presents `code` next. -/
def placeRequest (code : BitVec 2) (s : State) : State :=
  { s with hang := none, resetIn := [], requests := code :: s.requests }

/-- The next step's ADVANCE dispatches the state code `code` (R122): the register `state` holds it, and no gate of
ADVANCE holds the request. -/
def placeState (code : BitVec 4) (s : State) : State :=
  placeRequest Request.advance.code
    { s with state := code, active := true, failed := false, deadline := 0, waitIdle := false }

/-- The next step's ADVANCE interprets the bytes `bs` and nothing else (R132): they are the init sequence, and the
state is INITIALISE. -/
def placeEntry (bs : List Byte) (s : State) : State :=
  placeState StateCode.initialise.code { s with cfg := { s.cfg with initSeq := bs } }

/-- The state in which the next step runs the instruction that a word of `nbits` bits stands for (log 16). -/
def placeTableWord (nbits w : Nat) (s : State) : State :=
  match codeOfTableWord nbits w with
  | some (.header h) => placeEntry (entryBytes h) s
  | some (.request code) => placeRequest code s
  | some (.state code) => placeState code s
  | none => s

end Sys2Proof.Machine
end

