-- ==== Sys2Proof/Machine/HardwareReset.lean ====
section
/-! DEFINITION. Hardware reset: configuration load, the allocation outcome, the fill and the register values
(70_reset_and_hazards R300 to R305). -/

namespace Sys2Proof.Machine

/-- A delay or budget the comparator can represent: below 2^31 ms (R9). -/
def delayOk (d : Word) : Bool := decide (d.toNat < 2 ^ 31)

/-- N for COLOR6_4BPP: ceil(W*H/2) (R60). -/
def sixColorLength (c : PanelConfig) : Nat := (c.width.toNat * c.height.toNat + 1) / 2

/-- The five values of a per-phase parameter. -/
def PerPhase.toList {α : Type} (v : PerPhase α) : List α :=
  [v.powerOn, v.postPowerOn, v.refreshScreen, v.powerOff, v.deepSleep]

/-- The six palette codes. -/
def paletteCodes (c : PanelConfig) : List (BitVec 3) :=
  [c.codeBlack, c.codeWhite, c.codeYellow, c.codeRed, c.codeBlue, c.codeGreen]

/-- The first reason to refuse a configuration record (R9, R301, and the legal values of R8, R30 and R241), if there is one.
Which of several reasons is named first is the model's choice (log 23). -/
def configProblem (c : PanelConfig) : Option ConfigProblem :=
  if c.width = 0 then some .width
  else if c.height = 0 then some .height
  else if c.displayType ≠ 0 then some .displayType
  else if c.bufferLength.toNat ≠ sixColorLength c then some .bufferLength
  else if 65535 < c.initLen then some .initLen
  else if !delayOk c.resetDurationMs then some .resetDuration
  else if c.stagingSize = 0 then some .stagingSize
  else if !delayOk c.transferBudgetMs then some .transferBudget
  else if !(PerPhase.toList c.phaseDelayMs).all delayOk then some .phaseDelay
  else if !(PerPhase.toList c.phaseOps).all (opsWf c.stagingSize.toNat) then some .phaseOps
  else if 765 < c.lumaMid.toNat then some .lumaMid
  else if ¬ (paletteCodes c).Nodup then some .paletteCodes
  else none

/-- What is stored of a record: a configured reset-cycle count of 0 is stored as 1, everything else unchanged (R31). -/
def storedConfig (c : PanelConfig) : PanelConfig :=
  { c with resetCycles := if c.resetCycles = 0 then 1 else c.resetCycles }

/-- The reset fill as an action (R303): with the buffer allocated, the fill value goes into every byte. -/
def fillEvents (r : ResetInput) : List Event := if r.allocOk then [.fill (fillValue r.config)] else []

/-- Hardware reset (R300): configuration, allocation outcome, fill, registers, in the order of R305. A step held open
is abandoned, and the operations it emitted stay in the trace. The outside agents go on as the reset input says (log 29),
and the host's requests to come are untouched. The step-local registers, for which the spec has no value, go to 0
(log 8). -/
def hardwareReset (r : ResetInput) (s : State) : Host.Outcome State Fault Refusal :=
  match configProblem r.config with
  | some p => .refused (.illegalConfig p)
  | none => .next
    { s with
      state := StateCode.idle.code
      deadline := 0
      waitIdle := false
      active := false
      failed := !r.allocOk
      faultCode := (if r.allocOk then FaultCause.none else FaultCause.bufferAlloc).code
      faultIndex := 0
      expectLow := true
      resetCount := 0
      cursor := 0
      rstQ := true
      t0 := 0
      idx := 0
      sleepStart := 0
      cfg := storedConfig r.config
      fb := []
      fbAllocated := r.allocOk
      stage := []
      response := none
      hang := none
      nowMs := r.agents.nowMs
      nowScript := r.agents.nowScript
      busyIn := r.agents.busyIn
      busyScript := r.agents.busyScript
      producer := r.agents.producer
      transportLeft := r.agents.transportLeft
      trace := s.trace ++ .hardwareReset :: fillEvents r }

/-- `s` with the first `n` of the actions recorded that a step from `s` to `t` takes: what is left outside the block by a
step that is cut there. DESIGN CHOICE (log 7, whose Risk section says when it is unsafe): R75 calls the packer's read and
write of one WritePixel a single step and does not say whether a hardware reset may fall between them; here they are two
actions (log 17), so a cut may leave the read alone. No other access comes between the two, as R75 says. -/
def cutAt (n : Nat) (s t : State) : State := { s with trace := s.trace ++ (t.trace.drop s.trace.length).take n }

/-- `s` with the producer's next window ended just before its first write that has no meaning. -/
def untilMeaningless (s : State) : State :=
  { s with producer := { writes := s.nextRun.writes.takeWhile (writeLegal s.cfg), done := false } :: s.producer.tail }

/-- Hardware reset inside a step that starts at `s` and is handled by `run` (R305): the step is abandoned after its first
`n` actions, which stay done. Every register and memory of the block is then set by the reset. A handling that is refused
for a producer write is cut just the same where the reset comes before that write (log 7). -/
def resetInside (n : Nat) (r : ResetInput) (run : State → Host.Outcome State Fault Refusal) (s : State) :
    Host.Outcome State Fault Refusal :=
  match run s with
  | .next t => hardwareReset r (cutAt n s t)
  | .fault q => .fault q
  | .refused q =>
    match run (untilMeaningless s) with
    | .next t => if s.trace.length + n ≤ t.trace.length then hardwareReset r (cutAt n s t) else .refused q
    | .fault _ => .refused q
    | .refused _ => .refused q

end Sys2Proof.Machine
end

