-- ==== Sys2Proof/Machine/Step.lean ====
section
/-! DEFINITION. One step of the machine (00_scope R14, R17): the complete handling of the request the host presents;
nothing, while a step is held open (R289); a hardware reset, before the request or inside its handling (R305). -/

namespace Sys2Proof.Machine

/-- One step. -/
def step (s : State) : Host.Outcome State Fault Refusal :=
  match takeReset s with
  | (some r, s1) =>
    match r.cut with
    | none => hardwareReset r s1
    | some n =>
      if s1.hang.isSome then hardwareReset r s1
      else
        match takeRequest s1 with
        | (none, s2) => hardwareReset r s2
        | (some i, s2) => resetInside n r (exec i) s2
  | (none, s1) =>
    if s1.hang.isSome then .next s1
    else
      match takeRequest s1 with
      | (none, s2) => .next s2
      | (some i, s2) => exec i s2

/-- `s` with the instruction of the table word `w` placed where the next step runs it (log 16). -/
def State.withFetchWord (s : State) (nbits w : Nat) : State := placeTableWord nbits w s

end Sys2Proof.Machine
end

