-- ==== Sys2Proof/Safety.lean ====
section
/-! DEFINITION. What counts as a safe run: the invariant of the block between requests (10_state R48 and the rules
around it), the laws the outside agents keep, and what a step may be refused for. -/

namespace Sys2Proof.Safety

open Sys2Proof.Machine

/-- The transport operations issued since the last hardware reset. -/
def opsSinceReset (trace : List Event) : List TransportOp :=
  trace.foldl
    (fun ops e =>
      match e with
      | .hardwareReset => []
      | .emit op => ops ++ [op]
      | _ => ops)
    []

/-- The invariant of the machine: R48 items 1 to 6, the rules that keep them, and the canonical form of the memory. It
speaks of a step held open for ever (`hang`) as well as of the state between requests. -/
structure BlockInv (s : State) : Prop where
  /-- The configuration record is one hardware reset accepts (R301). -/
  configLegal : configProblem s.cfg = none
  /-- C ≥ 1 (R31, R327). -/
  cyclesPositive : s.cfg.resetCycles ≠ 0
  /-- The frame buffer's list is canonical and below N. -/
  memoryCanonical : s.fbWf = true
  /-- Codes 11..15 are not held (R23). -/
  stateNamed : s.state.toNat ≤ 10
  /-- R48.1, first half. -/
  cursorBound : s.cursor.toNat ≤ s.bufferLen
  /-- R48.1, second half. -/
  cursorPlace : s.cursor ≠ 0 → s.state = StateCode.transferData.code
  /-- R48.2 for RESET. -/
  resetExpectsLow : s.cfg.resetPresent = true → s.active = true → s.state = StateCode.reset.code → s.expectLow = true
  /-- R48.2 for RESET_END. -/
  resetEndExpectsHigh :
    s.cfg.resetPresent = true → s.active = true → s.state = StateCode.resetEnd.code → s.expectLow = false
  /-- R48.3. -/
  resetCountBound : s.resetCount ≤ s.cfg.resetCycles
  /-- In the reset phase the count has not reached C (R163). -/
  resetCountBelow :
    s.cfg.resetPresent = true → s.active = true →
      s.state = StateCode.reset.code ∨ s.state = StateCode.resetEnd.code → s.resetCount < s.cfg.resetCycles
  /-- R48.4. -/
  failedInactive : s.failed = true → s.active = false
  /-- R48.5. -/
  waitIdlePlace : s.waitIdle = true → (StateCode.ofCode s.state).wait = true
  /-- R48.6. -/
  stagingEmpty : s.hang = none → s.stage = []
  /-- The reset line rests at 1 outside the low half of a pulse (R165). -/
  resetLineRests : s.state ≠ StateCode.resetEnd.code → s.rstQ = true
  /-- Without a reset line the output keeps its reset value (R42). -/
  resetLineAbsent : s.cfg.resetPresent = false → s.rstQ = true
  /-- `0 ≤ i ≤ L` (R23, R181). -/
  indexBound : s.idx.toNat ≤ s.initLen
  /-- Without a failure no fault is recorded (R271, R272). -/
  noFaultRecorded : s.failed = false → s.faultCode = 0 ∧ s.faultIndex = 0
  /-- A failure records its cause, and `state` shows where it happened (R271, R273). -/
  faultRecorded :
    s.failed = true →
      (s.state = StateCode.initialise.code ∧ (s.faultCode = 1 ∨ s.faultCode = 2)) ∨
        (s.state = StateCode.idle.code ∧ s.faultCode = 3)
  /-- A buffer that was not allocated belongs to a failed block (R302). -/
  unallocatedFailed : s.fbAllocated = false → s.failed = true
  /-- A step held open belongs to a cycle in progress and has not been answered (R289). -/
  hangOpen : s.hang ≠ none → s.active = true ∧ s.response = none
  /-- The operations emitted since hardware reset are well formed, and no data phase is left open by an answered
  request (R93). -/
  opsClosed : s.hang = none → phaseAfter false (opsSinceReset s.trace) = some false
  /-- The same for a step held open, whose data phase may still be open (R93). -/
  opsWellFormed : (phaseAfter false (opsSinceReset s.trace)).isSome = true
  /-- Every operation has a legal size (R92, R68). -/
  opsSized : (opsSinceReset s.trace).all (opSizeOk s.stagingSize) = true

/-- The monotone clock law (R100, R326): between any two samples, in order, less than 2^31 ms elapse. A claim may
assume it of the clock inputs still to come; the model does not build it in (log 19). -/
def ClockLaw (s : State) : Prop :=
  (s.nowMs :: s.nowScript).Pairwise fun a b => (b - a).toNat < 2 ^ 31

/-- The inputs the next step meets are ones the spec gives a meaning: a legal record for a hardware reset (R301), no
reserved request (R123), no producer write outside the frame buffer or to an absent port (R61, R252). -/
structure StepInputsLegal (s : State) : Prop where
  resetLegal : ∀ r rest, s.resetIn = some r :: rest → configProblem r.config = none
  requestLegal : ∀ rest, s.requests ≠ 3 :: rest
  writesLegal : s.nextRun.writes.all (writeLegal s.cfg) = true

/-- A step that has not been told to start over: no hardware reset is asserted at it. -/
def NoReset (s : State) : Prop := (takeReset s).1 = none

/-- No gate of ADVANCE holds the request (R122, R126, R127): the block is in a cycle and has not failed, no deadline is
armed or the start sample has reached it, and the busy line is not to be polled. -/
structure Ungated (s : State) : Prop where
  running : s.hang = none
  notFailed : s.failed = false
  active : s.active = true
  deadlinePassed : s.deadline = 0 ∨ reached (now s).1 s.deadline = true
  notWaiting : s.waitIdle = false

/-- The registers of 10_state R21, the configuration, the memories and the step-local position are as before. -/
structure SameRegisters (s t : State) : Prop where
  state : t.state = s.state
  deadline : t.deadline = s.deadline
  waitIdle : t.waitIdle = s.waitIdle
  active : t.active = s.active
  failed : t.failed = s.failed
  faultCode : t.faultCode = s.faultCode
  faultIndex : t.faultIndex = s.faultIndex
  expectLow : t.expectLow = s.expectLow
  resetCount : t.resetCount = s.resetCount
  cursor : t.cursor = s.cursor
  rstQ : t.rstQ = s.rstQ
  cfg : t.cfg = s.cfg
  memory : ∀ k, fbRead t k = fbRead s k
  stage : t.stage = s.stage

/-- The transport stops inside a dispatch (R287 item 4, R289; its form: log 5, log 6). From `s` the dispatch would issue
`ops` and end in `u` with a transport that completes every operation; it ends in `t` with one that completes only `n`
more. -/
structure StopsAfter (n : Nat) (ops : List TransportOp) (s u t : State) : Prop where
  /-- Where `n` is enough, nothing else differs. -/
  enough : ops.length ≤ n → t = { u with transportLeft := some (n - ops.length) }
  /-- Else the step is held open at the first operation that is not completed. -/
  held : n < ops.length → t.hang = some .transport ∧ t.transportLeft = some 0
  /-- That operation has been issued, after those before it, and none after it. -/
  issued : n < ops.length → t.ops = s.ops ++ ops.take (n + 1)
  /-- What has been done is what would have been done up to it, and it is the last thing done. -/
  cut : n < ops.length → t.trace <+: u.trace ∧ t.trace.getLast? = ops[n]?.map .emit
  /-- The request is not answered, and no register but the transfer's own position and staging block has moved. -/
  kept : n < ops.length → t.response = s.response ∧ SameRegisters { s with cursor := t.cursor, stage := t.stage } t

/-- The actions that reach outside the block and cannot be undone (R69). -/
def eventOutward : Event → Bool
  | .emit _ => true
  | .resetLine _ => true
  | .producerStart => true
  | .producerDone => true
  | .clock _ => false
  | .busy _ => false
  | .respond _ => false
  | .romRead _ _ => false
  | .fbRead _ _ => false
  | .fbWrite _ _ => false
  | .stageWrite _ _ => false
  | .stageRead _ _ => false
  | .hardwareReset => false
  | .fill _ => false

/-- The action reads or writes a byte of the frame buffer (R61). -/
def isFbAccess : Event → Bool
  | .fbRead _ _ => true
  | .fbWrite _ _ => true
  | .emit _ => false
  | .resetLine _ => false
  | .producerStart => false
  | .producerDone => false
  | .clock _ => false
  | .busy _ => false
  | .respond _ => false
  | .romRead _ _ => false
  | .stageWrite _ _ => false
  | .stageRead _ _ => false
  | .hardwareReset => false
  | .fill _ => false

/-- The frame-buffer address that the action stores to, if it stores. -/
def storedAddress? : Event → Option Nat
  | .fbWrite k _ => some k
  | _ => none

/-- The byte at `k` after a producer write that finds `old` there: a byte write to `k` replaces it, a pixel write whose
nibble lies in it replaces that nibble by the pixel's code (R250, R67), any other write leaves it. -/
def storedByte (c : PanelConfig) (k : Nat) (old : Byte) : ProducerWrite → Byte
  | .byte addr v => if addr.toNat = k then v else old
  | .pixel x y r g b =>
    match pixelIndex c x y with
    | none => old
    | some idx => if idx / 2 = k then packNibble idx old (quantize c r g b) else old

/-- The byte at `k` after a producer's writes, in order, that find `old` there (R131, R62). -/
def windowByte (c : PanelConfig) (k : Nat) (writes : List ProducerWrite) (old : Byte) : Byte :=
  writes.foldl (storedByte c k) old

/-- `n` reset steps one after another, with the result of the last (R163). -/
def resetSteps : Nat → State → Bool × State
  | 0, s => (false, s)
  | n + 1, s => resetStep (resetSteps n s).2

/-- The transport operations that the entries of an assembled program issue: one COMMAND per command entry (R189). -/
def commandsOf (prog : List Asm) : List TransportOp :=
  prog.flatMap fun a =>
    match a with
    | .cmd c data => [.command c data]
    | .cmdB7 c data => [.command c data]
    | .delay _ => []
    | .wait _ => []

/-- The statement makes the interpreter wait for some time. -/
def asmWaits : Asm → Bool
  | .delay t => t != 0
  | .wait ms => ms != 0
  | .cmd _ _ => false
  | .cmdB7 _ _ => false

/-- The frame-buffer bytes at the offsets `first`, `first + 1`, … below `last`, in ascending order (R217). -/
def bufferBytes (s : State) (first last : Nat) : List Byte :=
  (List.range' first (last - first)).map s.fbByte

/-- The value of the `j`-th clock sample taken from `s` on, counted from 0; past the script the clock stands still
(log 2). -/
def sampleAt (s : State) (j : Nat) : Word := s.nowScript.getD j (s.nowScript.getLastD s.nowMs)

/-- The clock samples taken so far, in order. -/
def clockSamples (s : State) : List Word := s.trace.filterMap Event.sample?

/-- How many of the blocks are full: of S bytes. -/
def fullBlocks (s : State) (blocks : List (List Byte)) : Nat := blocks.countP fun b => b.length == s.stagingSize

/-- The data bytes that a sequence of operations sends, in order. -/
def dataBytes (ops : List TransportOp) : List Byte :=
  ops.flatMap fun op =>
    match op with
    | .data bytes => bytes
    | .command _ _ => []
    | .dataBegin => []
    | .dataEnd => []

/-- Transfer called again and again until it is done (R217): each call has a start sample of its own and meets clock
values of its own, one pair a call. -/
def transferCalls : List (Word × List Word) → State → Host.Outcome (Bool × State) Fault Refusal
  | [], s => .next (false, s)
  | (start, ticks) :: rest, s =>
    thenDo (transfer { s with t0 := start, nowScript := ticks }) fun r =>
      if r.1 then .next r else transferCalls rest r.2

end Sys2Proof.Safety
end

