-- ==== Sys2Proof/Certificates/Slice0/Obligations.lean ====
section
/-! DEFINITION. The statements about the model, each a proposition with a name that says what it states. -/

open Sys2Proof Sys2Proof.Machine Sys2Proof.Safety

/-! ### Encodings -/

/-- The header words of 95_test_vectors DEC-1 to DEC-8, the request codes of R90 and three state codes of R89 decode to
what the spec's tables say. -/
def Obligations.SpecWordsDecode : Prop :=
  decode (.header 0x01FF) = .ok (.delay 1) ∧ decode (.header 0xFFFF) = .ok (.delay 255) ∧
  decode (.header 0x00FF) = .ok (.delay 0) ∧ decode (.header 0x0100) = .ok (.cmd 0x01 0) ∧
  decode (.header 0xFF7F) = .ok (.cmd 0xFF 127) ∧ decode (.header 0x1081) = .ok (.cmdB7 0x10 1) ∧
  decode (.header 0x20FE) = .ok (.cmdB7 0x20 126) ∧ decode (.header 0x2080) = .ok (.cmdB7 0x20 0) ∧
  decode (.request 0) = .error .noRequest ∧ decode (.request 1) = .ok .beginCycle ∧
  decode (.request 2) = .ok .advance ∧ decode (.request 3) = .ok .reqReserved ∧
  decode (.state 0) = .ok .stateIdle ∧ decode (.state 8) = .ok .stateRefreshScreen ∧
  decode (.state 13) = .ok (.stateUnknownHigh 1)

/-- Decode and encode agree on every well-formed instruction, with every operand at every value (30_encoding R80, R89,
R90). -/
def Obligations.DecodeEncodeRoundTrip : Prop :=
  ∀ i : Instr, i.wf = true → decode (encode i) = .ok i

/-- Each code has one meaning: a code that decodes is the encoding of what it decodes to, and that is well formed. -/
def Obligations.EncodeDecodeRoundTrip : Prop :=
  ∀ (c : Code) (i : Instr), decode c = .ok i → encode i = c ∧ i.wf = true

/-- R82, R83, R84: an entry's format and length from its two header bytes; the marker 0xFF comes first; bit 7 of byte 1
contributes nothing to a command's count. -/
def Obligations.HeaderBytesDecode : Prop :=
  ∀ c x : Byte,
    (x = 0xFF → decodeEntry c x = .delay c ∧ (decodeEntry c x).length = 2) ∧
    (x ≠ 0xFF →
      (∃ n : BitVec 7, (decodeEntry c x = .cmd c n ∨ decodeEntry c x = .cmdB7 c n) ∧ n.toNat = (x &&& 0x7F).toNat) ∧
      (decodeEntry c x).length = 2 + (x &&& 0x7F).toNat) ∧
    (x ≠ 0xFF → x ≠ 0x7F → (decodeEntry c (x ^^^ 0x80)).count = (decodeEntry c x).count)

/-- R88: WAIT ms assembles to DELAY entries of 1 to 255 ms whose times add up to ms; WAIT 0 to nothing. -/
def Obligations.WaitAssemblesToItsTime : Prop :=
  ∀ ms : Nat,
    assemble (.wait ms) = some ((expandWait ms).flatMap fun t => [BitVec.ofNat 8 t, 0xFF]) ∧
    (expandWait ms).sum = ms ∧ (∀ t ∈ expandWait ms, 1 ≤ t ∧ t ≤ 255) ∧
    (expandWait ms).length = (ms + 254) / 255

/-! ### Time -/

/-- R101: the deadline comparator is the sign of the 32-bit difference, with its corner cases and worked example. -/
def Obligations.ReachedIsSignedDifference : Prop :=
  (∀ now deadline : Word, reached now deadline = true ↔ 0 ≤ (now - deadline).toInt) ∧
  (∀ now deadline : Word, reached now deadline = true ↔ (now - deadline).toNat < 2 ^ 31) ∧
  (∀ now : Word, reached now now = true) ∧
  (∀ now deadline : Word, 2 ^ 31 ≤ (now - deadline).toNat → reached now deadline = false) ∧
  reached 5 (0 - 10) = true

/-- R102, R103: the budget and delay comparators are exact on the time that has passed, across a rollover of the clock, with
the corner cases of their rules. -/
def Obligations.BudgetAndDelayComparators : Prop :=
  (∀ (start budget : Word) (passed : Nat), passed < 2 ^ 32 →
    (exceeded start (start + BitVec.ofNat 32 passed) budget = true ↔ budget.toNat < passed)) ∧
  (∀ (start : Word) (t passed : Nat), passed < 2 ^ 32 →
    (elapsed start (start + BitVec.ofNat 32 passed) t = true ↔ t ≤ passed)) ∧
  exceeded 0xFFFFFFFA 0x00000005 10 = true ∧ elapsed 0xFFFFFFF0 0x00000004 20 = true

/-- R107 with R104 and R105: after Arm(d) at the sample a, an ADVANCE that passes the deadline check has sampled a t0 with
(t0 - a) mod 2^32 ≥ d. The one exception is R325's: a sum that wraps to 0 arms nothing. -/
def Obligations.ArmedDelayIsALowerBound : Prop :=
  ∀ (s : State) (d t0 : Word), d.toNat < 2 ^ 31 → (now s).1 + d ≠ 0 →
    (deadlineHolds t0 (arm d s)).1 = false →
    d.toNat ≤ (t0 - (now s).1).toNat ∧ (deadlineHolds t0 (arm d s)).2.deadline = 0

/-- R100, R324: under the clock law the deadline comparator is exact. An ADVANCE whose deadline was armed with delay d at
the present clock value is held exactly when less than d ms pass until its sample. -/
def Obligations.DeadlineExactUnderTheClockLaw : Prop :=
  ∀ (s : State) (d v : Word) (rest : List Word),
    ClockLaw s → s.nowScript = v :: rest → s.failed = false → s.active = true → d.toNat < 2 ^ 31 →
    s.deadline = s.nowMs + d → s.deadline ≠ 0 →
    ((∃ t, exec .advance s = .next t ∧ t.response = some .heldDelay) ↔ (v - s.nowMs).toNat < d.toNat)

/-- R140, R141, R104: the transition function writes `state`, `deadline` and `wait_idle` and nothing else of the block; a
delay of 0 arms nothing and takes no sample, any other takes one sample and arms the deadline from it. -/
def Obligations.TransitionWritesControlState : Prop :=
  ∀ (s : State) (next : StateCode) (d : Word),
    (d = 0 → transition next d s = { s with state := next.code, deadline := 0, waitIdle := next.wait }) ∧
    (d ≠ 0 →
      transition next d s =
        { s with
          state := next.code, deadline := (now s).1 + d, waitIdle := next.wait,
          nowMs := (now s).1, nowScript := s.nowScript.tail, trace := s.trace ++ [.clock (now s).1] }) ∧
    (next.wait = true ↔
      next ∈ [StateCode.update, .initialise, .transferData, .powerOn, .postPowerOn, .refreshScreen, .powerOff,
        .deepSleep])

/-! ### Host requests and steps -/

/-- A step at which no hardware reset is asserted and no step is held open runs the decoded request (R40, R121): the code
is taken off the port, and `exec` runs what it decodes to. That requests and resets come as lists is the model's choice
(log 1, log 7). -/
def Obligations.StepRunsTheDecodedRequest : Prop :=
  ∀ (s : State) (code : BitVec 2) (rest : List (BitVec 2)) (i : Instr),
    NoReset s → s.hang = none → s.requests = code :: rest → decode (.request code) = .ok i →
    step s = exec i { s with resetIn := s.resetIn.tail, requests := rest }

/-- R90: with no request presented a step changes nothing but the inputs it has passed. That a host with no code left
presents none is the model's choice (log 1). -/
def Obligations.NoRequestNoEffect : Prop :=
  ∀ s : State, NoReset s → s.hang = none → (s.requests = [] ∨ ∃ rest, s.requests = 0 :: rest) →
    step s = .next { s with resetIn := s.resetIn.tail, requests := s.requests.tail }

/-- R289, R121: while a step is held open no request is taken and nothing happens, until hardware reset. The register
`hang` that says so is the model's own (log 6). -/
def Obligations.HeldStepTakesNoRequest : Prop :=
  ∀ s : State, NoReset s → s.hang ≠ none → step s = .next { s with resetIn := s.resetIn.tail }

/-- R124, R144: BEGIN_CYCLE is accepted exactly when `state` is IDLE and the block has not failed; then it writes the six
registers of R124 and no other; otherwise it is rejected and writes nothing. -/
def Obligations.BeginCycleAcceptedOrRejected : Prop :=
  ∀ s : State,
    (s.failed = false → s.state = 0 →
      exec .beginCycle s = .next { s with
        expectLow := true, resetCount := 0, deadline := 0, waitIdle := false, state := 1, active := true,
        response := some .accepted, trace := s.trace ++ [.respond .accepted] }) ∧
    (s.failed = true ∨ s.state ≠ 0 →
      exec .beginCycle s = .next { s with
        response := some .rejected, trace := s.trace ++ [.respond .rejected] })

/-- R123: the reserved request code has no meaning in the model and is refused, as an instruction and as a step. -/
def Obligations.ReservedRequestRefused : Prop :=
  (∀ s : State, exec .reqReserved s = .refused .reservedRequest) ∧
  (∀ (s : State) (rest : List (BitVec 2)), NoReset s → s.hang = none → s.requests = 3 :: rest →
    step s = .refused .reservedRequest)

/-- R122, R26, R27, R275: the three answers of ADVANCE that dispatch nothing, and what each leaves. IGNORED takes no
sample; HELD_DELAY writes no register; HELD_BUSY writes at most the deadline clear. -/
def Obligations.AdvanceGates : Prop :=
  ∀ s : State,
    (s.failed = true ∨ s.active = false →
      exec .advance s = .next { s with
        response := some .ignored, trace := s.trace ++ [.respond .ignored] }) ∧
    (s.failed = false → s.active = true → s.deadline ≠ 0 → reached (now s).1 s.deadline = false →
      ∃ t, exec .advance s = .next t ∧ t.response = some .heldDelay ∧ SameRegisters s t ∧
        t.trace = s.trace ++ [.clock (now s).1, .respond .heldDelay]) ∧
    (s.failed = false → s.active = true → (s.deadline = 0 ∨ reached (now s).1 s.deadline = true) →
      s.waitIdle = true → s.cfg.busyPresent = true → s.busyScript.headD s.busyIn = s.cfg.busyActiveLevel →
      ∃ t, exec .advance s = .next t ∧ t.response = some .heldBusy ∧ SameRegisters { s with deadline := 0 } t ∧
        t.trace = s.trace ++ [.clock (now s).1, .busy s.cfg.busyActiveLevel, .respond .heldBusy])

/-- R122, R128, R105, R126: past its gates, ADVANCE runs the instruction the `state` register decodes to, with t0 sampled
and a deadline that the sample has reached cleared in the same step, and answers PROCESSED unless the dispatch has
answered itself or is held open (`response` and `hang`: log 26, log 6). -/
def Obligations.AdvanceRunsTheDecodedState : Prop :=
  ∀ (s : State) (i : Instr), Ungated s → decode (.state s.state) = .ok i →
    exec .advance s =
      thenDo (exec i { sampleT0 s with deadline := 0, response := none }) fun t =>
        .next (if t.hang = none ∧ t.response = none then respond .processed t else t)

/-- R43, R127: with `wait_idle` set, and no deadline or one that the start sample has reached, an idle busy line (or an
absent one) lets ADVANCE go on with the flag cleared: with no line, exactly as if it had not been set; with a line, after
one sample of it, the deadline cleared as well. That nothing is sampled or recorded without a line is the model's choice
(log 3). -/
def Obligations.IdleBusyLineLetsAdvanceGoOn : Prop :=
  ∀ s : State, s.failed = false → s.active = true → (s.deadline = 0 ∨ reached (now s).1 s.deadline = true) →
    s.waitIdle = true →
    (s.cfg.busyPresent = false → exec .advance s = exec .advance { s with waitIdle := false }) ∧
    (s.cfg.busyPresent = true → s.busyScript.headD s.busyIn ≠ s.cfg.busyActiveLevel →
      exec .advance s =
        dispatchAndRespond { sampleT0 s with
          deadline := 0, waitIdle := false, busyIn := s.busyScript.headD s.busyIn, busyScript := s.busyScript.tail,
          trace := (sampleT0 s).trace ++ [.busy (s.busyScript.headD s.busyIn)] })

/-- R122 with R134 to R138: in each of the five parameterised phases, with no gate holding it and a transport that
completes its operations, ADVANCE emits the phase's operations, moves to the next state and answers PROCESSED. -/
def Obligations.AdvanceRunsAPhase : Prop :=
  ∀ (s : State) (p : Phase) (here there : StateCode),
    (p, here, there) ∈ [(Phase.powerOn, StateCode.powerOn, StateCode.postPowerOn),
      (.postPowerOn, .postPowerOn, .refreshScreen), (.refreshScreen, .refreshScreen, .powerOff),
      (.powerOff, .powerOff, .deepSleep), (.deepSleep, .deepSleep, .idle)] →
    Ungated s → s.transportLeft = none → s.state = here.code →
    ∃ t, exec .advance s = .next t ∧ t.response = some .processed ∧ t.state = there.code ∧
      t.waitIdle = there.wait ∧ t.ops = s.ops ++ s.cfg.phaseOps.get p ∧
      (s.cfg.phaseDelayMs.get p = 0 → t.deadline = 0) ∧
      t.active = true ∧ t.failed = false ∧ t.cursor = s.cursor ∧ t.cfg = s.cfg ∧ (∀ k, fbRead t k = fbRead s k)

/-- R128, R143: the state order. An ADVANCE keeps `state`, or moves along one edge of the dispatch table and answers
PROCESSED; it is PROCESSED without moving only in IDLE and in TRANSFER_DATA. -/
def Obligations.AdvanceFollowsTheStateOrder : Prop :=
  ∀ s t : State, BlockInv s → s.hang = none → exec .advance s = .next t →
    (t.state = s.state ∨
      (t.response = some .processed ∧
        ((s.cfg.resetPresent = true ∧ (s.state, t.state) ∈ [(1, 2), (2, 1), (2, 3)]) ∨
         (s.cfg.resetPresent = false ∧ (s.state, t.state) ∈ [(1, 3), (2, 3)]) ∨
         (s.state, t.state) ∈ [(3, 4), (4, 5), (5, 6), (6, 7), (7, 8), (8, 9), (9, 10), (10, 0)]))) ∧
    (t.response = some .processed → t.state = s.state → s.state = 0 ∨ s.state = 5)

/-! ### State dispatches -/

/-- R129: IDLE ends the cycle and writes `active` only. -/
def Obligations.IdleDispatchEndsTheCycle : Prop :=
  ∀ s : State, exec .stateIdle s = .next { s with active := false }

/-- R139, R276: the halt on codes 11..15 writes `fault_code` and `active`, answers HALTED, and leaves the rest; after it
BEGIN_CYCLE is rejected, since the code is still in `state`. -/
def Obligations.UnknownStateHalts : Prop :=
  ∀ (s : State) (i : Instr) (code : BitVec 4), 11 ≤ code.toNat → decode (.state code) = .ok i →
    ∃ t, exec i s = .next t ∧
      t = { s with
        faultCode := 4, active := false, response := some .halted, trace := s.trace ++ [.respond .halted] } ∧
      (s.state = code →
        ∃ u, exec .beginCycle t = .next u ∧ u.response = some .rejected ∧ SameRegisters t u)

/-- R130, R161, R140: the dispatches of RESET and RESET_END, with and without a reset line, in every half of the pulse. -/
def Obligations.ResetDispatches : Prop :=
  ∀ (s : State) (i : Instr) (other : StateCode),
    (i, other) ∈ [(Instr.stateReset, StateCode.resetEnd), (.stateResetEnd, .reset)] →
    (s.cfg.resetPresent = false →
      exec i s = .next { s with state := 3, deadline := 0, waitIdle := true }) ∧
    (s.cfg.resetPresent = true → s.expectLow = true →
      exec i s = .next (transition other s.cfg.resetDurationMs { s with
        rstQ := false, expectLow := false, trace := s.trace ++ [.resetLine false] })) ∧
    (s.cfg.resetPresent = true → s.expectLow = false → s.resetCount + 1 ≠ s.cfg.resetCycles →
      exec i s = .next (transition other s.cfg.resetDurationMs { s with
        rstQ := true, expectLow := true, resetCount := s.resetCount + 1, trace := s.trace ++ [.resetLine true] })) ∧
    (s.cfg.resetPresent = true → s.expectLow = false → s.resetCount + 1 = s.cfg.resetCycles →
      exec i s = .next { s with
        rstQ := true, expectLow := true, resetCount := s.cfg.resetCycles, trace := s.trace ++ [.resetLine true],
        state := 3, deadline := 0, waitIdle := true })

/-- R163, R162: with a reset line the reset step reports complete at exactly its 2C-th invocation; the flag and the line
alternate at every invocation, low first; without a line the first invocation is complete and changes nothing. -/
def Obligations.ResetPulseCompletesAtTwiceTheCycleCount : Prop :=
  ∀ s : State, s.expectLow = true → s.resetCount = 0 → s.cfg.resetCycles ≠ 0 →
    (s.cfg.resetPresent = true → ∀ n, 1 ≤ n → n ≤ 2 * s.cfg.resetCycles.toNat →
      ((resetSteps n s).1 = true ↔ n = 2 * s.cfg.resetCycles.toNat) ∧
      (resetSteps n s).2.expectLow = decide (n % 2 = 0) ∧
      (resetSteps n s).2.rstQ = decide (n % 2 = 0) ∧
      (resetSteps n s).2.resetCount.toNat = n / 2) ∧
    (s.cfg.resetPresent = false → resetSteps 1 s = (true, s))

/-- R131, R61, R250: with a producer whose writes have a meaning, UPDATE completes: INITIALISE next with `wait_idle` set
and no deadline when the producer reports done, else held open by it; every byte of the frame buffer at an address
no write of the window stores to reads as before, and so does every other register. The window's accesses are in the
trace, its stores in the order of its writes. The producer's windows as a list, the held step and the trace's form are
the model's (log 4, log 6, log 17). -/
def Obligations.UpdateRunsTheProducer : Prop :=
  ∀ s : State, configProblem s.cfg = none → s.hang = none → s.nextRun.writes.all (writeLegal s.cfg) = true →
    ∃ (t : State) (acts : List Event), exec .stateUpdate s = .next t ∧
      acts.all isFbAccess = true ∧
      acts.filterMap storedAddress? = s.nextRun.writes.filterMap (·.address s.cfg) ∧
      (s.nextRun.done = true →
        t.state = 4 ∧ t.deadline = 0 ∧ t.waitIdle = true ∧ t.hang = none ∧
        t.trace = s.trace ++ .producerStart :: acts ++ [.producerDone]) ∧
      (s.nextRun.done = false →
        t.state = s.state ∧ t.deadline = s.deadline ∧ t.waitIdle = s.waitIdle ∧ t.hang = some .producer ∧
        t.trace = s.trace ++ .producerStart :: acts) ∧
      (s.fbWf = true → t.fbWf = true ∧
        ∀ k, (∀ w ∈ s.nextRun.writes, w.address s.cfg ≠ some k) → fbRead t k = fbRead s k) ∧
      t = { s with
        state := t.state, deadline := t.deadline, waitIdle := t.waitIdle, hang := t.hang, trace := t.trace,
        fb := t.fb, producer := s.producer.tail }

/-- R61, R62, R131, R250, R67: UPDATE leaves in every byte of the frame buffer what the window's writes, in their order,
make of the byte it found there. So a byte whose last write came by the byte port holds the value written, and one whose
last write came by the pixel port holds what the writes before had left there, with the pixel's nibble replaced by its
code. -/
def Obligations.UpdateStoresTheLastByteWritten : Prop :=
  ∀ s t : State, s.fbWf = true → exec .stateUpdate s = .next t →
    (∀ k, k < s.bufferLen → fbRead t k = some (windowByte s.cfg k s.nextRun.writes (s.fbByte k))) ∧
    (∀ (before after : List ProducerWrite) (addr : Word) (v : Byte),
      s.nextRun.writes = before ++ .byte addr v :: after → (∀ w ∈ after, w.address s.cfg ≠ some addr.toNat) →
      fbRead t addr.toNat = some v) ∧
    (∀ (before after : List ProducerWrite) (x y : Word) (r g b : Byte) (idx : Nat),
      s.nextRun.writes = before ++ .pixel x y r g b :: after → pixelIndex s.cfg x y = some idx →
      (∀ w ∈ after, w.address s.cfg ≠ some (idx / 2)) →
      fbRead t (idx / 2) =
        some (packNibble idx (windowByte s.cfg (idx / 2) before (s.fbByte (idx / 2))) (quantize s.cfg r g b)))

/-- R61, R252: the first write of a window that has no meaning (a byte at N or above, or a pixel without the pixel port),
after any number of writes that have one, is refused by name, and so is the UPDATE that meets it. -/
def Obligations.UpdateRefusesMeaninglessWrites : Prop :=
  ∀ (s : State) (before rest : List ProducerWrite),
    before.all (writeLegal s.cfg) = true → (before = [] ∨ configProblem s.cfg = none) →
    (∀ (addr : Word) (v : Byte), s.nextRun.writes = before ++ .byte addr v :: rest → s.bufferLen ≤ addr.toNat →
      exec .stateUpdate s = .refused (.frameBufferRange addr.toNat)) ∧
    (∀ (x y : Word) (r g b : Byte), s.nextRun.writes = before ++ .pixel x y r g b :: rest →
      s.cfg.quantPresent = false → exec .stateUpdate s = .refused .noPixelPort)

/-- R188: with L = 0 Interpret emits nothing and INITIALISE goes straight to TRANSFER_DATA. -/
def Obligations.EmptySequenceGoesStraightOn : Prop :=
  ∀ s : State, s.cfg.initSeq = [] →
    exec .stateInitialise s = .next { s with idx := 0, state := 5, deadline := 0, waitIdle := true }

/-- R134 to R138, R142: the five parameterised phases, under a transport that completes its operations. They emit their
operations in order and transition with their delay, and write nothing else. -/
def Obligations.PhaseDispatchesEmitAndMoveOn : Prop :=
  ∀ (s : State) (i : Instr) (p : Phase) (there : StateCode),
    (i, p, there) ∈ [(Instr.statePowerOn, Phase.powerOn, StateCode.postPowerOn),
      (.statePostPowerOn, .postPowerOn, .refreshScreen), (.stateRefreshScreen, .refreshScreen, .powerOff),
      (.statePowerOff, .powerOff, .deepSleep), (.stateDeepSleep, .deepSleep, .idle)] →
    s.hang = none → s.transportLeft = none →
    exec i s = .next (transition there (s.cfg.phaseDelayMs.get p)
      { s with trace := s.trace ++ (s.cfg.phaseOps.get p).map .emit })

/-- R287 item 4: the same phases under a transport that completes only so many operations more (the model's form of that
input, log 5). With enough left they go on as otherwise; else the step is held open (log 6) at the first operation the
transport does not complete, which is the last one issued. -/
def Obligations.PhaseHeldOpenByTheTransport : Prop :=
  ∀ (s : State) (i : Instr) (p : Phase) (there : StateCode),
    (i, p, there) ∈ [(Instr.statePowerOn, Phase.powerOn, StateCode.postPowerOn),
      (.statePostPowerOn, .postPowerOn, .refreshScreen), (.stateRefreshScreen, .refreshScreen, .powerOff),
      (.statePowerOff, .powerOff, .deepSleep), (.stateDeepSleep, .deepSleep, .idle)] →
    s.hang = none →
    ∀ n, s.transportLeft = some n →
      ((s.cfg.phaseOps.get p).length ≤ n →
        exec i s = .next (transition there (s.cfg.phaseDelayMs.get p)
          { s with
            transportLeft := some (n - (s.cfg.phaseOps.get p).length),
            trace := s.trace ++ (s.cfg.phaseOps.get p).map .emit })) ∧
      (n < (s.cfg.phaseOps.get p).length →
        exec i s = .next
          { s with
            transportLeft := some 0, hang := some .transport,
            trace := s.trace ++ ((s.cfg.phaseOps.get p).take (n + 1)).map .emit })

/-! ### The init-sequence bytecode -/

/-- R184, R185, R183, R274: the two command entries. In range, each emits one COMMAND with the payload `SEQ[i+2..]` and
moves `i` by 2 + n, and writes no register of R21; over length, each raises INIT_OVERLENGTH at `i` and emits nothing.
R287 item 4, R289: a transport that completes no more operations holds the step open at the COMMAND, with `i` not moved
and no answer. That the payload's ROM reads stand in the trace just before the COMMAND is the model's choice (log 17), and
so are the form of a transport that stops and of a step held open (log 5, log 6). -/
def Obligations.CommandEntries : Prop :=
  ∀ (s : State) (i : Instr) (c : Byte) (n : BitVec 7), i = .cmd c n ∨ i = .cmdB7 c n →
    ∀ payload trace, payload = (s.cfg.initSeq.drop (s.idx.toNat + 2)).take n.toNat →
    trace = s.trace ++ (accesses .romRead (s.idx.toNat + 2) payload ++ [.emit (.command c payload)]) →
    (s.hang = none → s.idx.toNat + 2 + n.toNat ≤ s.cfg.initSeq.length →
      (s.transportLeft = none → exec i s = .next { s with idx := s.idx + 2 + n.setWidth 16, trace := trace }) ∧
      (∀ left, s.transportLeft = some (left + 1) →
        exec i s = .next { s with idx := s.idx + 2 + n.setWidth 16, transportLeft := some left, trace := trace }) ∧
      (s.transportLeft = some 0 → exec i s = .next { s with hang := some .transport, trace := trace })) ∧
    (s.cfg.initSeq.length < s.idx.toNat + 2 + n.toNat →
      exec i s = .next { s with
        failed := true, faultCode := 2, faultIndex := s.idx, active := false,
        response := some .faulted, trace := s.trace ++ [.respond .faulted] })

/-- R186, R187: a DELAY ends at the first later sample that has elapsed, writes only `i`, and emits nothing. -/
def Obligations.DelayEndsAtTheFirstElapsedSample : Prop :=
  ∀ (s : State) (t : Byte) (ts v : Word) (before rest : List Word),
    s.nowScript = ts :: (before ++ v :: rest) → (∀ u ∈ before, elapsed ts u t.toNat = false) →
    elapsed ts v t.toNat = true →
    exec (.delay t) s = .next { s with
      idx := s.idx + 2, sleepStart := ts, nowMs := v, nowScript := rest,
      trace := s.trace ++ (.clock ts :: before.map .clock ++ [.clock v]) }

/-- R187, R287 item 5: a DELAY whose clock stops before it has elapsed is held open for ever: no `i` moved, no operation,
no response. A DELAY of 0 ms always ends. That the clock stands still once its script is used up is the model's form of a
stopped clock (log 2, log 6, log 25). -/
def Obligations.DelayHangsWhenTheClockStops : Prop :=
  ∀ (s : State) (t : Byte), s.hang = none →
    ((now s).2.nowScript.all (fun v => !elapsed (now s).1 v t.toNat) = true → t ≠ 0 →
      ∃ u, exec (.delay t) s = .next u ∧ u.hang = some .sleep ∧ u.idx = s.idx ∧ u.ops = s.ops ∧
        u.response = s.response ∧ SameRegisters s u) ∧
    (t = 0 → ∃ u, exec (.delay t) s = .next u ∧ u.hang = none ∧ u.idx = s.idx + 2 ∧ u.ops = s.ops ∧
      SameRegisters s u)

/-- R181: the interpreter runs the decoded entry. Where an entry is expected and two bytes are left, the loop is `exec` of
the entry those bytes decode to, after the two reads of the ROM (recorded: log 17), and goes on from where it left; where
one byte is left it raises INIT_TRUNCATED. -/
def Obligations.InterpreterRunsTheDecodedEntry : Prop :=
  ∀ (s : State) (fuel : Nat), s.idx.toNat ≠ s.cfg.initSeq.length →
    (∀ (c x : Byte) (rest : List Byte) (i : Instr), s.cfg.initSeq.drop s.idx.toNat = c :: x :: rest →
      decode (.header (c ++ x)) = .ok i →
      ∃ (t : State) (goOn : Bool),
        exec i { s with trace := s.trace ++ [.romRead s.idx.toNat c, .romRead (s.idx.toNat + 1) x] } = .next t ∧
        interpretLoop (fuel + 1) s = if goOn then interpretLoop fuel t else (false, t)) ∧
    ((s.cfg.initSeq.drop s.idx.toNat).length < 2 →
      interpretLoop (fuel + 1) s = (false, { s with
        failed := true, faultCode := 1, faultIndex := s.idx, active := false,
        response := some .faulted, trace := s.trace ++ [.respond .faulted] }))

/-- R189, R88: an assembled program is interpreted exactly. INITIALISE issues one COMMAND per command entry, in order,
consumes exactly the assembled bytes and goes to TRANSFER_DATA, unless a wait in it is held open by a stopped clock
(log 2, log 6); without waits it always gets there. -/
def Obligations.AssembledProgramIsInterpretedExactly : Prop :=
  ∀ (s : State) (prog : List Asm) (bytes : List Byte),
    assembleAll prog = some bytes → bytes.length ≤ 65535 → s.cfg.initSeq = bytes →
    s.hang = none → s.transportLeft = none →
    ∃ t, exec .stateInitialise s = .next t ∧
      (t.hang = none →
        t.ops = s.ops ++ commandsOf prog ∧ t.idx.toNat = bytes.length ∧
        t.state = 5 ∧ t.deadline = 0 ∧ t.waitIdle = true ∧ t.failed = s.failed ∧ t.faultCode = s.faultCode ∧
        t.faultIndex = s.faultIndex ∧ t.active = s.active ∧ t.cursor = s.cursor ∧ t.cfg = s.cfg ∧
        t.response = s.response ∧ ∀ k, fbRead t k = fbRead s k) ∧
      (t.hang ≠ none → t.hang = some .sleep ∧ t.ops <+: s.ops ++ commandsOf prog ∧ SameRegisters s t) ∧
      (prog.all (fun a => !asmWaits a) = true → t.hang = none)

/-- R189, R181: a sequence that is interpreted to its end is one of the assembler's programs: whenever INITIALISE reaches
TRANSFER_DATA, the init sequence is the concatenation of whole entries. (That such a program is interpreted to its end is
`AssembledProgramIsInterpretedExactly`.) -/
def Obligations.InterpretedSequenceIsAProgram : Prop :=
  ∀ s t : State, s.state = 4 → s.cfg.initSeq.length ≤ 65535 → exec .stateInitialise s = .next t → t.state = 5 →
    ∃ prog, assembleAll prog = some s.cfg.initSeq

/-- R190, R191, R182, R183, R274: a malformed sequence. When an assembled program is followed by one lone byte, or by a
command header that declares more data bytes than follow, INITIALISE issues the program's operations and no other,
and fails at that entry with the right cause and offset; no transition runs. A stopped clock holds it open before that
(log 2, log 6). -/
def Obligations.MalformedSequenceFaultsPrecisely : Prop :=
  ∀ (s : State) (prog : List Asm) (bytes tail : List Byte) (cause : BitVec 3),
    assembleAll prog = some bytes → bytes.length + tail.length ≤ 65535 → s.cfg.initSeq = bytes ++ tail →
    s.hang = none → s.transportLeft = none →
    ((∃ b, tail = [b] ∧ cause = 1) ∨
      (∃ c x rest, tail = c :: x :: rest ∧ x ≠ 0xFF ∧ rest.length < (x &&& 0x7F).toNat ∧ cause = 2)) →
    ∃ t, exec .stateInitialise s = .next t ∧
      (t.hang = none →
        t.ops = s.ops ++ commandsOf prog ∧ t.failed = true ∧ t.faultCode = cause ∧
        t.faultIndex.toNat = bytes.length ∧ t.active = false ∧ t.response = some .faulted ∧
        t.state = s.state ∧ t.deadline = s.deadline ∧ t.waitIdle = s.waitIdle ∧ t.cursor = s.cursor ∧
        t.expectLow = s.expectLow ∧ t.resetCount = s.resetCount ∧ t.rstQ = s.rstQ ∧ t.cfg = s.cfg ∧
        ∀ k, fbRead t k = fbRead s k) ∧
      (t.hang ≠ none → t.hang = some .sleep ∧ t.ops <+: s.ops ++ commandsOf prog ∧ SameRegisters s t) ∧
      (prog.all (fun a => !asmWaits a) = true → t.hang = none)

/-! ### The chunked transfer -/

/-- R212 to R217, R219, R133: one TRANSFER_DATA dispatch. It emits the start command exactly when `cursor` is 0, one data
phase with full blocks and at most one shorter last block, the bytes in ascending order from `cursor`. It takes one clock
sample after each full block and no other, and stops at the first that exceeds the budget: it ends at the buffer's end,
with POWER_ON and `cursor` 0, exactly when none of them does; otherwise after the full block whose sample is the first to
exceed it, with `cursor` kept and `state`, `deadline` and `wait_idle` untouched. The samples to come as a list, standing
still at its end, are the model's form of the clock (log 2); their record is its trace (log 17). R287 item 4, R289: with a
transport that completes only `n` operations more, the dispatch issues the same operations, is held open at the first
that is not completed, and leaves `cursor` after the bytes sent (that input's form and the held step: log 5, log 6). -/
def Obligations.TransferCallSendsBlocksInOrder : Prop :=
  (∀ s : State, s.hang = none → s.transportLeft = none → s.cfg.stagingSize ≠ 0 → s.cursor.toNat ≤ s.bufferLen →
    ∃ (t : State) (blocks : List (List Byte)) (stop : Nat),
      exec .stateTransferData s = .next t ∧
      t.ops = s.ops ++ (if s.cursor = 0 then [.command s.cfg.transferStartCmd []] else []) ++
        .dataBegin :: blocks.map .data ++ [.dataEnd] ∧
      s.cursor.toNat ≤ stop ∧ stop ≤ s.bufferLen ∧
      blocks.flatten = bufferBytes s s.cursor.toNat stop ∧
      (∀ b ∈ blocks.dropLast, b.length = s.stagingSize) ∧
      (∀ b ∈ blocks, 1 ≤ b.length ∧ b.length ≤ s.stagingSize) ∧
      clockSamples t = clockSamples s ++ (List.range (fullBlocks s blocks)).map (sampleAt s) ∧
      ((stop = s.bufferLen ∧ t.cursor = 0 ∧ t.state = 6 ∧ t.deadline = 0 ∧ t.waitIdle = true ∧
          ∀ j < fullBlocks s blocks, exceeded s.t0 (sampleAt s j) s.cfg.transferBudgetMs = false) ∨
        (min (s.cursor.toNat + s.stagingSize) s.bufferLen ≤ stop ∧ blocks ≠ [] ∧
          (∀ b ∈ blocks, b.length = s.stagingSize) ∧
          (∀ j < blocks.length - 1, exceeded s.t0 (sampleAt s j) s.cfg.transferBudgetMs = false) ∧
          exceeded s.t0 (sampleAt s (blocks.length - 1)) s.cfg.transferBudgetMs = true ∧
          t.cursor.toNat = stop ∧ t.state = s.state ∧ t.deadline = s.deadline ∧ t.waitIdle = s.waitIdle)) ∧
      ((∀ v ∈ s.nowMs :: s.nowScript, exceeded s.t0 v s.cfg.transferBudgetMs = false) → t.state = 6) ∧
      t = { s with
        cursor := t.cursor, state := t.state, deadline := t.deadline, waitIdle := t.waitIdle, stage := [],
        nowMs := t.nowMs, nowScript := t.nowScript, trace := t.trace }) ∧
  (∀ (s : State) (n : Nat), s.hang = none → s.transportLeft = some n → s.cursor.toNat ≤ s.bufferLen →
    ∃ (t u : State) (ops : List TransportOp),
      exec .stateTransferData { s with transportLeft := none } = .next u ∧ u.ops = s.ops ++ ops ∧
      exec .stateTransferData s = .next t ∧ StopsAfter n ops s u t ∧
      (n < ops.length → s.cursor.toNat ≤ t.cursor.toNat ∧ t.cursor.toNat ≤ s.bufferLen ∧
        dataBytes (ops.take (n + 1)) = bufferBytes s s.cursor.toNat t.cursor.toNat))

/-- R218: the call that finds `cursor = N` sends zero bytes, resets `cursor` and is done. -/
def Obligations.TransferCallAtTheEndSendsNothing : Prop :=
  ∀ s : State, s.hang = none → s.transportLeft = none → s.cursor.toNat = s.bufferLen → s.cursor ≠ 0 →
    exec .stateTransferData s = .next { s with
      cursor := 0, state := 6, deadline := 0, waitIdle := true, stage := [],
      trace := s.trace ++ [.emit .dataBegin, .emit .dataEnd] }

/-- R217, R220, R213: whatever the clock does, the transfer of a cycle is done after at most floor(N/S) + 1 calls, and the
data bytes of all its calls are FB[0], …, FB[N-1], each once, in ascending order, after one start command. -/
def Obligations.TransferSendsTheBufferExactlyOnce : Prop :=
  ∀ (s : State) (calls : List (Word × List Word)),
    s.hang = none → s.transportLeft = none → s.cfg.stagingSize ≠ 0 → s.bufferLen ≠ 0 → s.cursor = 0 →
    ∃ (finished : Bool) (t : State), transferCalls calls s = .next (finished, t) ∧
      (s.bufferLen / s.stagingSize + 1 ≤ calls.length → finished = true) ∧
      (finished = true →
        t.cursor = 0 ∧ t.hang = none ∧ (∀ k, fbRead t k = fbRead s k) ∧
        ∃ sent, t.ops = s.ops ++ .command s.cfg.transferStartCmd [] :: sent ∧
          dataBytes sent = bufferBytes s 0 s.bufferLen ∧
          (∀ op ∈ sent, ∀ c p, op ≠ .command c p))

/-! ### The quantizer and the pixel packer -/

/-- R240, R244: the quantizer's code is always one of the palette's six, and the source's four examples hold for every
legal choice of the thresholds. -/
def Obligations.QuantizerKeepsToThePalette : Prop :=
  ∀ (c : PanelConfig) (r g b : Byte),
    quantize c r g b ∈ paletteCodes c ∧
    (c.grayT ≠ 0 → c.lumaMid.toNat ≤ 764 → quantize c 255 255 255 = c.codeWhite) ∧
    (c.grayT ≠ 0 → quantize c 0 0 0 = c.codeBlack) ∧
    (c.onT ≠ 255 → quantize c 255 255 0 = c.codeYellow ∧ quantize c 255 0 0 = c.codeRed)

/-- R242, R243: the quantizer's two branches, with their boundaries, and its eight corners, for every configuration. Less
than GRAY_T between the largest and the smallest channel is gray, and a gray is WHITE above LUMA_MID and BLACK at it or
below; GRAY_T or more is a color, and each channel counts as on only above ON_T. -/
def Obligations.QuantizerBranchesAndCorners : Prop :=
  ∀ (c : PanelConfig) (r g b : Byte),
    (max r.toNat (max g.toNat b.toNat) < min r.toNat (min g.toNat b.toNat) + c.grayT.toNat →
      (c.lumaMid.toNat < r.toNat + g.toNat + b.toNat → quantize c r g b = c.codeWhite) ∧
      (r.toNat + g.toNat + b.toNat ≤ c.lumaMid.toNat → quantize c r g b = c.codeBlack)) ∧
    (min r.toNat (min g.toNat b.toNat) + c.grayT.toNat ≤ max r.toNat (max g.toNat b.toNat) →
      (r ≤ c.onT → g ≤ c.onT → b ≤ c.onT → quantize c r g b = c.codeBlack) ∧
      (r ≤ c.onT → g ≤ c.onT → c.onT < b → quantize c r g b = c.codeBlue) ∧
      (r ≤ c.onT → c.onT < g → b ≤ c.onT → quantize c r g b = c.codeGreen) ∧
      (r ≤ c.onT → c.onT < g → c.onT < b → quantize c r g b = c.codeGreen) ∧
      (c.onT < r → g ≤ c.onT → b ≤ c.onT → quantize c r g b = c.codeRed) ∧
      (c.onT < r → g ≤ c.onT → c.onT < b → quantize c r g b = c.codeRed) ∧
      (c.onT < r → c.onT < g → b ≤ c.onT → quantize c r g b = c.codeYellow) ∧
      (c.onT < r → c.onT < g → c.onT < b → quantize c r g b = c.codeWhite))

/-- R250, R67: a pixel write out of bounds changes nothing; in bounds it replaces the nibble of its pixel (high for an even
linear index) by the zero-extended code, keeps the other nibble, and keeps every other byte. Its read and its write of the
byte stand in the trace (log 17). -/
def Obligations.PixelWriteReplacesOneNibble : Prop :=
  ∀ (s : State) (x y : Word) (r g b : Byte),
    configProblem s.cfg = none → s.fbWf = true → s.cfg.quantPresent = true →
    (¬ (0 ≤ x.toInt ∧ x.toInt < s.cfg.width.toNat ∧ 0 ≤ y.toInt ∧ y.toInt < s.cfg.height.toNat) →
      producerWrite (.pixel x y r g b) s = .next s) ∧
    (0 ≤ x.toInt → x.toInt < s.cfg.width.toNat → 0 ≤ y.toInt → y.toInt < s.cfg.height.toNat →
      ∃ t, producerWrite (.pixel x y r g b) s = .next t ∧
        (∀ k, k ≠ (y.toNat * s.cfg.width.toNat + x.toNat) / 2 → fbRead t k = fbRead s k) ∧
        ∃ old new : Byte,
          t = { s with
            fb := t.fb
            trace := s.trace ++ [.fbRead ((y.toNat * s.cfg.width.toNat + x.toNat) / 2) old,
              .fbWrite ((y.toNat * s.cfg.width.toNat + x.toNat) / 2) new] } ∧
          fbRead s ((y.toNat * s.cfg.width.toNat + x.toNat) / 2) = some old ∧
          fbRead t ((y.toNat * s.cfg.width.toNat + x.toNat) / 2) = some new ∧
          ((y.toNat * s.cfg.width.toNat + x.toNat) % 2 = 0 →
            new.extractLsb' 4 4 = (quantize s.cfg r g b).setWidth 4 ∧ new.extractLsb' 0 4 = old.extractLsb' 0 4) ∧
          ((y.toNat * s.cfg.width.toNat + x.toNat) % 2 = 1 →
            new.extractLsb' 0 4 = (quantize s.cfg r g b).setWidth 4 ∧ new.extractLsb' 4 4 = old.extractLsb' 4 4))

/-! ### Views -/

/-- R33: the STATUS view's fields, its reserved bits, and the three further views. -/
def Obligations.StatusViewLayout : Prop :=
  ∀ s : State,
    (statusView s).extractLsb' 0 4 = s.state ∧
    (statusView s).getLsbD 4 = s.waitIdle ∧
    (statusView s).getLsbD 5 = decide (s.deadline ≠ 0) ∧
    (statusView s).getLsbD 6 = s.expectLow ∧
    (statusView s).getLsbD 7 = s.active ∧
    (statusView s).getLsbD 8 = s.failed ∧
    (statusView s).extractLsb' 9 3 = s.faultCode ∧
    (statusView s).getLsbD 12 = s.rstQ ∧
    (statusView s).extractLsb' 13 19 = 0 ∧
    (resetCountView s).toNat = s.resetCount.toNat ∧ cursorView s = s.cursor ∧
    (faultIndexView s).toNat = s.faultIndex.toNat

/-! ### Hardware reset -/

/-- R300, R302, R303, R31, R305: what hardware reset leaves, for every legal record and both allocation outcomes: the
registers, the stored record, the filled buffer, nothing emitted and nothing sampled (`hang`, the trace: log 6, 17). The
requests to come stay; the outside agents go on as the reset input says (log 29). -/
def Obligations.HardwareResetLeavesTheResetState : Prop :=
  ∀ (r : ResetInput) (s : State), configProblem r.config = none →
    ∃ t, hardwareReset r s = .next t ∧
      t.state = 0 ∧ t.deadline = 0 ∧ t.waitIdle = false ∧ t.active = false ∧ t.failed = !r.allocOk ∧
      t.faultCode = (if r.allocOk then 0 else 3) ∧ t.faultIndex = 0 ∧ t.expectLow = true ∧ t.resetCount = 0 ∧
      t.cursor = 0 ∧ t.rstQ = true ∧ t.hang = none ∧
      t.cfg = { r.config with resetCycles := if r.config.resetCycles = 0 then 1 else r.config.resetCycles } ∧
      (r.allocOk = true → ∀ k, k < r.config.bufferLength.toNat →
        fbRead t k = some (if r.config.quantPresent then r.config.codeWhite.setWidth 8 * 17 else r.config.fillByte)) ∧
      t.ops = s.ops ∧
      t.trace = s.trace ++
        .hardwareReset :: (if r.allocOk then
          [.fill (if r.config.quantPresent then r.config.codeWhite.setWidth 8 * 17 else r.config.fillByte)] else []) ∧
      t.requests = s.requests ∧ t.resetIn = s.resetIn ∧
      ({ nowMs := t.nowMs, nowScript := t.nowScript, busyIn := t.busyIn, busyScript := t.busyScript,
         producer := t.producer, transportLeft := t.transportLeft } : Agents) = r.agents

/-- R31: a configured reset-cycle count of 0 is stored as 1, every other value unchanged, and nothing else of the record
is altered. -/
def Obligations.ConfiguredZeroCyclesStoredAsOne : Prop :=
  ∀ c : PanelConfig,
    (c.resetCycles = 0 → storedConfig c = { c with resetCycles := 1 }) ∧
    (c.resetCycles ≠ 0 → storedConfig c = c)

/-- R9, R301, R93, R241: records that hardware reset refuses. A delay or budget of 2^31 ms or more, a reserved
DISPLAY_TYPE, a BUFFER_LENGTH or STAGING_SIZE of 0, equal palette codes, a LUMA_MID above 765 and an ill-formed PHASE_OPS
list are each refused. That a list which leaves its data phase open, or holds an operation of an illegal size, counts as
ill formed is the model's reading (log 14); that a value outside the legal values of R30 is refused at load, LUMA_MID's
among them, is another (log 13). -/
def Obligations.IllegalConfigurationRefused : Prop :=
  ∀ (r : ResetInput) (s : State),
    (2 ^ 31 ≤ r.config.resetDurationMs.toNat ∨ 2 ^ 31 ≤ r.config.transferBudgetMs.toNat ∨
      (∃ p, 2 ^ 31 ≤ (r.config.phaseDelayMs.get p).toNat) ∨ r.config.displayType ≠ 0 ∨
      r.config.bufferLength = 0 ∨ r.config.stagingSize = 0 ∨ ¬ (paletteCodes r.config).Nodup ∨
      765 < r.config.lumaMid.toNat ∨
      (∃ p, opsWf r.config.stagingSize.toNat (r.config.phaseOps.get p) = false)) →
    ∃ problem, hardwareReset r s = .refused (.illegalConfig problem)

/-- R305, R278: a hardware reset at a step that is held open abandons it; the operations already emitted stay emitted, and
the block is ready again. That it can come there, before any request, is the model's form of the input (log 7). -/
def Obligations.HardwareResetEndsAHeldStep : Prop :=
  ∀ (s : State) (r : ResetInput) (rest : List (Option ResetInput)),
    s.hang ≠ none → s.resetIn = some r :: rest → configProblem r.config = none →
    ∃ t, step s = .next t ∧ t.hang = none ∧ reqReady t = true ∧ t.ops = s.ops ∧ t.state = 0 ∧ t.active = false ∧
      t.requests = s.requests

/-- R305: a hardware reset that comes before the step's request, or meets a step held open, is taken, and the request
presented with it is not; so is one at a step at which no request is presented. The moment it comes at is part of the
reset input, which is the model's form (log 7). -/
def Obligations.HardwareResetComesBeforeTheRequest : Prop :=
  ∀ (s : State) (r : ResetInput) (rest : List (Option ResetInput)), s.resetIn = some r :: rest →
    (r.cut = none ∨ s.hang ≠ none → step s = hardwareReset r { s with resetIn := rest }) ∧
    (s.hang = none → r.cut ≠ none → (s.requests = [] ∨ ∃ later, s.requests = 0 :: later) →
      step s = hardwareReset r { s with resetIn := rest, requests := s.requests.tail })

/-- R305: a hardware reset inside a step cuts it. Where the reset comes after the first n actions of a request's handling,
those and no others are done outside the block: the operations among them stay emitted. The block is then as hardware
reset leaves it, and the request is gone. That the moment is counted in recorded actions is the model's form (log 7,
log 17); so is that it may fall between the two accesses of one WritePixel, which R75 leaves open (log 7). -/
def Obligations.HardwareResetInsideAStepCutsIt : Prop :=
  ∀ (s t : State) (r : ResetInput) (rest : List (Option ResetInput)) (n : Nat) (code : BitVec 2)
    (later : List (BitVec 2)) (i : Instr),
    s.resetIn = some r :: rest → r.cut = some n → s.hang = none → s.requests = code :: later →
    decode (.request code) = .ok i → exec i { s with resetIn := rest, requests := later } = .next t →
    configProblem r.config = none →
    ∃ (events : List Event) (u : State), t.trace = s.trace ++ events ∧ step s = .next u ∧
      u.trace = s.trace ++ events.take n ++ .hardwareReset :: fillEvents r ∧
      u.ops = s.ops ++ (events.take n).filterMap Event.op? ∧
      u.requests = later ∧ u.resetIn = rest ∧
      (∃ v, hardwareReset r s = .next v ∧
        u = { v with requests := later, resetIn := rest, trace := u.trace })

/-! ### Whole-machine rules -/

/-- The invariant holds at `State.reset`, whose configuration record is the model's choice (log 11). -/
def Obligations.ResetStateMeetsTheInvariant : Prop := BlockInv State.reset

/-- R48, R93, R165, R163, R23, R273: every step that answers a next state keeps the invariant, from every state that meets
it, whatever the inputs. -/
def Obligations.EveryStepKeepsTheInvariant : Prop :=
  ∀ s t : State, BlockInv s → step s = .next t → BlockInv t

/-- The model never stops: from every state of the invariant, with inputs the spec gives a meaning, a step answers a next
state. A step that never responds (R287 items 3 to 5) counts as one that answers: the model ends it as a next state with
`hang` set, and so does every later step until hardware reset, which is the model's choice (log 6). -/
def Obligations.EveryStepWithLegalInputsGoesOn : Prop :=
  ∀ s : State, BlockInv s → StepInputsLegal s → ∃ t, step s = .next t

/-- R274, R278, R27: a failed block stays failed. Without hardware reset no step does anything outward, and every register
keeps its value. -/
def Obligations.FailureIsPermanent : Prop :=
  ∀ s t : State, s.failed = true → NoReset s → step s = .next t →
    t.failed = true ∧ SameRegisters s t ∧ t.ops = s.ops ∧
    ∃ events, t.trace = s.trace ++ events ∧ events.all (fun e => !eventOutward e) = true

/-- R30, R32, R76: no instruction writes the configuration record or the init-sequence ROM in it. -/
def Obligations.NoInstructionWritesTheConfiguration : Prop :=
  ∀ (i : Instr) (s t : State), exec i s = .next t → t.cfg = s.cfg

/-- R62, R65, R221, R328: no instruction but UPDATE, and the ADVANCE that dispatches it, changes a byte of the frame
buffer. -/
def Obligations.OnlyUpdateWritesTheFrameBuffer : Prop :=
  ∀ (i : Instr) (s t : State), i ≠ .stateUpdate → (i = .advance → s.state ≠ 3) → exec i s = .next t →
    ∀ k, fbRead t k = fbRead s k

/-- R106: no instruction but BEGIN_CYCLE, ADVANCE and the dispatches that transition writes `deadline`; the bytecode
entries, IDLE and the unknown states leave it, and so they leave `state` and `wait_idle`. -/
def Obligations.EntriesAndHaltsKeepControlState : Prop :=
  ∀ (i : Instr) (s t : State),
    (∃ e, i = Instr.ofEntry e) ∨ i = .stateIdle ∨ i = .stateUnknown11 ∨ (∃ low, i = .stateUnknownHigh low) →
    exec i s = .next t →
    t.deadline = s.deadline ∧ t.state = s.state ∧ t.waitIdle = s.waitIdle ∧ t.expectLow = s.expectLow ∧
    t.resetCount = s.resetCount ∧ t.cursor = s.cursor ∧ t.rstQ = s.rstQ ∧ t.stage = s.stage ∧ t.cfg = s.cfg ∧
    ∀ k, fbRead t k = fbRead s k

/-- R72, R69: the trace only grows: what has been done outside the block is never undone, by any step. What the trace
records is the model's choice (log 17). -/
def Obligations.TraceOnlyGrows : Prop :=
  ∀ s t : State, step s = .next t → ∃ events, t.trace = s.trace ++ events

/-- R143, R320: a whole cycle. From IDLE, without reset and busy lines, with delays of 0 and a clock that stands still, a
BEGIN_CYCLE and ten ADVANCE requests run one complete update cycle (the clock's form: log 2): the init commands, the
frame buffer's bytes, the phases' operations in order, and back to an inactive IDLE. -/
def Obligations.CycleCompletesInTenAdvances : Prop :=
  ∀ (s : State) (prog : List Asm) (later : List (BitVec 2)),
    BlockInv s → s.hang = none → s.state = 0 → s.failed = false → s.resetIn = [] → s.nowScript = [] →
    s.transportLeft = none → s.cfg.resetPresent = false → s.cfg.busyPresent = false →
    (∀ p, s.cfg.phaseDelayMs.get p = 0) →
    assembleAll prog = some s.cfg.initSeq → prog.all (fun a => !asmWaits a) = true →
    s.nextRun.writes.all (writeLegal s.cfg) = true → s.nextRun.done = true →
    s.requests = 1 :: (List.replicate 10 2 ++ later) →
    ∃ (t : State) (sent : List TransportOp), core.run 11 s = .next t ∧
      t.state = 0 ∧ t.active = false ∧ t.failed = false ∧ t.cursor = 0 ∧ t.response = some .processed ∧
      t.requests = later ∧
      t.ops = s.ops ++ commandsOf prog ++ .command s.cfg.transferStartCmd [] :: sent ++
        s.cfg.phaseOps.powerOn ++ s.cfg.phaseOps.postPowerOn ++ s.cfg.phaseOps.refreshScreen ++
        s.cfg.phaseOps.powerOff ++ s.cfg.phaseOps.deepSleep ∧
      dataBytes sent = bufferBytes t 0 t.bufferLen ∧
      (∀ op ∈ sent, ∀ c p, op ≠ .command c p)

/-- R287 item 4, R289, for INITIALISE: with a transport that completes only `n` operations more, the interpreter issues the
same operations in the same order and is held open at the first that is not completed, before the transition and with
nothing of the block's registers moved; with enough left it goes on as otherwise. The form of a transport that stops and
of a step held open is the model's choice (log 5, log 6). -/
def Obligations.InitialiseHeldOpenByTheTransport : Prop :=
  ∀ (s : State) (n : Nat), s.hang = none → s.transportLeft = some n →
    ∃ (t u : State) (ops : List TransportOp),
      exec .stateInitialise { s with transportLeft := none } = .next u ∧ u.ops = s.ops ++ ops ∧
      exec .stateInitialise s = .next t ∧ StopsAfter n ops s u t ∧
      (n < ops.length → SameRegisters s t)
end

