-- ==== Sys2Proof/Laws/State.lean ====
section
/-! SUPPORT. One lemma per field per update: what each named update of the state leaves in every field. Where an update
is a plain record update the lemma is true by rfl. -/

namespace Sys2Proof.Machine

@[simp] theorem record_state (e : Event) (s : State) : (record e s).state = s.state := rfl
@[simp] theorem record_deadline (e : Event) (s : State) : (record e s).deadline = s.deadline := rfl
@[simp] theorem record_waitIdle (e : Event) (s : State) : (record e s).waitIdle = s.waitIdle := rfl
@[simp] theorem record_active (e : Event) (s : State) : (record e s).active = s.active := rfl
@[simp] theorem record_failed (e : Event) (s : State) : (record e s).failed = s.failed := rfl
@[simp] theorem record_faultCode (e : Event) (s : State) : (record e s).faultCode = s.faultCode := rfl
@[simp] theorem record_faultIndex (e : Event) (s : State) : (record e s).faultIndex = s.faultIndex := rfl
@[simp] theorem record_expectLow (e : Event) (s : State) : (record e s).expectLow = s.expectLow := rfl
@[simp] theorem record_resetCount (e : Event) (s : State) : (record e s).resetCount = s.resetCount := rfl
@[simp] theorem record_cursor (e : Event) (s : State) : (record e s).cursor = s.cursor := rfl
@[simp] theorem record_rstQ (e : Event) (s : State) : (record e s).rstQ = s.rstQ := rfl
@[simp] theorem record_t0 (e : Event) (s : State) : (record e s).t0 = s.t0 := rfl
@[simp] theorem record_idx (e : Event) (s : State) : (record e s).idx = s.idx := rfl
@[simp] theorem record_sleepStart (e : Event) (s : State) : (record e s).sleepStart = s.sleepStart := rfl
@[simp] theorem record_cfg (e : Event) (s : State) : (record e s).cfg = s.cfg := rfl
@[simp] theorem record_fb (e : Event) (s : State) : (record e s).fb = s.fb := rfl
@[simp] theorem record_fbAllocated (e : Event) (s : State) : (record e s).fbAllocated = s.fbAllocated := rfl
@[simp] theorem record_stage (e : Event) (s : State) : (record e s).stage = s.stage := rfl
@[simp] theorem record_requests (e : Event) (s : State) : (record e s).requests = s.requests := rfl
@[simp] theorem record_response (e : Event) (s : State) : (record e s).response = s.response := rfl
@[simp] theorem record_hang (e : Event) (s : State) : (record e s).hang = s.hang := rfl
@[simp] theorem record_nowMs (e : Event) (s : State) : (record e s).nowMs = s.nowMs := rfl
@[simp] theorem record_nowScript (e : Event) (s : State) : (record e s).nowScript = s.nowScript := rfl
@[simp] theorem record_busyIn (e : Event) (s : State) : (record e s).busyIn = s.busyIn := rfl
@[simp] theorem record_busyScript (e : Event) (s : State) : (record e s).busyScript = s.busyScript := rfl
@[simp] theorem record_producer (e : Event) (s : State) : (record e s).producer = s.producer := rfl
@[simp] theorem record_transportLeft (e : Event) (s : State) : (record e s).transportLeft = s.transportLeft := rfl
@[simp] theorem record_resetIn (e : Event) (s : State) : (record e s).resetIn = s.resetIn := rfl
@[simp] theorem record_trace (e : Event) (s : State) : (record e s).trace = s.trace ++ [e] := rfl

@[simp] theorem recordAll_state (es : List Event) (s : State) : (recordAll es s).state = s.state := rfl
@[simp] theorem recordAll_deadline (es : List Event) (s : State) : (recordAll es s).deadline = s.deadline := rfl
@[simp] theorem recordAll_waitIdle (es : List Event) (s : State) : (recordAll es s).waitIdle = s.waitIdle := rfl
@[simp] theorem recordAll_active (es : List Event) (s : State) : (recordAll es s).active = s.active := rfl
@[simp] theorem recordAll_failed (es : List Event) (s : State) : (recordAll es s).failed = s.failed := rfl
@[simp] theorem recordAll_faultCode (es : List Event) (s : State) : (recordAll es s).faultCode = s.faultCode := rfl
@[simp] theorem recordAll_faultIndex (es : List Event) (s : State) : (recordAll es s).faultIndex = s.faultIndex := rfl
@[simp] theorem recordAll_expectLow (es : List Event) (s : State) : (recordAll es s).expectLow = s.expectLow := rfl
@[simp] theorem recordAll_resetCount (es : List Event) (s : State) : (recordAll es s).resetCount = s.resetCount := rfl
@[simp] theorem recordAll_cursor (es : List Event) (s : State) : (recordAll es s).cursor = s.cursor := rfl
@[simp] theorem recordAll_rstQ (es : List Event) (s : State) : (recordAll es s).rstQ = s.rstQ := rfl
@[simp] theorem recordAll_t0 (es : List Event) (s : State) : (recordAll es s).t0 = s.t0 := rfl
@[simp] theorem recordAll_idx (es : List Event) (s : State) : (recordAll es s).idx = s.idx := rfl
@[simp] theorem recordAll_sleepStart (es : List Event) (s : State) : (recordAll es s).sleepStart = s.sleepStart := rfl
@[simp] theorem recordAll_cfg (es : List Event) (s : State) : (recordAll es s).cfg = s.cfg := rfl
@[simp] theorem recordAll_fb (es : List Event) (s : State) : (recordAll es s).fb = s.fb := rfl
@[simp] theorem recordAll_fbAllocated (es : List Event) (s : State) : (recordAll es s).fbAllocated = s.fbAllocated := rfl
@[simp] theorem recordAll_stage (es : List Event) (s : State) : (recordAll es s).stage = s.stage := rfl
@[simp] theorem recordAll_requests (es : List Event) (s : State) : (recordAll es s).requests = s.requests := rfl
@[simp] theorem recordAll_response (es : List Event) (s : State) : (recordAll es s).response = s.response := rfl
@[simp] theorem recordAll_hang (es : List Event) (s : State) : (recordAll es s).hang = s.hang := rfl
@[simp] theorem recordAll_nowMs (es : List Event) (s : State) : (recordAll es s).nowMs = s.nowMs := rfl
@[simp] theorem recordAll_nowScript (es : List Event) (s : State) : (recordAll es s).nowScript = s.nowScript := rfl
@[simp] theorem recordAll_busyIn (es : List Event) (s : State) : (recordAll es s).busyIn = s.busyIn := rfl
@[simp] theorem recordAll_busyScript (es : List Event) (s : State) : (recordAll es s).busyScript = s.busyScript := rfl
@[simp] theorem recordAll_producer (es : List Event) (s : State) : (recordAll es s).producer = s.producer := rfl
@[simp] theorem recordAll_transportLeft (es : List Event) (s : State) : (recordAll es s).transportLeft = s.transportLeft := rfl
@[simp] theorem recordAll_resetIn (es : List Event) (s : State) : (recordAll es s).resetIn = s.resetIn := rfl
@[simp] theorem recordAll_trace (es : List Event) (s : State) : (recordAll es s).trace = s.trace ++ es := rfl

@[simp] theorem stageByte_state (v : Byte) (s : State) : (stageByte v s).state = s.state := rfl
@[simp] theorem stageByte_deadline (v : Byte) (s : State) : (stageByte v s).deadline = s.deadline := rfl
@[simp] theorem stageByte_waitIdle (v : Byte) (s : State) : (stageByte v s).waitIdle = s.waitIdle := rfl
@[simp] theorem stageByte_active (v : Byte) (s : State) : (stageByte v s).active = s.active := rfl
@[simp] theorem stageByte_failed (v : Byte) (s : State) : (stageByte v s).failed = s.failed := rfl
@[simp] theorem stageByte_faultCode (v : Byte) (s : State) : (stageByte v s).faultCode = s.faultCode := rfl
@[simp] theorem stageByte_faultIndex (v : Byte) (s : State) : (stageByte v s).faultIndex = s.faultIndex := rfl
@[simp] theorem stageByte_expectLow (v : Byte) (s : State) : (stageByte v s).expectLow = s.expectLow := rfl
@[simp] theorem stageByte_resetCount (v : Byte) (s : State) : (stageByte v s).resetCount = s.resetCount := rfl
@[simp] theorem stageByte_cursor (v : Byte) (s : State) : (stageByte v s).cursor = s.cursor + 1 := rfl
@[simp] theorem stageByte_rstQ (v : Byte) (s : State) : (stageByte v s).rstQ = s.rstQ := rfl
@[simp] theorem stageByte_t0 (v : Byte) (s : State) : (stageByte v s).t0 = s.t0 := rfl
@[simp] theorem stageByte_idx (v : Byte) (s : State) : (stageByte v s).idx = s.idx := rfl
@[simp] theorem stageByte_sleepStart (v : Byte) (s : State) : (stageByte v s).sleepStart = s.sleepStart := rfl
@[simp] theorem stageByte_cfg (v : Byte) (s : State) : (stageByte v s).cfg = s.cfg := rfl
@[simp] theorem stageByte_fb (v : Byte) (s : State) : (stageByte v s).fb = s.fb := rfl
@[simp] theorem stageByte_fbAllocated (v : Byte) (s : State) : (stageByte v s).fbAllocated = s.fbAllocated := rfl
@[simp] theorem stageByte_stage (v : Byte) (s : State) : (stageByte v s).stage = s.stage ++ [v] := rfl
@[simp] theorem stageByte_requests (v : Byte) (s : State) : (stageByte v s).requests = s.requests := rfl
@[simp] theorem stageByte_response (v : Byte) (s : State) : (stageByte v s).response = s.response := rfl
@[simp] theorem stageByte_hang (v : Byte) (s : State) : (stageByte v s).hang = s.hang := rfl
@[simp] theorem stageByte_nowMs (v : Byte) (s : State) : (stageByte v s).nowMs = s.nowMs := rfl
@[simp] theorem stageByte_nowScript (v : Byte) (s : State) : (stageByte v s).nowScript = s.nowScript := rfl
@[simp] theorem stageByte_busyIn (v : Byte) (s : State) : (stageByte v s).busyIn = s.busyIn := rfl
@[simp] theorem stageByte_busyScript (v : Byte) (s : State) : (stageByte v s).busyScript = s.busyScript := rfl
@[simp] theorem stageByte_producer (v : Byte) (s : State) : (stageByte v s).producer = s.producer := rfl
@[simp] theorem stageByte_transportLeft (v : Byte) (s : State) : (stageByte v s).transportLeft = s.transportLeft := rfl
@[simp] theorem stageByte_resetIn (v : Byte) (s : State) : (stageByte v s).resetIn = s.resetIn := rfl
@[simp] theorem stageByte_trace (v : Byte) (s : State) : (stageByte v s).trace = s.trace ++ [.fbRead s.cursor.toNat v, .stageWrite s.stage.length v] := rfl

@[simp] theorem respond_state (r : Response) (s : State) : (respond r s).state = s.state := rfl
@[simp] theorem respond_deadline (r : Response) (s : State) : (respond r s).deadline = s.deadline := rfl
@[simp] theorem respond_waitIdle (r : Response) (s : State) : (respond r s).waitIdle = s.waitIdle := rfl
@[simp] theorem respond_active (r : Response) (s : State) : (respond r s).active = s.active := rfl
@[simp] theorem respond_failed (r : Response) (s : State) : (respond r s).failed = s.failed := rfl
@[simp] theorem respond_faultCode (r : Response) (s : State) : (respond r s).faultCode = s.faultCode := rfl
@[simp] theorem respond_faultIndex (r : Response) (s : State) : (respond r s).faultIndex = s.faultIndex := rfl
@[simp] theorem respond_expectLow (r : Response) (s : State) : (respond r s).expectLow = s.expectLow := rfl
@[simp] theorem respond_resetCount (r : Response) (s : State) : (respond r s).resetCount = s.resetCount := rfl
@[simp] theorem respond_cursor (r : Response) (s : State) : (respond r s).cursor = s.cursor := rfl
@[simp] theorem respond_rstQ (r : Response) (s : State) : (respond r s).rstQ = s.rstQ := rfl
@[simp] theorem respond_t0 (r : Response) (s : State) : (respond r s).t0 = s.t0 := rfl
@[simp] theorem respond_idx (r : Response) (s : State) : (respond r s).idx = s.idx := rfl
@[simp] theorem respond_sleepStart (r : Response) (s : State) : (respond r s).sleepStart = s.sleepStart := rfl
@[simp] theorem respond_cfg (r : Response) (s : State) : (respond r s).cfg = s.cfg := rfl
@[simp] theorem respond_fb (r : Response) (s : State) : (respond r s).fb = s.fb := rfl
@[simp] theorem respond_fbAllocated (r : Response) (s : State) : (respond r s).fbAllocated = s.fbAllocated := rfl
@[simp] theorem respond_stage (r : Response) (s : State) : (respond r s).stage = s.stage := rfl
@[simp] theorem respond_requests (r : Response) (s : State) : (respond r s).requests = s.requests := rfl
@[simp] theorem respond_response (r : Response) (s : State) : (respond r s).response = some r := rfl
@[simp] theorem respond_hang (r : Response) (s : State) : (respond r s).hang = s.hang := rfl
@[simp] theorem respond_nowMs (r : Response) (s : State) : (respond r s).nowMs = s.nowMs := rfl
@[simp] theorem respond_nowScript (r : Response) (s : State) : (respond r s).nowScript = s.nowScript := rfl
@[simp] theorem respond_busyIn (r : Response) (s : State) : (respond r s).busyIn = s.busyIn := rfl
@[simp] theorem respond_busyScript (r : Response) (s : State) : (respond r s).busyScript = s.busyScript := rfl
@[simp] theorem respond_producer (r : Response) (s : State) : (respond r s).producer = s.producer := rfl
@[simp] theorem respond_transportLeft (r : Response) (s : State) : (respond r s).transportLeft = s.transportLeft := rfl
@[simp] theorem respond_resetIn (r : Response) (s : State) : (respond r s).resetIn = s.resetIn := rfl
@[simp] theorem respond_trace (r : Response) (s : State) : (respond r s).trace = s.trace ++ [.respond r] := rfl

@[simp] theorem setResetLine_state (l : Bool) (s : State) : (setResetLine l s).state = s.state := rfl
@[simp] theorem setResetLine_deadline (l : Bool) (s : State) : (setResetLine l s).deadline = s.deadline := rfl
@[simp] theorem setResetLine_waitIdle (l : Bool) (s : State) : (setResetLine l s).waitIdle = s.waitIdle := rfl
@[simp] theorem setResetLine_active (l : Bool) (s : State) : (setResetLine l s).active = s.active := rfl
@[simp] theorem setResetLine_failed (l : Bool) (s : State) : (setResetLine l s).failed = s.failed := rfl
@[simp] theorem setResetLine_faultCode (l : Bool) (s : State) : (setResetLine l s).faultCode = s.faultCode := rfl
@[simp] theorem setResetLine_faultIndex (l : Bool) (s : State) : (setResetLine l s).faultIndex = s.faultIndex := rfl
@[simp] theorem setResetLine_expectLow (l : Bool) (s : State) : (setResetLine l s).expectLow = s.expectLow := rfl
@[simp] theorem setResetLine_resetCount (l : Bool) (s : State) : (setResetLine l s).resetCount = s.resetCount := rfl
@[simp] theorem setResetLine_cursor (l : Bool) (s : State) : (setResetLine l s).cursor = s.cursor := rfl
@[simp] theorem setResetLine_rstQ (l : Bool) (s : State) : (setResetLine l s).rstQ = l := rfl
@[simp] theorem setResetLine_t0 (l : Bool) (s : State) : (setResetLine l s).t0 = s.t0 := rfl
@[simp] theorem setResetLine_idx (l : Bool) (s : State) : (setResetLine l s).idx = s.idx := rfl
@[simp] theorem setResetLine_sleepStart (l : Bool) (s : State) : (setResetLine l s).sleepStart = s.sleepStart := rfl
@[simp] theorem setResetLine_cfg (l : Bool) (s : State) : (setResetLine l s).cfg = s.cfg := rfl
@[simp] theorem setResetLine_fb (l : Bool) (s : State) : (setResetLine l s).fb = s.fb := rfl
@[simp] theorem setResetLine_fbAllocated (l : Bool) (s : State) : (setResetLine l s).fbAllocated = s.fbAllocated := rfl
@[simp] theorem setResetLine_stage (l : Bool) (s : State) : (setResetLine l s).stage = s.stage := rfl
@[simp] theorem setResetLine_requests (l : Bool) (s : State) : (setResetLine l s).requests = s.requests := rfl
@[simp] theorem setResetLine_response (l : Bool) (s : State) : (setResetLine l s).response = s.response := rfl
@[simp] theorem setResetLine_hang (l : Bool) (s : State) : (setResetLine l s).hang = s.hang := rfl
@[simp] theorem setResetLine_nowMs (l : Bool) (s : State) : (setResetLine l s).nowMs = s.nowMs := rfl
@[simp] theorem setResetLine_nowScript (l : Bool) (s : State) : (setResetLine l s).nowScript = s.nowScript := rfl
@[simp] theorem setResetLine_busyIn (l : Bool) (s : State) : (setResetLine l s).busyIn = s.busyIn := rfl
@[simp] theorem setResetLine_busyScript (l : Bool) (s : State) : (setResetLine l s).busyScript = s.busyScript := rfl
@[simp] theorem setResetLine_producer (l : Bool) (s : State) : (setResetLine l s).producer = s.producer := rfl
@[simp] theorem setResetLine_transportLeft (l : Bool) (s : State) : (setResetLine l s).transportLeft = s.transportLeft := rfl
@[simp] theorem setResetLine_resetIn (l : Bool) (s : State) : (setResetLine l s).resetIn = s.resetIn := rfl
@[simp] theorem setResetLine_trace (l : Bool) (s : State) : (setResetLine l s).trace = s.trace ++ [.resetLine l] := rfl

@[simp] theorem raiseFault_state (c : FaultCause) (n : BitVec 16) (s : State) : (raiseFault c n s).state = s.state := rfl
@[simp] theorem raiseFault_deadline (c : FaultCause) (n : BitVec 16) (s : State) : (raiseFault c n s).deadline = s.deadline := rfl
@[simp] theorem raiseFault_waitIdle (c : FaultCause) (n : BitVec 16) (s : State) : (raiseFault c n s).waitIdle = s.waitIdle := rfl
@[simp] theorem raiseFault_active (c : FaultCause) (n : BitVec 16) (s : State) : (raiseFault c n s).active = false := rfl
@[simp] theorem raiseFault_failed (c : FaultCause) (n : BitVec 16) (s : State) : (raiseFault c n s).failed = true := rfl
@[simp] theorem raiseFault_faultCode (c : FaultCause) (n : BitVec 16) (s : State) : (raiseFault c n s).faultCode = c.code := rfl
@[simp] theorem raiseFault_faultIndex (c : FaultCause) (n : BitVec 16) (s : State) : (raiseFault c n s).faultIndex = n := rfl
@[simp] theorem raiseFault_expectLow (c : FaultCause) (n : BitVec 16) (s : State) : (raiseFault c n s).expectLow = s.expectLow := rfl
@[simp] theorem raiseFault_resetCount (c : FaultCause) (n : BitVec 16) (s : State) : (raiseFault c n s).resetCount = s.resetCount := rfl
@[simp] theorem raiseFault_cursor (c : FaultCause) (n : BitVec 16) (s : State) : (raiseFault c n s).cursor = s.cursor := rfl
@[simp] theorem raiseFault_rstQ (c : FaultCause) (n : BitVec 16) (s : State) : (raiseFault c n s).rstQ = s.rstQ := rfl
@[simp] theorem raiseFault_t0 (c : FaultCause) (n : BitVec 16) (s : State) : (raiseFault c n s).t0 = s.t0 := rfl
@[simp] theorem raiseFault_idx (c : FaultCause) (n : BitVec 16) (s : State) : (raiseFault c n s).idx = s.idx := rfl
@[simp] theorem raiseFault_sleepStart (c : FaultCause) (n : BitVec 16) (s : State) : (raiseFault c n s).sleepStart = s.sleepStart := rfl
@[simp] theorem raiseFault_cfg (c : FaultCause) (n : BitVec 16) (s : State) : (raiseFault c n s).cfg = s.cfg := rfl
@[simp] theorem raiseFault_fb (c : FaultCause) (n : BitVec 16) (s : State) : (raiseFault c n s).fb = s.fb := rfl
@[simp] theorem raiseFault_fbAllocated (c : FaultCause) (n : BitVec 16) (s : State) : (raiseFault c n s).fbAllocated = s.fbAllocated := rfl
@[simp] theorem raiseFault_stage (c : FaultCause) (n : BitVec 16) (s : State) : (raiseFault c n s).stage = s.stage := rfl
@[simp] theorem raiseFault_requests (c : FaultCause) (n : BitVec 16) (s : State) : (raiseFault c n s).requests = s.requests := rfl
@[simp] theorem raiseFault_response (c : FaultCause) (n : BitVec 16) (s : State) : (raiseFault c n s).response = some .faulted := rfl
@[simp] theorem raiseFault_hang (c : FaultCause) (n : BitVec 16) (s : State) : (raiseFault c n s).hang = s.hang := rfl
@[simp] theorem raiseFault_nowMs (c : FaultCause) (n : BitVec 16) (s : State) : (raiseFault c n s).nowMs = s.nowMs := rfl
@[simp] theorem raiseFault_nowScript (c : FaultCause) (n : BitVec 16) (s : State) : (raiseFault c n s).nowScript = s.nowScript := rfl
@[simp] theorem raiseFault_busyIn (c : FaultCause) (n : BitVec 16) (s : State) : (raiseFault c n s).busyIn = s.busyIn := rfl
@[simp] theorem raiseFault_busyScript (c : FaultCause) (n : BitVec 16) (s : State) : (raiseFault c n s).busyScript = s.busyScript := rfl
@[simp] theorem raiseFault_producer (c : FaultCause) (n : BitVec 16) (s : State) : (raiseFault c n s).producer = s.producer := rfl
@[simp] theorem raiseFault_transportLeft (c : FaultCause) (n : BitVec 16) (s : State) : (raiseFault c n s).transportLeft = s.transportLeft := rfl
@[simp] theorem raiseFault_resetIn (c : FaultCause) (n : BitVec 16) (s : State) : (raiseFault c n s).resetIn = s.resetIn := rfl
@[simp] theorem raiseFault_trace (c : FaultCause) (n : BitVec 16) (s : State) : (raiseFault c n s).trace = s.trace ++ [.respond .faulted] := rfl

@[simp] theorem unknownHalt_state (s : State) : (unknownHalt s).state = s.state := rfl
@[simp] theorem unknownHalt_deadline (s : State) : (unknownHalt s).deadline = s.deadline := rfl
@[simp] theorem unknownHalt_waitIdle (s : State) : (unknownHalt s).waitIdle = s.waitIdle := rfl
@[simp] theorem unknownHalt_active (s : State) : (unknownHalt s).active = false := rfl
@[simp] theorem unknownHalt_failed (s : State) : (unknownHalt s).failed = s.failed := rfl
@[simp] theorem unknownHalt_faultCode (s : State) : (unknownHalt s).faultCode = 4 := rfl
@[simp] theorem unknownHalt_faultIndex (s : State) : (unknownHalt s).faultIndex = s.faultIndex := rfl
@[simp] theorem unknownHalt_expectLow (s : State) : (unknownHalt s).expectLow = s.expectLow := rfl
@[simp] theorem unknownHalt_resetCount (s : State) : (unknownHalt s).resetCount = s.resetCount := rfl
@[simp] theorem unknownHalt_cursor (s : State) : (unknownHalt s).cursor = s.cursor := rfl
@[simp] theorem unknownHalt_rstQ (s : State) : (unknownHalt s).rstQ = s.rstQ := rfl
@[simp] theorem unknownHalt_t0 (s : State) : (unknownHalt s).t0 = s.t0 := rfl
@[simp] theorem unknownHalt_idx (s : State) : (unknownHalt s).idx = s.idx := rfl
@[simp] theorem unknownHalt_sleepStart (s : State) : (unknownHalt s).sleepStart = s.sleepStart := rfl
@[simp] theorem unknownHalt_cfg (s : State) : (unknownHalt s).cfg = s.cfg := rfl
@[simp] theorem unknownHalt_fb (s : State) : (unknownHalt s).fb = s.fb := rfl
@[simp] theorem unknownHalt_fbAllocated (s : State) : (unknownHalt s).fbAllocated = s.fbAllocated := rfl
@[simp] theorem unknownHalt_stage (s : State) : (unknownHalt s).stage = s.stage := rfl
@[simp] theorem unknownHalt_requests (s : State) : (unknownHalt s).requests = s.requests := rfl
@[simp] theorem unknownHalt_response (s : State) : (unknownHalt s).response = some .halted := rfl
@[simp] theorem unknownHalt_hang (s : State) : (unknownHalt s).hang = s.hang := rfl
@[simp] theorem unknownHalt_nowMs (s : State) : (unknownHalt s).nowMs = s.nowMs := rfl
@[simp] theorem unknownHalt_nowScript (s : State) : (unknownHalt s).nowScript = s.nowScript := rfl
@[simp] theorem unknownHalt_busyIn (s : State) : (unknownHalt s).busyIn = s.busyIn := rfl
@[simp] theorem unknownHalt_busyScript (s : State) : (unknownHalt s).busyScript = s.busyScript := rfl
@[simp] theorem unknownHalt_producer (s : State) : (unknownHalt s).producer = s.producer := rfl
@[simp] theorem unknownHalt_transportLeft (s : State) : (unknownHalt s).transportLeft = s.transportLeft := rfl
@[simp] theorem unknownHalt_resetIn (s : State) : (unknownHalt s).resetIn = s.resetIn := rfl
@[simp] theorem unknownHalt_trace (s : State) : (unknownHalt s).trace = s.trace ++ [.respond .halted] := rfl

@[simp] theorem startCycle_state (s : State) : (startCycle s).state = StateCode.reset.code := rfl
@[simp] theorem startCycle_deadline (s : State) : (startCycle s).deadline = 0 := rfl
@[simp] theorem startCycle_waitIdle (s : State) : (startCycle s).waitIdle = false := rfl
@[simp] theorem startCycle_active (s : State) : (startCycle s).active = true := rfl
@[simp] theorem startCycle_failed (s : State) : (startCycle s).failed = s.failed := rfl
@[simp] theorem startCycle_faultCode (s : State) : (startCycle s).faultCode = s.faultCode := rfl
@[simp] theorem startCycle_faultIndex (s : State) : (startCycle s).faultIndex = s.faultIndex := rfl
@[simp] theorem startCycle_expectLow (s : State) : (startCycle s).expectLow = true := rfl
@[simp] theorem startCycle_resetCount (s : State) : (startCycle s).resetCount = 0 := rfl
@[simp] theorem startCycle_cursor (s : State) : (startCycle s).cursor = s.cursor := rfl
@[simp] theorem startCycle_rstQ (s : State) : (startCycle s).rstQ = s.rstQ := rfl
@[simp] theorem startCycle_t0 (s : State) : (startCycle s).t0 = s.t0 := rfl
@[simp] theorem startCycle_idx (s : State) : (startCycle s).idx = s.idx := rfl
@[simp] theorem startCycle_sleepStart (s : State) : (startCycle s).sleepStart = s.sleepStart := rfl
@[simp] theorem startCycle_cfg (s : State) : (startCycle s).cfg = s.cfg := rfl
@[simp] theorem startCycle_fb (s : State) : (startCycle s).fb = s.fb := rfl
@[simp] theorem startCycle_fbAllocated (s : State) : (startCycle s).fbAllocated = s.fbAllocated := rfl
@[simp] theorem startCycle_stage (s : State) : (startCycle s).stage = s.stage := rfl
@[simp] theorem startCycle_requests (s : State) : (startCycle s).requests = s.requests := rfl
@[simp] theorem startCycle_response (s : State) : (startCycle s).response = s.response := rfl
@[simp] theorem startCycle_hang (s : State) : (startCycle s).hang = s.hang := rfl
@[simp] theorem startCycle_nowMs (s : State) : (startCycle s).nowMs = s.nowMs := rfl
@[simp] theorem startCycle_nowScript (s : State) : (startCycle s).nowScript = s.nowScript := rfl
@[simp] theorem startCycle_busyIn (s : State) : (startCycle s).busyIn = s.busyIn := rfl
@[simp] theorem startCycle_busyScript (s : State) : (startCycle s).busyScript = s.busyScript := rfl
@[simp] theorem startCycle_producer (s : State) : (startCycle s).producer = s.producer := rfl
@[simp] theorem startCycle_transportLeft (s : State) : (startCycle s).transportLeft = s.transportLeft := rfl
@[simp] theorem startCycle_resetIn (s : State) : (startCycle s).resetIn = s.resetIn := rfl
@[simp] theorem startCycle_trace (s : State) : (startCycle s).trace = s.trace := rfl

@[simp] theorem now_state (s : State) : ((now s).2).state = s.state := by
  unfold now
  split <;> rfl
@[simp] theorem now_deadline (s : State) : ((now s).2).deadline = s.deadline := by
  unfold now
  split <;> rfl
@[simp] theorem now_waitIdle (s : State) : ((now s).2).waitIdle = s.waitIdle := by
  unfold now
  split <;> rfl
@[simp] theorem now_active (s : State) : ((now s).2).active = s.active := by
  unfold now
  split <;> rfl
@[simp] theorem now_failed (s : State) : ((now s).2).failed = s.failed := by
  unfold now
  split <;> rfl
@[simp] theorem now_faultCode (s : State) : ((now s).2).faultCode = s.faultCode := by
  unfold now
  split <;> rfl
@[simp] theorem now_faultIndex (s : State) : ((now s).2).faultIndex = s.faultIndex := by
  unfold now
  split <;> rfl
@[simp] theorem now_expectLow (s : State) : ((now s).2).expectLow = s.expectLow := by
  unfold now
  split <;> rfl
@[simp] theorem now_resetCount (s : State) : ((now s).2).resetCount = s.resetCount := by
  unfold now
  split <;> rfl
@[simp] theorem now_cursor (s : State) : ((now s).2).cursor = s.cursor := by
  unfold now
  split <;> rfl
@[simp] theorem now_rstQ (s : State) : ((now s).2).rstQ = s.rstQ := by
  unfold now
  split <;> rfl
@[simp] theorem now_t0 (s : State) : ((now s).2).t0 = s.t0 := by
  unfold now
  split <;> rfl
@[simp] theorem now_idx (s : State) : ((now s).2).idx = s.idx := by
  unfold now
  split <;> rfl
@[simp] theorem now_sleepStart (s : State) : ((now s).2).sleepStart = s.sleepStart := by
  unfold now
  split <;> rfl
@[simp] theorem now_cfg (s : State) : ((now s).2).cfg = s.cfg := by
  unfold now
  split <;> rfl
@[simp] theorem now_fb (s : State) : ((now s).2).fb = s.fb := by
  unfold now
  split <;> rfl
@[simp] theorem now_fbAllocated (s : State) : ((now s).2).fbAllocated = s.fbAllocated := by
  unfold now
  split <;> rfl
@[simp] theorem now_stage (s : State) : ((now s).2).stage = s.stage := by
  unfold now
  split <;> rfl
@[simp] theorem now_requests (s : State) : ((now s).2).requests = s.requests := by
  unfold now
  split <;> rfl
@[simp] theorem now_response (s : State) : ((now s).2).response = s.response := by
  unfold now
  split <;> rfl
@[simp] theorem now_hang (s : State) : ((now s).2).hang = s.hang := by
  unfold now
  split <;> rfl
@[simp] theorem now_busyIn (s : State) : ((now s).2).busyIn = s.busyIn := by
  unfold now
  split <;> rfl
@[simp] theorem now_busyScript (s : State) : ((now s).2).busyScript = s.busyScript := by
  unfold now
  split <;> rfl
@[simp] theorem now_producer (s : State) : ((now s).2).producer = s.producer := by
  unfold now
  split <;> rfl
@[simp] theorem now_transportLeft (s : State) : ((now s).2).transportLeft = s.transportLeft := by
  unfold now
  split <;> rfl
@[simp] theorem now_resetIn (s : State) : ((now s).2).resetIn = s.resetIn := by
  unfold now
  split <;> rfl
@[simp] theorem now_trace (s : State) : ((now s).2).trace = s.trace ++ [.clock (now s).1] := by
  unfold now
  split <;> rfl

@[simp] theorem busyAsserted_state (s : State) : ((busyAsserted s).2).state = s.state := by
  unfold busyAsserted
  split
  · split <;> rfl
  · rfl
@[simp] theorem busyAsserted_deadline (s : State) : ((busyAsserted s).2).deadline = s.deadline := by
  unfold busyAsserted
  split
  · split <;> rfl
  · rfl
@[simp] theorem busyAsserted_waitIdle (s : State) : ((busyAsserted s).2).waitIdle = s.waitIdle := by
  unfold busyAsserted
  split
  · split <;> rfl
  · rfl
@[simp] theorem busyAsserted_active (s : State) : ((busyAsserted s).2).active = s.active := by
  unfold busyAsserted
  split
  · split <;> rfl
  · rfl
@[simp] theorem busyAsserted_failed (s : State) : ((busyAsserted s).2).failed = s.failed := by
  unfold busyAsserted
  split
  · split <;> rfl
  · rfl
@[simp] theorem busyAsserted_faultCode (s : State) : ((busyAsserted s).2).faultCode = s.faultCode := by
  unfold busyAsserted
  split
  · split <;> rfl
  · rfl
@[simp] theorem busyAsserted_faultIndex (s : State) : ((busyAsserted s).2).faultIndex = s.faultIndex := by
  unfold busyAsserted
  split
  · split <;> rfl
  · rfl
@[simp] theorem busyAsserted_expectLow (s : State) : ((busyAsserted s).2).expectLow = s.expectLow := by
  unfold busyAsserted
  split
  · split <;> rfl
  · rfl
@[simp] theorem busyAsserted_resetCount (s : State) : ((busyAsserted s).2).resetCount = s.resetCount := by
  unfold busyAsserted
  split
  · split <;> rfl
  · rfl
@[simp] theorem busyAsserted_cursor (s : State) : ((busyAsserted s).2).cursor = s.cursor := by
  unfold busyAsserted
  split
  · split <;> rfl
  · rfl
@[simp] theorem busyAsserted_rstQ (s : State) : ((busyAsserted s).2).rstQ = s.rstQ := by
  unfold busyAsserted
  split
  · split <;> rfl
  · rfl
@[simp] theorem busyAsserted_t0 (s : State) : ((busyAsserted s).2).t0 = s.t0 := by
  unfold busyAsserted
  split
  · split <;> rfl
  · rfl
@[simp] theorem busyAsserted_idx (s : State) : ((busyAsserted s).2).idx = s.idx := by
  unfold busyAsserted
  split
  · split <;> rfl
  · rfl
@[simp] theorem busyAsserted_sleepStart (s : State) : ((busyAsserted s).2).sleepStart = s.sleepStart := by
  unfold busyAsserted
  split
  · split <;> rfl
  · rfl
@[simp] theorem busyAsserted_cfg (s : State) : ((busyAsserted s).2).cfg = s.cfg := by
  unfold busyAsserted
  split
  · split <;> rfl
  · rfl
@[simp] theorem busyAsserted_fb (s : State) : ((busyAsserted s).2).fb = s.fb := by
  unfold busyAsserted
  split
  · split <;> rfl
  · rfl
@[simp] theorem busyAsserted_fbAllocated (s : State) : ((busyAsserted s).2).fbAllocated = s.fbAllocated := by
  unfold busyAsserted
  split
  · split <;> rfl
  · rfl
@[simp] theorem busyAsserted_stage (s : State) : ((busyAsserted s).2).stage = s.stage := by
  unfold busyAsserted
  split
  · split <;> rfl
  · rfl
@[simp] theorem busyAsserted_requests (s : State) : ((busyAsserted s).2).requests = s.requests := by
  unfold busyAsserted
  split
  · split <;> rfl
  · rfl
@[simp] theorem busyAsserted_response (s : State) : ((busyAsserted s).2).response = s.response := by
  unfold busyAsserted
  split
  · split <;> rfl
  · rfl
@[simp] theorem busyAsserted_hang (s : State) : ((busyAsserted s).2).hang = s.hang := by
  unfold busyAsserted
  split
  · split <;> rfl
  · rfl
@[simp] theorem busyAsserted_nowMs (s : State) : ((busyAsserted s).2).nowMs = s.nowMs := by
  unfold busyAsserted
  split
  · split <;> rfl
  · rfl
@[simp] theorem busyAsserted_nowScript (s : State) : ((busyAsserted s).2).nowScript = s.nowScript := by
  unfold busyAsserted
  split
  · split <;> rfl
  · rfl
@[simp] theorem busyAsserted_producer (s : State) : ((busyAsserted s).2).producer = s.producer := by
  unfold busyAsserted
  split
  · split <;> rfl
  · rfl
@[simp] theorem busyAsserted_transportLeft (s : State) : ((busyAsserted s).2).transportLeft = s.transportLeft := by
  unfold busyAsserted
  split
  · split <;> rfl
  · rfl
@[simp] theorem busyAsserted_resetIn (s : State) : ((busyAsserted s).2).resetIn = s.resetIn := by
  unfold busyAsserted
  split
  · split <;> rfl
  · rfl

@[simp] theorem emit_state (op : TransportOp) (s : State) : (emit op s).state = s.state := by
  unfold emit
  split
  · rfl
  · split <;> rfl
@[simp] theorem emit_deadline (op : TransportOp) (s : State) : (emit op s).deadline = s.deadline := by
  unfold emit
  split
  · rfl
  · split <;> rfl
@[simp] theorem emit_waitIdle (op : TransportOp) (s : State) : (emit op s).waitIdle = s.waitIdle := by
  unfold emit
  split
  · rfl
  · split <;> rfl
@[simp] theorem emit_active (op : TransportOp) (s : State) : (emit op s).active = s.active := by
  unfold emit
  split
  · rfl
  · split <;> rfl
@[simp] theorem emit_failed (op : TransportOp) (s : State) : (emit op s).failed = s.failed := by
  unfold emit
  split
  · rfl
  · split <;> rfl
@[simp] theorem emit_faultCode (op : TransportOp) (s : State) : (emit op s).faultCode = s.faultCode := by
  unfold emit
  split
  · rfl
  · split <;> rfl
@[simp] theorem emit_faultIndex (op : TransportOp) (s : State) : (emit op s).faultIndex = s.faultIndex := by
  unfold emit
  split
  · rfl
  · split <;> rfl
@[simp] theorem emit_expectLow (op : TransportOp) (s : State) : (emit op s).expectLow = s.expectLow := by
  unfold emit
  split
  · rfl
  · split <;> rfl
@[simp] theorem emit_resetCount (op : TransportOp) (s : State) : (emit op s).resetCount = s.resetCount := by
  unfold emit
  split
  · rfl
  · split <;> rfl
@[simp] theorem emit_cursor (op : TransportOp) (s : State) : (emit op s).cursor = s.cursor := by
  unfold emit
  split
  · rfl
  · split <;> rfl
@[simp] theorem emit_rstQ (op : TransportOp) (s : State) : (emit op s).rstQ = s.rstQ := by
  unfold emit
  split
  · rfl
  · split <;> rfl
@[simp] theorem emit_t0 (op : TransportOp) (s : State) : (emit op s).t0 = s.t0 := by
  unfold emit
  split
  · rfl
  · split <;> rfl
@[simp] theorem emit_idx (op : TransportOp) (s : State) : (emit op s).idx = s.idx := by
  unfold emit
  split
  · rfl
  · split <;> rfl
@[simp] theorem emit_sleepStart (op : TransportOp) (s : State) : (emit op s).sleepStart = s.sleepStart := by
  unfold emit
  split
  · rfl
  · split <;> rfl
@[simp] theorem emit_cfg (op : TransportOp) (s : State) : (emit op s).cfg = s.cfg := by
  unfold emit
  split
  · rfl
  · split <;> rfl
@[simp] theorem emit_fb (op : TransportOp) (s : State) : (emit op s).fb = s.fb := by
  unfold emit
  split
  · rfl
  · split <;> rfl
@[simp] theorem emit_fbAllocated (op : TransportOp) (s : State) : (emit op s).fbAllocated = s.fbAllocated := by
  unfold emit
  split
  · rfl
  · split <;> rfl
@[simp] theorem emit_stage (op : TransportOp) (s : State) : (emit op s).stage = s.stage := by
  unfold emit
  split
  · rfl
  · split <;> rfl
@[simp] theorem emit_requests (op : TransportOp) (s : State) : (emit op s).requests = s.requests := by
  unfold emit
  split
  · rfl
  · split <;> rfl
@[simp] theorem emit_response (op : TransportOp) (s : State) : (emit op s).response = s.response := by
  unfold emit
  split
  · rfl
  · split <;> rfl
@[simp] theorem emit_nowMs (op : TransportOp) (s : State) : (emit op s).nowMs = s.nowMs := by
  unfold emit
  split
  · rfl
  · split <;> rfl
@[simp] theorem emit_nowScript (op : TransportOp) (s : State) : (emit op s).nowScript = s.nowScript := by
  unfold emit
  split
  · rfl
  · split <;> rfl
@[simp] theorem emit_busyIn (op : TransportOp) (s : State) : (emit op s).busyIn = s.busyIn := by
  unfold emit
  split
  · rfl
  · split <;> rfl
@[simp] theorem emit_busyScript (op : TransportOp) (s : State) : (emit op s).busyScript = s.busyScript := by
  unfold emit
  split
  · rfl
  · split <;> rfl
@[simp] theorem emit_producer (op : TransportOp) (s : State) : (emit op s).producer = s.producer := by
  unfold emit
  split
  · rfl
  · split <;> rfl
@[simp] theorem emit_resetIn (op : TransportOp) (s : State) : (emit op s).resetIn = s.resetIn := by
  unfold emit
  split
  · rfl
  · split <;> rfl

@[simp] theorem emitAll_state (ops : List TransportOp) (s : State) : (emitAll ops s).state = s.state := by
  induction ops generalizing s with
  | nil => rfl
  | cons op rest ih => exact (ih (emit op s)).trans (emit_state op s)
@[simp] theorem emitAll_deadline (ops : List TransportOp) (s : State) : (emitAll ops s).deadline = s.deadline := by
  induction ops generalizing s with
  | nil => rfl
  | cons op rest ih => exact (ih (emit op s)).trans (emit_deadline op s)
@[simp] theorem emitAll_waitIdle (ops : List TransportOp) (s : State) : (emitAll ops s).waitIdle = s.waitIdle := by
  induction ops generalizing s with
  | nil => rfl
  | cons op rest ih => exact (ih (emit op s)).trans (emit_waitIdle op s)
@[simp] theorem emitAll_active (ops : List TransportOp) (s : State) : (emitAll ops s).active = s.active := by
  induction ops generalizing s with
  | nil => rfl
  | cons op rest ih => exact (ih (emit op s)).trans (emit_active op s)
@[simp] theorem emitAll_failed (ops : List TransportOp) (s : State) : (emitAll ops s).failed = s.failed := by
  induction ops generalizing s with
  | nil => rfl
  | cons op rest ih => exact (ih (emit op s)).trans (emit_failed op s)
@[simp] theorem emitAll_faultCode (ops : List TransportOp) (s : State) : (emitAll ops s).faultCode = s.faultCode := by
  induction ops generalizing s with
  | nil => rfl
  | cons op rest ih => exact (ih (emit op s)).trans (emit_faultCode op s)
@[simp] theorem emitAll_faultIndex (ops : List TransportOp) (s : State) : (emitAll ops s).faultIndex = s.faultIndex := by
  induction ops generalizing s with
  | nil => rfl
  | cons op rest ih => exact (ih (emit op s)).trans (emit_faultIndex op s)
@[simp] theorem emitAll_expectLow (ops : List TransportOp) (s : State) : (emitAll ops s).expectLow = s.expectLow := by
  induction ops generalizing s with
  | nil => rfl
  | cons op rest ih => exact (ih (emit op s)).trans (emit_expectLow op s)
@[simp] theorem emitAll_resetCount (ops : List TransportOp) (s : State) : (emitAll ops s).resetCount = s.resetCount := by
  induction ops generalizing s with
  | nil => rfl
  | cons op rest ih => exact (ih (emit op s)).trans (emit_resetCount op s)
@[simp] theorem emitAll_cursor (ops : List TransportOp) (s : State) : (emitAll ops s).cursor = s.cursor := by
  induction ops generalizing s with
  | nil => rfl
  | cons op rest ih => exact (ih (emit op s)).trans (emit_cursor op s)
@[simp] theorem emitAll_rstQ (ops : List TransportOp) (s : State) : (emitAll ops s).rstQ = s.rstQ := by
  induction ops generalizing s with
  | nil => rfl
  | cons op rest ih => exact (ih (emit op s)).trans (emit_rstQ op s)
@[simp] theorem emitAll_t0 (ops : List TransportOp) (s : State) : (emitAll ops s).t0 = s.t0 := by
  induction ops generalizing s with
  | nil => rfl
  | cons op rest ih => exact (ih (emit op s)).trans (emit_t0 op s)
@[simp] theorem emitAll_idx (ops : List TransportOp) (s : State) : (emitAll ops s).idx = s.idx := by
  induction ops generalizing s with
  | nil => rfl
  | cons op rest ih => exact (ih (emit op s)).trans (emit_idx op s)
@[simp] theorem emitAll_sleepStart (ops : List TransportOp) (s : State) : (emitAll ops s).sleepStart = s.sleepStart := by
  induction ops generalizing s with
  | nil => rfl
  | cons op rest ih => exact (ih (emit op s)).trans (emit_sleepStart op s)
@[simp] theorem emitAll_cfg (ops : List TransportOp) (s : State) : (emitAll ops s).cfg = s.cfg := by
  induction ops generalizing s with
  | nil => rfl
  | cons op rest ih => exact (ih (emit op s)).trans (emit_cfg op s)
@[simp] theorem emitAll_fb (ops : List TransportOp) (s : State) : (emitAll ops s).fb = s.fb := by
  induction ops generalizing s with
  | nil => rfl
  | cons op rest ih => exact (ih (emit op s)).trans (emit_fb op s)
@[simp] theorem emitAll_fbAllocated (ops : List TransportOp) (s : State) : (emitAll ops s).fbAllocated = s.fbAllocated := by
  induction ops generalizing s with
  | nil => rfl
  | cons op rest ih => exact (ih (emit op s)).trans (emit_fbAllocated op s)
@[simp] theorem emitAll_stage (ops : List TransportOp) (s : State) : (emitAll ops s).stage = s.stage := by
  induction ops generalizing s with
  | nil => rfl
  | cons op rest ih => exact (ih (emit op s)).trans (emit_stage op s)
@[simp] theorem emitAll_requests (ops : List TransportOp) (s : State) : (emitAll ops s).requests = s.requests := by
  induction ops generalizing s with
  | nil => rfl
  | cons op rest ih => exact (ih (emit op s)).trans (emit_requests op s)
@[simp] theorem emitAll_response (ops : List TransportOp) (s : State) : (emitAll ops s).response = s.response := by
  induction ops generalizing s with
  | nil => rfl
  | cons op rest ih => exact (ih (emit op s)).trans (emit_response op s)
@[simp] theorem emitAll_nowMs (ops : List TransportOp) (s : State) : (emitAll ops s).nowMs = s.nowMs := by
  induction ops generalizing s with
  | nil => rfl
  | cons op rest ih => exact (ih (emit op s)).trans (emit_nowMs op s)
@[simp] theorem emitAll_nowScript (ops : List TransportOp) (s : State) : (emitAll ops s).nowScript = s.nowScript := by
  induction ops generalizing s with
  | nil => rfl
  | cons op rest ih => exact (ih (emit op s)).trans (emit_nowScript op s)
@[simp] theorem emitAll_busyIn (ops : List TransportOp) (s : State) : (emitAll ops s).busyIn = s.busyIn := by
  induction ops generalizing s with
  | nil => rfl
  | cons op rest ih => exact (ih (emit op s)).trans (emit_busyIn op s)
@[simp] theorem emitAll_busyScript (ops : List TransportOp) (s : State) : (emitAll ops s).busyScript = s.busyScript := by
  induction ops generalizing s with
  | nil => rfl
  | cons op rest ih => exact (ih (emit op s)).trans (emit_busyScript op s)
@[simp] theorem emitAll_producer (ops : List TransportOp) (s : State) : (emitAll ops s).producer = s.producer := by
  induction ops generalizing s with
  | nil => rfl
  | cons op rest ih => exact (ih (emit op s)).trans (emit_producer op s)
@[simp] theorem emitAll_resetIn (ops : List TransportOp) (s : State) : (emitAll ops s).resetIn = s.resetIn := by
  induction ops generalizing s with
  | nil => rfl
  | cons op rest ih => exact (ih (emit op s)).trans (emit_resetIn op s)

@[simp] theorem arm_state (d : Word) (s : State) : (arm d s).state = s.state := by
  unfold arm
  split
  · rfl
  · simp
@[simp] theorem arm_waitIdle (d : Word) (s : State) : (arm d s).waitIdle = s.waitIdle := by
  unfold arm
  split
  · rfl
  · simp
@[simp] theorem arm_active (d : Word) (s : State) : (arm d s).active = s.active := by
  unfold arm
  split
  · rfl
  · simp
@[simp] theorem arm_failed (d : Word) (s : State) : (arm d s).failed = s.failed := by
  unfold arm
  split
  · rfl
  · simp
@[simp] theorem arm_faultCode (d : Word) (s : State) : (arm d s).faultCode = s.faultCode := by
  unfold arm
  split
  · rfl
  · simp
@[simp] theorem arm_faultIndex (d : Word) (s : State) : (arm d s).faultIndex = s.faultIndex := by
  unfold arm
  split
  · rfl
  · simp
@[simp] theorem arm_expectLow (d : Word) (s : State) : (arm d s).expectLow = s.expectLow := by
  unfold arm
  split
  · rfl
  · simp
@[simp] theorem arm_resetCount (d : Word) (s : State) : (arm d s).resetCount = s.resetCount := by
  unfold arm
  split
  · rfl
  · simp
@[simp] theorem arm_cursor (d : Word) (s : State) : (arm d s).cursor = s.cursor := by
  unfold arm
  split
  · rfl
  · simp
@[simp] theorem arm_rstQ (d : Word) (s : State) : (arm d s).rstQ = s.rstQ := by
  unfold arm
  split
  · rfl
  · simp
@[simp] theorem arm_t0 (d : Word) (s : State) : (arm d s).t0 = s.t0 := by
  unfold arm
  split
  · rfl
  · simp
@[simp] theorem arm_idx (d : Word) (s : State) : (arm d s).idx = s.idx := by
  unfold arm
  split
  · rfl
  · simp
@[simp] theorem arm_sleepStart (d : Word) (s : State) : (arm d s).sleepStart = s.sleepStart := by
  unfold arm
  split
  · rfl
  · simp
@[simp] theorem arm_cfg (d : Word) (s : State) : (arm d s).cfg = s.cfg := by
  unfold arm
  split
  · rfl
  · simp
@[simp] theorem arm_fb (d : Word) (s : State) : (arm d s).fb = s.fb := by
  unfold arm
  split
  · rfl
  · simp
@[simp] theorem arm_fbAllocated (d : Word) (s : State) : (arm d s).fbAllocated = s.fbAllocated := by
  unfold arm
  split
  · rfl
  · simp
@[simp] theorem arm_stage (d : Word) (s : State) : (arm d s).stage = s.stage := by
  unfold arm
  split
  · rfl
  · simp
@[simp] theorem arm_requests (d : Word) (s : State) : (arm d s).requests = s.requests := by
  unfold arm
  split
  · rfl
  · simp
@[simp] theorem arm_response (d : Word) (s : State) : (arm d s).response = s.response := by
  unfold arm
  split
  · rfl
  · simp
@[simp] theorem arm_hang (d : Word) (s : State) : (arm d s).hang = s.hang := by
  unfold arm
  split
  · rfl
  · simp
@[simp] theorem arm_busyIn (d : Word) (s : State) : (arm d s).busyIn = s.busyIn := by
  unfold arm
  split
  · rfl
  · simp
@[simp] theorem arm_busyScript (d : Word) (s : State) : (arm d s).busyScript = s.busyScript := by
  unfold arm
  split
  · rfl
  · simp
@[simp] theorem arm_producer (d : Word) (s : State) : (arm d s).producer = s.producer := by
  unfold arm
  split
  · rfl
  · simp
@[simp] theorem arm_transportLeft (d : Word) (s : State) : (arm d s).transportLeft = s.transportLeft := by
  unfold arm
  split
  · rfl
  · simp
@[simp] theorem arm_resetIn (d : Word) (s : State) : (arm d s).resetIn = s.resetIn := by
  unfold arm
  split
  · rfl
  · simp

@[simp] theorem transition_state (c : StateCode) (d : Word) (s : State) : (transition c d s).state = c.code := by simp [transition]
@[simp] theorem transition_waitIdle (c : StateCode) (d : Word) (s : State) : (transition c d s).waitIdle = c.wait := by simp [transition]
@[simp] theorem transition_active (c : StateCode) (d : Word) (s : State) : (transition c d s).active = s.active := by simp [transition]
@[simp] theorem transition_failed (c : StateCode) (d : Word) (s : State) : (transition c d s).failed = s.failed := by simp [transition]
@[simp] theorem transition_faultCode (c : StateCode) (d : Word) (s : State) : (transition c d s).faultCode = s.faultCode := by simp [transition]
@[simp] theorem transition_faultIndex (c : StateCode) (d : Word) (s : State) : (transition c d s).faultIndex = s.faultIndex := by simp [transition]
@[simp] theorem transition_expectLow (c : StateCode) (d : Word) (s : State) : (transition c d s).expectLow = s.expectLow := by simp [transition]
@[simp] theorem transition_resetCount (c : StateCode) (d : Word) (s : State) : (transition c d s).resetCount = s.resetCount := by simp [transition]
@[simp] theorem transition_cursor (c : StateCode) (d : Word) (s : State) : (transition c d s).cursor = s.cursor := by simp [transition]
@[simp] theorem transition_rstQ (c : StateCode) (d : Word) (s : State) : (transition c d s).rstQ = s.rstQ := by simp [transition]
@[simp] theorem transition_t0 (c : StateCode) (d : Word) (s : State) : (transition c d s).t0 = s.t0 := by simp [transition]
@[simp] theorem transition_idx (c : StateCode) (d : Word) (s : State) : (transition c d s).idx = s.idx := by simp [transition]
@[simp] theorem transition_sleepStart (c : StateCode) (d : Word) (s : State) : (transition c d s).sleepStart = s.sleepStart := by simp [transition]
@[simp] theorem transition_cfg (c : StateCode) (d : Word) (s : State) : (transition c d s).cfg = s.cfg := by simp [transition]
@[simp] theorem transition_fb (c : StateCode) (d : Word) (s : State) : (transition c d s).fb = s.fb := by simp [transition]
@[simp] theorem transition_fbAllocated (c : StateCode) (d : Word) (s : State) : (transition c d s).fbAllocated = s.fbAllocated := by simp [transition]
@[simp] theorem transition_stage (c : StateCode) (d : Word) (s : State) : (transition c d s).stage = s.stage := by simp [transition]
@[simp] theorem transition_requests (c : StateCode) (d : Word) (s : State) : (transition c d s).requests = s.requests := by simp [transition]
@[simp] theorem transition_response (c : StateCode) (d : Word) (s : State) : (transition c d s).response = s.response := by simp [transition]
@[simp] theorem transition_hang (c : StateCode) (d : Word) (s : State) : (transition c d s).hang = s.hang := by simp [transition]
@[simp] theorem transition_busyIn (c : StateCode) (d : Word) (s : State) : (transition c d s).busyIn = s.busyIn := by simp [transition]
@[simp] theorem transition_busyScript (c : StateCode) (d : Word) (s : State) : (transition c d s).busyScript = s.busyScript := by simp [transition]
@[simp] theorem transition_producer (c : StateCode) (d : Word) (s : State) : (transition c d s).producer = s.producer := by simp [transition]
@[simp] theorem transition_transportLeft (c : StateCode) (d : Word) (s : State) : (transition c d s).transportLeft = s.transportLeft := by simp [transition]
@[simp] theorem transition_resetIn (c : StateCode) (d : Word) (s : State) : (transition c d s).resetIn = s.resetIn := by simp [transition]

end Sys2Proof.Machine
end

