-- ==== Sys2Proof/Laws/Ops.lean ====
section
/-! SUPPORT. What each shared operation does, said once: sampling, emitting, sleeping, arming, the transition function;
and the algebra of operation sequences. -/

namespace Sys2Proof.Machine

/-! ### Sequencing -/

@[simp] theorem thenDo_next {α β : Type} (a : α) (f : α → Host.Outcome β Fault Refusal) :
    thenDo (.next a) f = f a := rfl

@[simp] theorem thenDo_refused {α β : Type} (r : Refusal) (f : α → Host.Outcome β Fault Refusal) :
    thenDo (.refused r) f = .refused r := rfl

/-- A sequence that answers a next state has answered one at each of its parts. -/
theorem thenDo_eq_next {α β : Type} {o : Host.Outcome α Fault Refusal} {f : α → Host.Outcome β Fault Refusal} {b : β}
    (h : thenDo o f = .next b) : ∃ a, o = .next a ∧ f a = .next b := by
  cases o with
  | next a => exact ⟨a, rfl, h⟩
  | fault r => exact r.casesOn
  | refused r => exact absurd h (by simp)

theorem andThen_of_running {s : State} (f : State → State) (h : s.hang = none) : s.andThen f = f s := by
  simp [State.andThen, h]

theorem andThen_of_held {s : State} (f : State → State) (h : s.hang ≠ none) : s.andThen f = s := by
  cases hh : s.hang with
  | none => exact absurd hh h
  | some x => simp [State.andThen, hh]

/-- The rest of a step runs, or the step is held open and nothing more happens. -/
theorem andThen_cases (s : State) (f : State → State) :
    (s.hang = none ∧ s.andThen f = f s) ∨ (s.hang ≠ none ∧ s.andThen f = s) := by
  by_cases h : s.hang = none
  · exact .inl ⟨h, andThen_of_running f h⟩
  · exact .inr ⟨h, andThen_of_held f h⟩

/-! ### Samples -/

/-- Now(), said once: the next value of the script, or the standing value; only the clock input and the trace move. -/
theorem now_cases (s : State) :
    (s.nowScript = [] ∧ now s = (s.nowMs, { s with trace := s.trace ++ [.clock s.nowMs] })) ∨
      (∃ v rest, s.nowScript = v :: rest ∧
        now s = (v, { s with nowMs := v, nowScript := rest, trace := s.trace ++ [.clock v] })) := by
  cases h : s.nowScript with
  | nil => exact .inl ⟨rfl, by simp [now, h, record]⟩
  | cons v rest => exact .inr ⟨v, rest, rfl, by simp [now, h, record]⟩

/-- A sample is the value that is on the clock input afterwards. -/
@[simp] theorem now_nowMs (s : State) : (now s).2.nowMs = (now s).1 := by
  unfold now
  split <;> rfl

@[simp] theorem now_nowScript (s : State) : (now s).2.nowScript = s.nowScript.tail := by
  unfold now
  split <;> simp_all [record]

/-- A sample is one of the values the clock has still to show, the present one included. -/
theorem now_mem (s : State) : (now s).1 ∈ s.nowMs :: s.nowScript := by
  rcases now_cases s with ⟨h, e⟩ | ⟨v, rest, h, e⟩ <;> simp [h, e]

/-- The state after a sample, as an update of the state before it. -/
theorem now_snd (s : State) :
    (now s).2 =
      { s with nowMs := (now s).1, nowScript := s.nowScript.tail, trace := s.trace ++ [.clock (now s).1] } := by
  obtain ⟨⟩ := s
  rename_i script _ _ _ _ _ _
  cases script <;> rfl

/-! ### Emitting -/

/-- Emit, said once: nothing in a held step; else the operation is in the trace, and the transport either completes it
or holds the step open. -/
theorem emit_cases (op : TransportOp) (s : State) :
    (s.hang ≠ none ∧ emit op s = s) ∨
      (s.hang = none ∧ s.transportLeft = none ∧ emit op s = { s with trace := s.trace ++ [.emit op] }) ∨
      (s.hang = none ∧ s.transportLeft = some 0 ∧
        emit op s = { s with hang := some .transport, trace := s.trace ++ [.emit op] }) ∨
      (∃ n, s.hang = none ∧ s.transportLeft = some (n + 1) ∧
        emit op s = { s with transportLeft := some n, trace := s.trace ++ [.emit op] }) := by
  cases hh : s.hang with
  | some x => exact .inl ⟨by simp, by simp [emit, hh]⟩
  | none =>
    cases ht : s.transportLeft with
    | none => exact .inr (.inl ⟨rfl, rfl, by simp [emit, hh, ht, record]⟩)
    | some n =>
      cases n with
      | zero => exact .inr (.inr (.inl ⟨rfl, rfl, by simp [emit, hh, ht, record]⟩))
      | succ n => exact .inr (.inr (.inr ⟨n, rfl, rfl, by simp [emit, hh, ht, record]⟩))

/-- Emit with a transport that completes every operation. -/
theorem emit_of_completing (op : TransportOp) {s : State} (h : s.hang = none) (ht : s.transportLeft = none) :
    emit op s = { s with trace := s.trace ++ [.emit op] } := by
  rcases emit_cases op s with ⟨h', _⟩ | ⟨_, _, e⟩ | ⟨_, h', _⟩ | ⟨n, _, h', _⟩
  · exact absurd h h'
  · exact e
  · simp [ht] at h'
  · simp [ht] at h'

theorem emit_of_held (op : TransportOp) {s : State} (h : s.hang ≠ none) : emit op s = s := by
  rcases emit_cases op s with ⟨_, e⟩ | ⟨h', _⟩ | ⟨h', _⟩ | ⟨n, h', _⟩
  · exact e
  all_goals exact absurd h' h

@[simp] theorem emitAll_nil (s : State) : emitAll [] s = s := rfl

@[simp] theorem emitAll_cons (op : TransportOp) (ops : List TransportOp) (s : State) :
    emitAll (op :: ops) s = emitAll ops (emit op s) := rfl

theorem emitAll_of_held (ops : List TransportOp) {s : State} (h : s.hang ≠ none) : emitAll ops s = s := by
  induction ops with
  | nil => rfl
  | cons op ops ih => rw [emitAll_cons, emit_of_held op h, ih]

/-! ### Sleeping -/

/-- What SleepMs may change: the clock input, `ts`, the trace by clock samples, and a step held open by a clock that has
stopped. -/
structure Slept (s t : State) : Prop where
  same : t = { s with
    sleepStart := t.sleepStart, nowMs := t.nowMs, nowScript := t.nowScript, trace := t.trace, hang := t.hang }
  samples : ∃ vs : List Word, t.trace = s.trace ++ vs.map .clock

theorem sleepLoop_spec (ts : Word) (t : Nat) (script : List Word) (s : State) :
    Slept s (sleepLoop ts t script s).2 ∧ (sleepLoop ts t script s).2.sleepStart = s.sleepStart ∧
      (((sleepLoop ts t script s).1 = true ∧ (sleepLoop ts t script s).2.hang = s.hang) ∨
        ((sleepLoop ts t script s).1 = false ∧ (sleepLoop ts t script s).2.hang = some .sleep)) := by
  induction script generalizing s with
  | nil =>
    simp only [sleepLoop]
    split
    · refine ⟨⟨?_, [(now s).1], by simp⟩, by simp, .inl ⟨rfl, by simp⟩⟩
      rw [now_snd]
    · refine ⟨⟨?_, [(now s).1], by simp⟩, by simp, .inr ⟨rfl, rfl⟩⟩
      rw [now_snd]
  | cons _ rest ih =>
    simp only [sleepLoop]
    split
    · refine ⟨⟨?_, [(now s).1], by simp⟩, by simp, .inl ⟨rfl, by simp⟩⟩
      rw [now_snd]
    · obtain ⟨⟨h1, vs, h2⟩, h3, h4⟩ := ih (now s).2
      refine ⟨⟨?_, (now s).1 :: vs, by simp [h2]⟩, by simpa using h3, by simpa using h4⟩
      rw [h1, now_snd]

/-- SleepMs, said once: it ends with the step as open as before, or holds it open. -/
theorem sleepMs_spec (t : Nat) (s : State) :
    Slept s (sleepMs t s).2 ∧
      (((sleepMs t s).1 = true ∧ (sleepMs t s).2.hang = s.hang) ∨
        ((sleepMs t s).1 = false ∧ (sleepMs t s).2.hang = some .sleep)) := by
  obtain ⟨⟨h1, vs, h2⟩, h3, h4⟩ :=
    sleepLoop_spec (now s).1 t (now s).2.nowScript { (now s).2 with sleepStart := (now s).1 }
  refine ⟨⟨?_, (now s).1 :: vs, ?_⟩, by simpa [sleepMs] using h4⟩
  · show (sleepMs t s).2 = _
    simp only [sleepMs]
    rw [h1, now_snd]
  · simp only [sleepMs]
    rw [h2]
    simp

/-! ### The deadline and the transition function -/

/-- DeadlineHolds, said once. -/
theorem deadlineHolds_cases (t0 : Word) (s : State) :
    (s.deadline = 0 ∧ deadlineHolds t0 s = (false, s)) ∨
      (s.deadline ≠ 0 ∧ reached t0 s.deadline = true ∧ deadlineHolds t0 s = (false, { s with deadline := 0 })) ∨
      (s.deadline ≠ 0 ∧ reached t0 s.deadline = false ∧ deadlineHolds t0 s = (true, s)) := by
  by_cases h : s.deadline = 0
  · exact .inl ⟨h, if_pos h⟩
  · cases hr : reached t0 s.deadline
    · exact .inr (.inr ⟨h, rfl, by rw [deadlineHolds, if_neg h, hr]; rfl⟩)
    · exact .inr (.inl ⟨h, rfl, by rw [deadlineHolds, if_neg h, if_pos hr]⟩)

@[simp] theorem arm_zero (s : State) : arm 0#32 s = { s with deadline := 0 } := rfl

theorem arm_of_ne {d : Word} (h : d ≠ 0) (s : State) :
    arm d s = { (now s).2 with deadline := (now s).1 + d } := by
  rw [arm, if_neg h]

/-- A transition without a delay. -/
@[simp] theorem transition_zero (c : StateCode) (s : State) :
    transition c 0#32 s = { s with state := c.code, deadline := 0, waitIdle := c.wait } := rfl

/-- A transition adds to the trace the clock sample of an armed delay, and nothing else. -/
theorem transition_trace (c : StateCode) (d : Word) (s : State) :
    ∃ vs : List Word, (transition c d s).trace = s.trace ++ vs.map .clock := by
  by_cases h : d = 0
  · exact ⟨[], by subst h; simp⟩
  · refine ⟨[(now { s with state := c.code }).1], ?_⟩
    simp [transition, arm_of_ne h]

/-- A BusyAsserted sample: what is sampled and what is left. -/
theorem busyAsserted_cases (s : State) :
    (s.cfg.busyPresent = false ∧ busyAsserted s = (false, s)) ∨
      (s.cfg.busyPresent = true ∧
        busyAsserted s =
          (s.busyScript.headD s.busyIn == s.cfg.busyActiveLevel,
            { s with
              busyIn := s.busyScript.headD s.busyIn, busyScript := s.busyScript.tail,
              trace := s.trace ++ [.busy (s.busyScript.headD s.busyIn)] })) := by
  cases hp : s.cfg.busyPresent with
  | false => exact .inl ⟨rfl, by simp [busyAsserted, hp]⟩
  | true =>
    refine .inr ⟨rfl, ?_⟩
    rw [busyAsserted, if_pos hp]
    cases hb : s.busyScript with
    | nil =>
      obtain ⟨⟩ := s
      cases hb
      rfl
    | cons v rest => rfl

/-! ### Memory accesses in the trace -/

/-- The accesses to some bytes, in order, each at its own address. -/
theorem accesses_eq (f : Nat → Byte → Event) (first : Nat) (bytes : List Byte) :
    accesses f first bytes = bytes.mapIdx fun j v => f (first + j) v := by
  induction bytes generalizing first with
  | nil => rfl
  | cons v rest ih =>
    rw [accesses, ih, List.mapIdx_cons]
    simp [Nat.add_assoc, Nat.add_comm 1]

/-- What is not said of any single access is not said of a row of them. -/
theorem filterMap_accesses {α : Type} (g : Event → Option α) {f : Nat → Byte → Event} (h : ∀ k v, g (f k v) = none)
    (first : Nat) (bytes : List Byte) : (accesses f first bytes).filterMap g = [] := by
  induction bytes generalizing first with
  | nil => rfl
  | cons v rest ih => rw [accesses, List.filterMap_cons_none (h first v), ih]

theorem mem_accesses {f : Nat → Byte → Event} {first : Nat} {bytes : List Byte} {e : Event}
    (h : e ∈ accesses f first bytes) : ∃ k v, e = f k v := by
  induction bytes generalizing first with
  | nil => exact absurd h (by simp [accesses])
  | cons v rest ih =>
    rcases List.mem_cons.1 h with rfl | h
    · exact ⟨first, v, rfl⟩
    · exact ih h

/-- Reads of the ROM and of the staging block issue no operation, sample nothing, and are no hardware reset. -/
@[simp] theorem op?_romReads (first : Nat) (bytes : List Byte) :
    (accesses .romRead first bytes).filterMap Event.op? = [] := filterMap_accesses _ (fun _ _ => rfl) first bytes

@[simp] theorem op?_stageReads (first : Nat) (bytes : List Byte) :
    (accesses .stageRead first bytes).filterMap Event.op? = [] := filterMap_accesses _ (fun _ _ => rfl) first bytes

@[simp] theorem sample?_stageReads (first : Nat) (bytes : List Byte) :
    (accesses .stageRead first bytes).filterMap Event.sample? = [] := filterMap_accesses _ (fun _ _ => rfl) first bytes

@[simp] theorem hardwareReset_notMem_romReads (first : Nat) (bytes : List Byte) :
    .hardwareReset ∉ accesses .romRead first bytes := fun h => by
  obtain ⟨_, _, h⟩ := mem_accesses h
  cases h

@[simp] theorem hardwareReset_notMem_stageReads (first : Nat) (bytes : List Byte) :
    .hardwareReset ∉ accesses .stageRead first bytes := fun h => by
  obtain ⟨_, _, h⟩ := mem_accesses h
  cases h

/-! ### Operation sequences -/

/-- R93 is read from left to right. -/
theorem phaseAfter_append (o : Bool) (a b : List TransportOp) :
    phaseAfter o (a ++ b) = (phaseAfter o a).bind fun o' => phaseAfter o' b := by
  induction a generalizing o with
  | nil => rfl
  | cons op a ih => cases o <;> cases op <;> simp [phaseAfter, ih]

end Sys2Proof.Machine

namespace Sys2Proof.Safety

open Sys2Proof.Machine

@[simp] theorem opsSinceReset_nil : opsSinceReset [] = [] := rfl

/-- One more event: an operation is added, a hardware reset starts over, the rest leave the operations. -/
@[simp] theorem opsSinceReset_concat (tr : List Event) (e : Event) :
    opsSinceReset (tr ++ [e]) =
      match e with
      | .hardwareReset => []
      | .emit op => opsSinceReset tr ++ [op]
      | _ => opsSinceReset tr := by
  cases e <;> simp only [opsSinceReset, List.foldl_append, List.foldl_cons, List.foldl_nil]

/-- Events without a hardware reset add their operations. -/
theorem opsSinceReset_append (tr es : List Event) (h : .hardwareReset ∉ es) :
    opsSinceReset (tr ++ es) = opsSinceReset tr ++ es.filterMap Event.op? := by
  induction es generalizing tr with
  | nil => simp
  | cons e es ih =>
    rw [List.append_cons, ih (tr ++ [e]) fun he => h (by simp [he]), opsSinceReset_concat]
    cases e <;> simp_all [Event.op?, List.filterMap_cons]

end Sys2Proof.Safety
end

