-- ==== Sys2Proof/Laws/Transfer.lean ====
section
/-! SUPPORT. The transfer sequencer: what its loop and its two ends do, said once. -/

namespace Sys2Proof.Machine

open Sys2Proof.Safety

/-! ### Emitting, as one relation -/

/-- From a step that is not held open, `t` is `s` after issuing `ops`: all of them, with the step still open; or, where
the transport stops completing, a part of them, with the step held open. -/
structure Emits (ops : List TransportOp) (s t : State) : Prop where
  same : t = { s with transportLeft := t.transportLeft, hang := t.hang, trace := t.trace }
  issued : ∃ part, part <+: ops ∧ t.trace = s.trace ++ part.map .emit ∧
    ((t.hang = none ∧ part = ops) ∨ t.hang = some .transport)
  completing : s.transportLeft = none → t.hang = none ∧ t.transportLeft = none

theorem emits_emit (op : TransportOp) {s : State} (h : s.hang = none) : Emits [op] s (emit op s) := by
  rcases emit_cases op s with ⟨h', _⟩ | ⟨_, ht, e⟩ | ⟨_, ht, e⟩ | ⟨n, _, ht, e⟩
  · exact absurd h h'
  · rw [e]
    exact ⟨rfl, ⟨[op], List.prefix_refl _, rfl, .inl ⟨h, rfl⟩⟩, fun _ => ⟨h, ht⟩⟩
  · rw [e]
    exact ⟨rfl, ⟨[op], List.prefix_refl _, rfl, .inr rfl⟩, fun h0 => by simp [h0] at ht⟩
  · rw [e]
    exact ⟨rfl, ⟨[op], List.prefix_refl _, rfl, .inl ⟨h, rfl⟩⟩, fun h0 => by simp [h0] at ht⟩

/-- EmitAll(list), said once (R142). -/
theorem emits_emitAll (ops : List TransportOp) {s : State} (h : s.hang = none) : Emits ops s (emitAll ops s) := by
  induction ops generalizing s with
  | nil => exact ⟨rfl, ⟨[], List.prefix_refl _, by simp, .inl ⟨h, rfl⟩⟩, fun ht => ⟨h, ht⟩⟩
  | cons op ops ih =>
    obtain ⟨hs, ⟨part, hp, htr, hc⟩, hcomp⟩ := emits_emit op h
    rcases hc with ⟨hh, rfl⟩ | hh
    · obtain ⟨hs', ⟨part', hp', htr', hc'⟩, hcomp'⟩ := ih hh
      refine ⟨?_, ⟨op :: part', by simpa using hp', ?_, ?_⟩, fun ht => ?_⟩
      · apply State.ext <;> first | rfl | simp
      · show (emitAll ops (emit op s)).trace = _
        rw [htr', htr]
        simp
      · rcases hc' with ⟨h1, rfl⟩ | h1
        · exact .inl ⟨h1, rfl⟩
        · exact .inr h1
      · exact hcomp' (hcomp ht).2
    · have he : emitAll (op :: ops) s = emit op s := emitAll_of_held ops (by simp [hh])
      rw [he]
      exact ⟨hs, ⟨part, hp.trans (by simp), htr, .inr hh⟩, hcomp⟩

/-- Issuing operations, as two cases. -/
theorem Emits.cases {ops : List TransportOp} {s t : State} (h : Emits ops s t) (hs : s.hang = none) :
    (∃ tl, t = { s with transportLeft := tl, trace := s.trace ++ ops.map .emit } ∧
        (s.transportLeft = none → tl = none)) ∨
      (s.transportLeft ≠ none ∧ ∃ tl part, part <+: ops ∧
        t = { s with hang := some .transport, transportLeft := tl, trace := s.trace ++ part.map .emit }) := by
  obtain ⟨hsame, ⟨part, hp, htr, hc⟩, hcomp⟩ := h
  rcases hc with ⟨hh, rfl⟩ | hh
  · refine .inl ⟨t.transportLeft, ?_, fun h => (hcomp h).2⟩
    rw [← htr, ← hh.trans hs.symm]
    exact hsame
  · refine .inr ⟨fun h => by simp [(hcomp h).1] at hh, t.transportLeft, part, hp, ?_⟩
    rw [← htr, ← hh]
    exact hsame

/-! ### The loop -/

/-- What the transfer loop has done when it leaves: whole blocks sent from the staged bytes and the bytes at `cursor`
on. -/
inductive LoopEnd (s : State) (blocks : List (List Byte)) : Bool × State → Prop where
  /-- The buffer's end: fewer than S bytes stay staged, and no check was exceeded. -/
  | finished {t : State} (hang : t.hang = none) (cursor : t.cursor.toNat = s.bufferLen)
      (bytes : blocks.flatten ++ t.stage = s.stage ++ bufferBytes s s.cursor.toNat s.bufferLen)
      (staged : t.stage.length < s.stagingSize)
      (inBudget : ∀ j < blocks.length, exceeded s.t0 (sampleAt s j) s.cfg.transferBudgetMs = false)
      (ops : ∃ es, t.trace = s.trace ++ es ∧ .hardwareReset ∉ es ∧ es.filterMap Event.op? = blocks.map .data ∧
        es.filterMap Event.sample? = (List.range blocks.length).map (sampleAt s)) :
      LoopEnd s blocks (true, t)
  /-- The budget was exceeded after the last of the blocks and not before, and DATA_END was issued. -/
  | exceeded {t : State} (hang : t.hang = none ∨ t.hang = some .transport) (staged : t.stage = [])
      (bytes : blocks.flatten = s.stage ++ bufferBytes s s.cursor.toNat t.cursor.toNat)
      (advanced : s.cursor.toNat + (s.stagingSize - s.stage.length) ≤ t.cursor.toNat)
      (inBudget : ∀ j < blocks.length - 1, exceeded s.t0 (sampleAt s j) s.cfg.transferBudgetMs = false)
      (overBudget : exceeded s.t0 (sampleAt s (blocks.length - 1)) s.cfg.transferBudgetMs = true)
      (some : blocks ≠ [])
      (ops : ∃ es, t.trace = s.trace ++ es ∧ .hardwareReset ∉ es ∧
        es.filterMap Event.op? = blocks.map .data ++ [.dataEnd] ∧
        es.filterMap Event.sample? = (List.range blocks.length).map (sampleAt s)) :
      LoopEnd s blocks (false, t)
  /-- The transport did not complete a flush. -/
  | held {t : State} (hang : t.hang = some .transport)
      (ops : ∃ es, t.trace = s.trace ++ es ∧ .hardwareReset ∉ es ∧ es.filterMap Event.op? = blocks.map .data) :
      LoopEnd s blocks (false, t)

/-- The actions of a flush (R214): the staged bytes are read in order, and go out as one DATA. -/
def flushEvents (bytes : List Byte) : List Event := accesses .stageRead 0 bytes ++ [.emit (.data bytes)]

@[simp] theorem op?_flushEvents (bytes : List Byte) : (flushEvents bytes).filterMap Event.op? = [.data bytes] := by
  simp [flushEvents, Event.op?]

@[simp] theorem sample?_flushEvents (bytes : List Byte) : (flushEvents bytes).filterMap Event.sample? = [] := by
  simp [flushEvents, Event.sample?]

@[simp] theorem hardwareReset_notMem_flushEvents (bytes : List Byte) : .hardwareReset ∉ flushEvents bytes := by
  simp [flushEvents]

/-- A flush, said once (R214): the staged bytes go out as one DATA and the block is empty; or the transport does not
complete it. -/
theorem flush_cases {s : State} (h : s.hang = none) :
    (∃ tl, flush s =
        { s with transportLeft := tl, stage := [], trace := s.trace ++ flushEvents s.stage } ∧
        (s.transportLeft = none → tl = none)) ∨
      (s.transportLeft ≠ none ∧
        flush s = { s with hang := some .transport, trace := s.trace ++ flushEvents s.stage }) := by
  rcases emit_cases (.data s.stage) (recordAll (accesses .stageRead 0 s.stage) s) with
    ⟨h', _⟩ | ⟨_, ht, e⟩ | ⟨_, ht, e⟩ | ⟨n, _, ht, e⟩
  · exact absurd h h'
  · exact .inl ⟨none, by simp [flush, e, State.andThen, h, ← ht, flushEvents], fun _ => rfl⟩
  · simp only [recordAll_transportLeft] at ht
    exact .inr ⟨by simp [ht], by simp [flush, e, State.andThen, flushEvents]⟩
  · simp only [recordAll_transportLeft] at ht
    exact .inl ⟨some n, by simp [flush, e, State.andThen, h, flushEvents], fun h0 => by simp [h0] at ht⟩

/-- The samples to come, one after another: the next is what Now() answers, and after it the rest follow. -/
theorem sampleAt_zero (s : State) : sampleAt s 0 = (now s).1 := by
  rcases now_cases s with ⟨h, e⟩ | ⟨v, rest, h, e⟩ <;> simp [sampleAt, h, e]

theorem sampleAt_succ {s t : State} (j : Nat) (hm : t.nowMs = (now s).1) (hs : t.nowScript = s.nowScript.tail) :
    sampleAt t j = sampleAt s (j + 1) := by
  rcases now_cases s with ⟨h, e⟩ | ⟨v, rest, h, e⟩ <;> simp [sampleAt, h, e, hm, hs, List.getLast?_cons]

theorem bufferBytes_self (s : State) (a : Nat) : bufferBytes s a a = [] := by simp [bufferBytes]

theorem bufferBytes_cons (s : State) {a b : Nat} (h : a < b) :
    bufferBytes s a b = s.fbByte a :: bufferBytes s (a + 1) b := by
  have : b - a = (b - (a + 1)) + 1 := by omega
  simp [bufferBytes, this, List.range'_succ]

theorem bufferBytes_append (s : State) {a b c : Nat} (h : a ≤ b) (h' : b ≤ c) :
    bufferBytes s a b ++ bufferBytes s b c = bufferBytes s a c := by
  have h1 : b = a + 1 * (b - a) := by omega
  have h2 : c - a = (b - a) + (c - b) := by omega
  simp only [bufferBytes]
  rw [← List.map_append, h2, ← List.range'_append (step := 1), ← h1]

/-- The loop of Transfer, said once (R212, R214, R215). -/
theorem transferLoop_spec (fuel : Nat) (s : State) (hh : s.hang = none) (hf : fuel = s.bufferLen - s.cursor.toNat)
    (hc : s.cursor.toNat ≤ s.bufferLen) (hS : s.stage.length < s.stagingSize) :
    ∃ (b : Bool) (t : State) (blocks : List (List Byte)), transferLoop fuel s = .next (b, t) ∧
      t = { s with
        cursor := t.cursor, stage := t.stage, transportLeft := t.transportLeft, hang := t.hang, nowMs := t.nowMs,
        nowScript := t.nowScript, trace := t.trace } ∧
      s.cursor.toNat ≤ t.cursor.toNat ∧ t.cursor.toNat ≤ s.bufferLen ∧ (∀ x ∈ blocks, x.length = s.stagingSize) ∧
      (s.transportLeft = none → t.hang = none ∧ t.transportLeft = none) ∧ LoopEnd s blocks (b, t) := by
  induction fuel generalizing s with
  | zero =>
    have hcN : s.cursor.toNat = s.bufferLen := by omega
    refine ⟨true, s, [], by simp [transferLoop, hcN], rfl, le_rfl, hc, by simp, fun ht => ⟨hh, ht⟩, ?_⟩
    exact .finished hh hcN (by simp [hcN, bufferBytes_self]) hS (by simp) ⟨[], by simp, by simp, rfl, rfl⟩
  | succ fuel ih =>
    have hlt : s.cursor.toNat < s.bufferLen := by omega
    have hN : s.bufferLen < 2 ^ 32 := s.cfg.bufferLength.isLt
    have hc1 : (s.cursor + 1).toNat = s.cursor.toNat + 1 := by
      rw [BitVec.toNat_add]
      show (s.cursor.toNat + 1) % 2 ^ 32 = _
      omega
    have hread : fbRead s s.cursor.toNat = some (s.fbByte s.cursor.toNat) := by simp [fbRead, hlt]
    set v0 := s.fbByte s.cursor.toNat with hv0
    set s1 : State := { s with
        stage := s.stage ++ [v0], cursor := s.cursor + 1,
        trace := s.trace ++ [.fbRead s.cursor.toNat v0, .stageWrite s.stage.length v0] } with hs1
    have hstep : transferLoop (fuel + 1) s =
        if s1.stage.length = s1.stagingSize then
          if (flush s1).hang.isSome then .next (false, flush s1)
          else
            if exceeded (now (flush s1)).2.t0 (now (flush s1)).1 (now (flush s1)).2.cfg.transferBudgetMs then
              .next (false, emit .dataEnd (now (flush s1)).2)
            else transferLoop fuel (now (flush s1)).2
        else transferLoop fuel s1 := by
      rw [transferLoop, if_neg (Nat.ne_of_lt hlt), hread]
      rfl
    rw [hstep]
    have hlen : s1.stage.length = s.stage.length + 1 := by simp [hs1]
    have hbytes : ∀ b, s.cursor.toNat < b →
        s.stage ++ bufferBytes s s.cursor.toNat b = s1.stage ++ bufferBytes s1 s1.cursor.toNat b := by
      intro b hb
      have : s1.cursor.toNat = s.cursor.toNat + 1 := hc1
      rw [bufferBytes_cons s hb, this]
      simp only [hs1, List.append_assoc, List.singleton_append, List.append_cancel_left_eq]
      exact congrArg₂ List.cons hv0.symm rfl
    by_cases hfull : s1.stage.length = s1.stagingSize
    · rw [if_pos hfull]
      have hfull' : s1.stage.length = s.stagingSize := hfull
      rcases flush_cases (s := s1) hh with ⟨tl, e, htl⟩ | ⟨ht, e⟩
      · set s2 : State :=
          { s1 with transportLeft := tl, stage := [], trace := s1.trace ++ flushEvents s1.stage } with hs2
        rw [e]
        have h2 : s2.hang = none := hh
        simp only [h2, Option.isSome_none, Bool.false_eq_true, if_false]
        set v := (now s2).1 with hv
        have h3 : (now s2).2 =
            { s2 with nowMs := v, nowScript := s2.nowScript.tail, trace := s2.trace ++ [.clock v] } := now_snd s2
        set s3 : State :=
          { s2 with nowMs := v, nowScript := s2.nowScript.tail, trace := s2.trace ++ [.clock v] } with hs3
        rw [h3]
        have hv0s : sampleAt s 0 = v := sampleAt_zero s2
        have hsucc : ∀ j, sampleAt s3 j = sampleAt s (j + 1) := fun j => sampleAt_succ (s := s2) j rfl rfl
        by_cases hx : exceeded s3.t0 v s3.cfg.transferBudgetMs = true
        · rw [if_pos hx]
          obtain ⟨hsame, ⟨part, hp, htr, hcase⟩, hcomp⟩ := emits_emit .dataEnd (s := s3) hh
          have hcur : (emit .dataEnd s3).cursor.toNat = s.cursor.toNat + 1 := by simpa [hs3, hs2, hs1] using hc1
          refine ⟨false, emit .dataEnd s3, [s1.stage], rfl, ?_, by omega, by omega, by simpa using hfull', ?_, ?_⟩
          · apply State.ext <;> first | rfl | simp [hs3, hs2, hs1]
          · intro ht
            exact hcomp (htl ht)
          · refine .exceeded ?_ (by simp [hs3, hs2]) ?_ ?_ (by simp) ?_ (by simp) ?_
            · rcases hcase with ⟨h, _⟩ | h
              · exact .inl h
              · exact .inr h
            · rw [hcur, hbytes _ (Nat.lt_succ_self _)]
              have : s1.cursor.toNat = s.cursor.toNat + 1 := hc1
              simp [this, bufferBytes_self]
            · rw [hcur]
              omega
            · show exceeded s.t0 (sampleAt s 0) s.cfg.transferBudgetMs = true
              rw [hv0s]
              exact hx
            · refine ⟨[.fbRead s.cursor.toNat v0, .stageWrite s.stage.length v0] ++ flushEvents s1.stage ++
                [.clock v, .emit .dataEnd], ?_, by simp, ?_, ?_⟩
              rotate_left
              · simp [Event.op?, List.filterMap_cons]
              · simp [Event.sample?, List.filterMap_cons, ← hv0s]
              rcases emit_cases .dataEnd s3 with ⟨h', _⟩ | ⟨_, _, e'⟩ | ⟨_, _, e'⟩ | ⟨n, _, _, e'⟩
              · exact absurd hh h'
              all_goals rw [e']; simp [hs3, hs2, hs1]
        · rw [if_neg hx]
          obtain ⟨b, t, blocks, h1, h2, h3, h4, h5, h6, h7⟩ :=
            ih s3 hh (by show fuel = s.bufferLen - (s.cursor + 1).toNat; omega)
              (by show (s.cursor + 1).toNat ≤ s.bufferLen; omega) (by show 0 < s.stagingSize; omega)
          have h3' : (s.cursor + 1).toNat ≤ t.cursor.toNat := h3
          refine ⟨b, t, s1.stage :: blocks, h1, h2, by omega, h4, ?_, fun ht => h6 (htl ht), ?_⟩
          · intro x hx'
            rcases List.mem_cons.1 hx' with rfl | hx'
            · exact hfull'
            · exact h5 x hx'
          · have hpre : ∀ {u : State} {es : List Event}, u.trace = s3.trace ++ es → .hardwareReset ∉ es →
                ∃ es', u.trace = s.trace ++ es' ∧ .hardwareReset ∉ es' ∧
                  es'.filterMap Event.op? = .data s1.stage :: es.filterMap Event.op? ∧
                  es'.filterMap Event.sample? = v :: es.filterMap Event.sample? := by
              intro u es h h'
              refine ⟨[.fbRead s.cursor.toNat v0, .stageWrite s.stage.length v0] ++ flushEvents s1.stage ++
                .clock v :: es, ?_, by simp [h'], by simp [Event.op?, List.filterMap_cons],
                by simp [Event.sample?, List.filterMap_cons]⟩
              rw [h]
              simp [hs3, hs2, hs1]
            have hsamples : ∀ n, v :: (List.range n).map (sampleAt s3) = (List.range (n + 1)).map (sampleAt s) := by
              intro n
              rw [List.range_succ_eq_map, List.map_cons, List.map_map, hv0s]
              congr 1
              exact List.map_congr_left fun j _ => hsucc j
            have hin : ∀ n, (∀ j < n, exceeded s3.t0 (sampleAt s3 j) s3.cfg.transferBudgetMs = false) →
                ∀ j < n + 1, exceeded s.t0 (sampleAt s j) s.cfg.transferBudgetMs = false := by
              intro n h j hj
              cases j with
              | zero =>
                rw [hv0s]
                exact Bool.not_eq_true _ ▸ hx
              | succ j =>
                rw [← hsucc j]
                exact h j (by omega)
            cases h7 with
            | finished hang cursor bytes staged inBudget ops =>
              obtain ⟨es, htr, hnr, ho, hs⟩ := ops
              obtain ⟨es', htr', hnr', ho', hs'⟩ := hpre htr hnr
              refine .finished hang cursor ?_ staged (hin _ inBudget)
                ⟨es', htr', hnr', by rw [ho', ho]; rfl, by rw [hs', hs]; exact hsamples _⟩
              have : blocks.flatten ++ t.stage = bufferBytes s1 s1.cursor.toNat s.bufferLen := bytes
              rw [hbytes _ hlt, List.flatten_cons, List.append_assoc, this]
            | exceeded hang staged bytes advanced inBudget overBudget some ops =>
              obtain ⟨es, htr, hnr, ho, hs⟩ := ops
              obtain ⟨es', htr', hnr', ho', hs'⟩ := hpre htr hnr
              have hlen' : blocks.length - 1 + 1 = blocks.length := Nat.sub_add_cancel (List.length_pos_iff.2 some)
              refine .exceeded hang staged ?_ ?_ ?_ ?_ (by simp)
                ⟨es', htr', hnr', by rw [ho', ho]; rfl, by rw [hs', hs]; exact hsamples _⟩
              · have : blocks.flatten = bufferBytes s1 s1.cursor.toNat t.cursor.toNat := bytes
                rw [hbytes _ (by omega), List.flatten_cons, this]
              · have : (s.cursor + 1).toNat + (s.stagingSize - 0) ≤ t.cursor.toNat := advanced
                omega
              · have := hin _ inBudget
                rwa [hlen'] at this
              · show exceeded s.t0 (sampleAt s blocks.length) s.cfg.transferBudgetMs = true
                rw [hsucc, hlen'] at overBudget
                exact overBudget
            | held hang ops =>
              obtain ⟨es, htr, hnr, ho⟩ := ops
              obtain ⟨es', htr', hnr', ho', _⟩ := hpre htr hnr
              exact .held hang ⟨es', htr', hnr', by rw [ho', ho]; rfl⟩
      · rw [e]
        refine ⟨false, _, [s1.stage], rfl, rfl, ?_, ?_, by simpa using hfull', fun h0 => absurd h0 ht, ?_⟩
        · show s.cursor.toNat ≤ (s.cursor + 1).toNat
          omega
        · show (s.cursor + 1).toNat ≤ s.bufferLen
          omega
        · exact .held rfl ⟨[.fbRead s.cursor.toNat v0, .stageWrite s.stage.length v0] ++ flushEvents s1.stage,
            by simp [hs1], by simp, by simp [Event.op?, List.filterMap_cons]⟩
    · rw [if_neg hfull]
      have hne : s1.stage.length ≠ s.stagingSize := hfull
      obtain ⟨b, t, blocks, h1, h2, h3, h4, h5, h6, h7⟩ :=
        ih s1 hh (by show fuel = s.bufferLen - (s.cursor + 1).toNat; omega)
          (by show (s.cursor + 1).toNat ≤ s.bufferLen; omega) (by show s1.stage.length < s.stagingSize; omega)
      have h3' : (s.cursor + 1).toNat ≤ t.cursor.toNat := h3
      refine ⟨b, t, blocks, h1, h2, by omega, h4, h5, h6, ?_⟩
      have hpre : ∀ {u : State} {es : List Event}, u.trace = s1.trace ++ es → .hardwareReset ∉ es →
          ∃ es', u.trace = s.trace ++ es' ∧ .hardwareReset ∉ es' ∧
            es'.filterMap Event.op? = es.filterMap Event.op? ∧
            es'.filterMap Event.sample? = es.filterMap Event.sample? := by
        intro u es h h'
        refine ⟨[.fbRead s.cursor.toNat v0, .stageWrite s.stage.length v0] ++ es, ?_, by simp [h'],
          by simp [Event.op?, List.filterMap_cons], by simp [Event.sample?, List.filterMap_cons]⟩
        rw [h]
        simp [hs1]
      cases h7 with
      | finished hang cursor bytes staged inBudget ops =>
        obtain ⟨es, htr, hnr, ho, hs⟩ := ops
        obtain ⟨es', htr', hnr', ho', hs'⟩ := hpre htr hnr
        exact .finished hang cursor (by rw [hbytes _ hlt]; exact bytes) staged inBudget
          ⟨es', htr', hnr', ho'.trans ho, hs'.trans hs⟩
      | exceeded hang staged bytes advanced inBudget overBudget some ops =>
        obtain ⟨es, htr, hnr, ho, hs⟩ := ops
        obtain ⟨es', htr', hnr', ho', hs'⟩ := hpre htr hnr
        refine .exceeded hang staged (by rw [hbytes _ (by omega)]; exact bytes) ?_ inBudget overBudget some
          ⟨es', htr', hnr', ho'.trans ho, hs'.trans hs⟩
        have : (s.cursor + 1).toNat + (s.stagingSize - s1.stage.length) ≤ t.cursor.toNat := advanced
        omega
      | held hang ops =>
        obtain ⟨es, htr, hnr, ho⟩ := ops
        obtain ⟨es', htr', hnr', ho', _⟩ := hpre htr hnr
        exact .held hang ⟨es', htr', hnr', ho'.trans ho⟩

/-! ### The ends of a call -/

/-- The operations that open a call (R212, R213). -/
def openingOps (s : State) : List TransportOp :=
  if s.cursor = 0 then [.command s.cfg.transferStartCmd [], .dataBegin] else [.dataBegin]

/-- The operations that close a completed call (R216). -/
def closingOps (s : State) : List TransportOp :=
  if s.stage = [] then [.dataEnd] else [.data s.stage, .dataEnd]

/-- The start of a call, said once (R212, R213). -/
theorem transferOpen_cases {s : State} (h : s.hang = none) :
    (∃ tl, transferOpen s =
        { s with transportLeft := tl, stage := [], trace := s.trace ++ (openingOps s).map .emit } ∧
        (s.transportLeft = none → tl = none)) ∨
      (s.transportLeft ≠ none ∧ ∃ tl part, part <+: openingOps s ∧ transferOpen s =
        { s with hang := some .transport, transportLeft := tl, trace := s.trace ++ part.map .emit }) := by
  have he : transferOpen s = (emitAll (openingOps s) s).andThen fun t => { t with stage := [] } := by
    by_cases hc : s.cursor = 0 <;> simp only [transferOpen, openingOps, hc, if_true, if_false] <;> rfl
  rw [he]
  rcases (emits_emitAll (openingOps s) h).cases h with ⟨tl, e, htl⟩ | ⟨ht, tl, part, hp, e⟩
  · exact .inl ⟨tl, by rw [e]; exact andThen_of_running _ h, htl⟩
  · exact .inr ⟨ht, tl, part, hp, by rw [e, andThen_of_held _ (by simp)]⟩

/-- The end of a completed call, said once (R216). -/
theorem transferClose_cases {s : State} (h : s.hang = none) :
    ∃ es : List Event, .hardwareReset ∉ es ∧ es.filterMap Event.sample? = [] ∧
      ((∃ tl, transferClose s =
          { s with transportLeft := tl, stage := [], cursor := 0, trace := s.trace ++ es } ∧
          es.filterMap Event.op? = closingOps s ∧ (s.transportLeft = none → tl = none)) ∨
        (s.transportLeft ≠ none ∧ ∃ tl stage, es.filterMap Event.op? <+: closingOps s ∧ transferClose s =
          { s with hang := some .transport, transportLeft := tl, stage := stage, trace := s.trace ++ es })) := by
  have key : ∀ u : State, u.hang = none → u.stage = [] →
      (∃ tl, ((emit .dataEnd u).andThen fun t => { t with cursor := 0 }) =
          { u with transportLeft := tl, stage := [], cursor := 0, trace := u.trace ++ [.emit .dataEnd] } ∧
          (u.transportLeft = none → tl = none)) ∨
        (u.transportLeft ≠ none ∧ ((emit .dataEnd u).andThen fun t => { t with cursor := 0 }) =
          { u with hang := some .transport, trace := u.trace ++ [.emit .dataEnd] }) := by
    intro u hu hst
    rcases emit_cases .dataEnd u with ⟨h', _⟩ | ⟨_, ht, e⟩ | ⟨_, ht, e⟩ | ⟨n, _, ht, e⟩
    · exact absurd hu h'
    · exact .inl ⟨none, by rw [e, ← hst, ← ht]; exact andThen_of_running _ hu, fun _ => rfl⟩
    · exact .inr ⟨by simp [ht], by rw [e, andThen_of_held _ (by simp)]⟩
    · exact .inl ⟨some n, by rw [e, ← hst]; exact andThen_of_running _ hu, fun h0 => by simp [h0] at ht⟩
  by_cases hst : s.stage = []
  · refine ⟨[.emit .dataEnd], by simp, rfl, ?_⟩
    rcases key s h hst with ⟨tl, e, htl⟩ | ⟨ht, e⟩
    · exact .inl ⟨tl, by rw [transferClose, if_pos hst, e], by rw [closingOps, if_pos hst]; rfl, htl⟩
    · refine .inr ⟨ht, s.transportLeft, s.stage, ?_, by rw [transferClose, if_pos hst, e]⟩
      rw [closingOps, if_pos hst]
      exact List.prefix_refl _
  · have hclose : closingOps s = [.data s.stage, .dataEnd] := by rw [closingOps, if_neg hst]
    rcases flush_cases h with ⟨tl, e, htl⟩ | ⟨ht, e⟩
    · refine ⟨flushEvents s.stage ++ [.emit .dataEnd], by simp, by simp [Event.sample?, List.filterMap_cons], ?_⟩
      have hops : (flushEvents s.stage ++ [Event.emit .dataEnd]).filterMap Event.op? = closingOps s := by
        rw [hclose]
        simp [Event.op?]
      rcases key _ (show State.hang { s with
          transportLeft := tl, stage := [], trace := s.trace ++ flushEvents s.stage } = none from h) rfl with
        ⟨tl', e', htl'⟩ | ⟨ht', e'⟩
      · refine .inl ⟨tl', ?_, hops, fun h0 => htl' (htl h0)⟩
        rw [transferClose, if_neg hst, e, e']
        simp
      · refine .inr ⟨fun h0 => ht' (htl h0), tl, [], by rw [hops], ?_⟩
        rw [transferClose, if_neg hst, e, e']
        simp
    · refine ⟨flushEvents s.stage, by simp, by simp, .inr ⟨ht, s.transportLeft, s.stage, ?_, ?_⟩⟩
      · rw [hclose, op?_flushEvents]
        exact ⟨[.dataEnd], rfl⟩
      · rw [transferClose, if_neg hst, e, emit_of_held _ (by simp), andThen_of_held _ (by simp)]

end Sys2Proof.Machine
end

