-- ==== Sys2Proof/Laws/Bytecode.lean ====
section
/-! SUPPORT. The init-sequence interpreter: what each entry does and what a whole interpretation can do, said once. -/

namespace Sys2Proof.Machine

open Sys2Proof.Safety

/-- A command entry, said once (R183, R184): over length it fails; else its COMMAND is issued and `i` moves on, or the
transport does not complete it. -/
theorem commandEntry_cases (c : Byte) (n : BitVec 7) {s : State} (h : s.hang = none) :
    (s.overLength n.toNat = true ∧ commandEntry c n s = (false, raiseFault .initOverlength s.idx s)) ∨
      (s.overLength n.toNat = false ∧ ∃ tl, (s.transportLeft = none → tl = none) ∧ commandEntry c n s =
        (true, { s with
          idx := s.idx + 2 + n.setWidth 16, transportLeft := tl,
          trace := s.trace ++ (payloadReads n.toNat s ++ [.emit (.command c (s.payload n.toNat))]) })) ∨
      (s.overLength n.toNat = false ∧ s.transportLeft ≠ none ∧ commandEntry c n s =
        (false, { s with
          hang := some .transport,
          trace := s.trace ++ (payloadReads n.toNat s ++ [.emit (.command c (s.payload n.toNat))]) })) := by
  cases ho : s.overLength n.toNat with
  | true => exact .inl ⟨rfl, by simp [commandEntry, ho]⟩
  | false =>
    rcases emit_cases (.command c (s.payload n.toNat)) (recordAll (payloadReads n.toNat s) s) with
      ⟨h', _⟩ | ⟨_, ht, e⟩ | ⟨_, ht, e⟩ | ⟨m, _, ht, e⟩
    · exact absurd h h'
    all_goals rw [recordAll_transportLeft] at ht
    · exact .inr (.inl ⟨rfl, none, fun _ => rfl, by simp [commandEntry, ho, e, h, ← ht]⟩)
    · exact .inr (.inr ⟨rfl, by simp [ht], by simp [commandEntry, ho, e]⟩)
    · exact .inr (.inl ⟨rfl, some m, fun h0 => by simp [h0] at ht, by simp [commandEntry, ho, e, h]⟩)

/-- A DELAY, said once (R186, R187): clock samples only; `i` moves on when it ends, and a stopped clock holds the step
open. -/
theorem entryDelay_cases (t : Byte) (s : State) :
    ∃ (ts v : Word) (script samples : List Word),
      (entryDelay t s = (true, { s with
        idx := s.idx + 2, sleepStart := ts, nowMs := v, nowScript := script,
        trace := s.trace ++ samples.map .clock })) ∨
      (entryDelay t s = (false, { s with
        hang := some .sleep, sleepStart := ts, nowMs := v, nowScript := script,
        trace := s.trace ++ samples.map .clock })) := by
  obtain ⟨⟨hsame, vs, htr⟩, hc⟩ := sleepMs_spec t.toNat s
  refine ⟨(sleepMs t.toNat s).2.sleepStart, (sleepMs t.toNat s).2.nowMs, (sleepMs t.toNat s).2.nowScript, vs, ?_⟩
  rcases hc with ⟨h1, h2⟩ | ⟨h1, h2⟩
  · left
    rw [htr, h2] at hsame
    simp only [entryDelay, h1, if_true]
    rw [hsame]
  · right
    rw [htr, h2] at hsame
    simp only [entryDelay, h1]
    simp only [Bool.false_eq_true, if_false]
    rw [hsame]

/-- The payload of an entry that is not over length has exactly the declared length. -/
theorem payload_length {s : State} {n : Nat} (h : s.overLength n = false) : (s.payload n).length = n := by
  have h : ¬ s.cfg.initSeq.length < s.idx.toNat + 2 + n := of_decide_eq_false h
  simp only [State.payload, State.romRest, List.length_take, List.length_drop]
  omega

/-- An operation a bytecode entry can issue: one COMMAND of legal size (R184). -/
def isEntryOp : TransportOp → Bool
  | .command _ payload => decide (payload.length ≤ 127)
  | .dataBegin => false
  | .data _ => false
  | .dataEnd => false

/-- How an interpretation from `s` ends. -/
inductive InterpretEnd (s : State) : Bool × State → Prop where
  /-- The end of the sequence. -/
  | ok {t : State} (hang : t.hang = none) (idx : t.idx.toNat = s.initLen)
      (regs : t.failed = s.failed ∧ t.faultCode = s.faultCode ∧ t.faultIndex = s.faultIndex ∧
        t.active = s.active ∧ t.response = s.response) : InterpretEnd s (true, t)
  /-- A fatal failure at the entry at `i`. -/
  | failed {t : State} (hang : t.hang = none)
      (regs : t.failed = true ∧ (t.faultCode = 1 ∨ t.faultCode = 2) ∧ t.faultIndex = t.idx ∧
        t.active = false ∧ t.response = some .faulted) : InterpretEnd s (false, t)
  /-- Held open inside an entry. -/
  | held {t : State} (hang : t.hang ≠ none)
      (regs : t.failed = s.failed ∧ t.faultCode = s.faultCode ∧ t.faultIndex = s.faultIndex ∧
        t.active = s.active ∧ t.response = s.response) : InterpretEnd s (false, t)

theorem idx_add {i : BitVec 16} {n : BitVec 7} {L : Nat} (h : i.toNat + 2 + n.toNat ≤ L) (hL : L ≤ 65535) :
    (i + 2 + n.setWidth 16).toNat = i.toNat + 2 + n.toNat := by
  have hn : (n.setWidth 16).toNat = n.toNat := by
    rw [BitVec.toNat_setWidth]
    exact Nat.mod_eq_of_lt (by omega)
  rw [BitVec.toNat_add, BitVec.toNat_add, hn]
  show ((i.toNat + 2) % 2 ^ 16 + n.toNat) % 2 ^ 16 = _
  omega

/-- An entry that runs, said once: it moves `i` on past at least its header, or ends the interpretation. -/
theorem runEntry_spec (e : Entry) {s : State} (h : s.hang = none) (hi : s.idx.toNat + 2 ≤ s.initLen)
    (hL : s.initLen ≤ 65535) :
    ∃ (b : Bool) (t : State), runEntry e s = (b, t) ∧
      t = { s with
        idx := t.idx, sleepStart := t.sleepStart, transportLeft := t.transportLeft, hang := t.hang, nowMs := t.nowMs,
        nowScript := t.nowScript, trace := t.trace, failed := t.failed, faultCode := t.faultCode,
        faultIndex := t.faultIndex, active := t.active, response := t.response } ∧
      (∃ es, t.trace = s.trace ++ es ∧ .hardwareReset ∉ es ∧ (es.filterMap Event.op?).all isEntryOp = true) ∧
      s.idx.toNat ≤ t.idx.toNat ∧ t.idx.toNat ≤ s.initLen ∧
      (b = true → s.idx.toNat + 2 ≤ t.idx.toNat ∧ t.hang = none ∧ t.failed = s.failed ∧
        t.faultCode = s.faultCode ∧ t.faultIndex = s.faultIndex ∧ t.active = s.active ∧ t.response = s.response) ∧
      (b = false → InterpretEnd s (false, t)) := by
  have hcmd : ∀ c n, ∃ (b : Bool) (t : State), commandEntry c n s = (b, t) ∧
      t = { s with
        idx := t.idx, sleepStart := t.sleepStart, transportLeft := t.transportLeft, hang := t.hang, nowMs := t.nowMs,
        nowScript := t.nowScript, trace := t.trace, failed := t.failed, faultCode := t.faultCode,
        faultIndex := t.faultIndex, active := t.active, response := t.response } ∧
      (∃ es, t.trace = s.trace ++ es ∧ .hardwareReset ∉ es ∧ (es.filterMap Event.op?).all isEntryOp = true) ∧
      s.idx.toNat ≤ t.idx.toNat ∧ t.idx.toNat ≤ s.initLen ∧
      (b = true → s.idx.toNat + 2 ≤ t.idx.toNat ∧ t.hang = none ∧ t.failed = s.failed ∧
        t.faultCode = s.faultCode ∧ t.faultIndex = s.faultIndex ∧ t.active = s.active ∧ t.response = s.response) ∧
      (b = false → InterpretEnd s (false, t)) := by
    intro c n
    have hn : n.toNat ≤ 127 := by omega
    rcases commandEntry_cases c n h with ⟨_, e⟩ | ⟨ho, tl, _, e⟩ | ⟨ho, _, e⟩
    · refine ⟨_, _, e, rfl, ⟨[.respond .faulted], rfl, by simp, rfl⟩, le_rfl, by simp; omega, by simp, fun _ => ?_⟩
      exact .failed h ⟨rfl, .inr rfl, rfl, rfl, rfl⟩
    · have hp := payload_length ho
      have hb : s.idx.toNat + 2 + n.toNat ≤ s.initLen := by
        simpa [State.overLength] using ho
      have hx := idx_add hb hL
      refine ⟨_, _, e, rfl, ⟨payloadReads n.toNat s ++ [.emit (.command c (s.payload n.toNat))], rfl,
        by simp [payloadReads], ?_⟩, ?_, ?_, fun _ => ?_, by simp⟩
      · simp [payloadReads, Event.op?, isEntryOp, hp, hn]
      · show s.idx.toNat ≤ (s.idx + 2 + n.setWidth 16).toNat
        omega
      · show (s.idx + 2 + n.setWidth 16).toNat ≤ s.initLen
        omega
      · exact ⟨by show s.idx.toNat + 2 ≤ (s.idx + 2 + n.setWidth 16).toNat; omega, h, rfl, rfl, rfl, rfl, rfl⟩
    · have hp := payload_length ho
      refine ⟨_, _, e, rfl, ⟨payloadReads n.toNat s ++ [.emit (.command c (s.payload n.toNat))], rfl,
        by simp [payloadReads], ?_⟩, le_rfl, by simp; omega,
        by simp, fun _ => ?_⟩
      · simp [payloadReads, Event.op?, isEntryOp, hp, hn]
      · exact .held (by simp) ⟨rfl, rfl, rfl, rfl, rfl⟩
  cases e with
  | cmd c n => exact hcmd c n
  | cmdB7 c n => exact hcmd c n
  | delay t =>
    have hclk : ∀ l : List Word, .hardwareReset ∉ l.map Event.clock ∧
        ((l.map Event.clock).filterMap Event.op?).all isEntryOp = true := by
      intro l
      refine ⟨by simp, ?_⟩
      have : (l.map Event.clock).filterMap Event.op? = [] := by
        induction l with
        | nil => rfl
        | cons v l ih => simp [Event.op?, List.filterMap_cons]
      rw [this]
      rfl
    obtain ⟨ts, v, script, samples, e | e⟩ := entryDelay_cases t s
    · have hx : (s.idx + 2).toNat = s.idx.toNat + 2 := by
        rw [BitVec.toNat_add]
        show (s.idx.toNat + 2) % 2 ^ 16 = _
        omega
      refine ⟨_, _, e, rfl, ⟨_, rfl, hclk samples⟩, ?_, ?_, fun _ => ?_, by simp⟩
      · show s.idx.toNat ≤ (s.idx + 2).toNat
        omega
      · show (s.idx + 2).toNat ≤ s.initLen
        omega
      · exact ⟨by show s.idx.toNat + 2 ≤ (s.idx + 2).toNat; omega, h, rfl, rfl, rfl, rfl, rfl⟩
    · refine ⟨_, _, e, rfl, ⟨_, rfl, hclk samples⟩, le_rfl, by simp; omega, by simp, fun _ => ?_⟩
      exact .held (by simp) ⟨rfl, rfl, rfl, rfl, rfl⟩

/-- The header of the next entry is there exactly when two bytes are left (R182). -/
theorem entryHere_cases (s : State) :
    (s.entryHere = none ∧ s.initLen < s.idx.toNat + 2) ∨
      (∃ e, s.entryHere = some e ∧ s.idx.toNat + 2 ≤ s.initLen) := by
  have hl : s.romRest.length = s.initLen - s.idx.toNat := by
    simp [State.romRest, State.initLen, PanelConfig.initLen]
  rcases hr : s.romRest with _ | ⟨c, _ | ⟨x, rest⟩⟩
  · exact .inl ⟨by simp [State.entryHere, hr], by simp [hr] at hl; omega⟩
  · exact .inl ⟨by simp [State.entryHere, hr], by simp [hr] at hl; omega⟩
  · exact .inr ⟨decodeEntry c x, by simp [State.entryHere, hr], by simp [hr] at hl; omega⟩

/-- The interpreter's loop, said once (R181): which fields it can write, that it only emits commands of legal size and
samples the clock, and how it ends. -/
theorem interpretLoop_spec (fuel : Nat) {s : State} (h : s.hang = none) (hi : s.idx.toNat ≤ s.initLen)
    (hL : s.initLen ≤ 65535) (hf : s.initLen - s.idx.toNat ≤ fuel) :
    ∃ (b : Bool) (t : State), interpretLoop fuel s = (b, t) ∧
      t = { s with
        idx := t.idx, sleepStart := t.sleepStart, transportLeft := t.transportLeft, hang := t.hang, nowMs := t.nowMs,
        nowScript := t.nowScript, trace := t.trace, failed := t.failed, faultCode := t.faultCode,
        faultIndex := t.faultIndex, active := t.active, response := t.response } ∧
      (∃ es, t.trace = s.trace ++ es ∧ .hardwareReset ∉ es ∧ (es.filterMap Event.op?).all isEntryOp = true) ∧
      t.idx.toNat ≤ s.initLen ∧ InterpretEnd s (b, t) := by
  induction fuel generalizing s with
  | zero =>
    have hx : s.idx.toNat = s.initLen := by omega
    exact ⟨true, s, by simp [interpretLoop, hx], rfl, ⟨[], by simp, by simp, rfl⟩, hi,
      .ok h hx ⟨rfl, rfl, rfl, rfl, rfl⟩⟩
  | succ fuel ih =>
    by_cases hx : s.idx.toNat = s.initLen
    · exact ⟨true, s, by simp [interpretLoop, hx], rfl, ⟨[], by simp, by simp, rfl⟩, hi,
        .ok h hx ⟨rfl, rfl, rfl, rfl, rfl⟩⟩
    · rcases entryHere_cases s with ⟨he, _⟩ | ⟨e, he, h2⟩
      · refine ⟨false, raiseFault .initTruncated s.idx s, by simp [interpretLoop, hx, he], rfl,
          ⟨[.respond .faulted], rfl, by simp, rfl⟩, hi, ?_⟩
        exact .failed h ⟨rfl, .inl rfl, rfl, rfl, rfl⟩
      · obtain ⟨b, t, hr, hsame, ⟨es0, htr, hnr, hops⟩, _, hub, hgo, hend⟩ :=
          runEntry_spec e (s := recordAll (headerReads s) s) h h2 hL
        set es := headerReads s ++ es0 with hes
        have htr : t.trace = s.trace ++ es := by rw [htr, hes, recordAll_trace, List.append_assoc]
        have hnr : .hardwareReset ∉ es := by simp [hes, headerReads, hnr]
        have hops : (es.filterMap Event.op?).all isEntryOp = true := by simpa [hes, headerReads] using hops
        have hsame : t = { s with
            idx := t.idx, sleepStart := t.sleepStart, transportLeft := t.transportLeft, hang := t.hang,
            nowMs := t.nowMs, nowScript := t.nowScript, trace := t.trace, failed := t.failed,
            faultCode := t.faultCode, faultIndex := t.faultIndex, active := t.active, response := t.response } := hsame
        have hub : t.idx.toNat ≤ s.initLen := hub
        have hgo : b = true → s.idx.toNat + 2 ≤ t.idx.toNat ∧ t.hang = none ∧ t.failed = s.failed ∧
            t.faultCode = s.faultCode ∧ t.faultIndex = s.faultIndex ∧ t.active = s.active ∧
            t.response = s.response := hgo
        have hend : b = false → InterpretEnd s (false, t) := fun hb => by
          cases hend hb with
          | failed hang regs => exact .failed hang regs
          | held hang regs => exact .held hang regs
        have hstep : interpretLoop (fuel + 1) s = if b then interpretLoop fuel t else (false, t) := by
          rw [interpretLoop, if_neg hx, he]
          simp only [hr]
        cases b with
        | false => exact ⟨false, t, hstep, hsame, ⟨es, htr, hnr, hops⟩, hub, hend rfl⟩
        | true =>
          obtain ⟨hadv, hhang, hregs⟩ := hgo rfl
          have hlen : t.initLen = s.initLen := by rw [hsame]; rfl
          obtain ⟨b', u, hr', hsame', ⟨es', htr', hnr', hops'⟩, hub', hend'⟩ :=
            ih hhang (by omega) (by omega) (by omega)
          refine ⟨b', u, by rw [hstep]; exact hr', hsame'.trans (by rw [hsame]), ⟨es ++ es', ?_, ?_, ?_⟩, by omega, ?_⟩
          · rw [htr', htr, List.append_assoc]
          · simp [hnr, hnr']
          · rw [List.filterMap_append, List.all_append, hops, hops']
            rfl
          · obtain ⟨r1, r2, r3, r4, r5⟩ := hregs
            cases hend' with
            | ok hang idx regs =>
              rw [r1, r2, r3, r4, r5] at regs
              exact .ok hang (idx.trans hlen) regs
            | failed hang regs => exact .failed hang regs
            | held hang regs =>
              rw [r1, r2, r3, r4, r5] at regs
              exact .held hang regs

/-- Entry operations stand outside data phases (R93). -/
theorem phaseAfter_of_entryOps {ops : List TransportOp} (h : ops.all isEntryOp = true) :
    phaseAfter false ops = some false := by
  induction ops with
  | nil => rfl
  | cons op ops ih =>
    simp only [List.all_cons, Bool.and_eq_true] at h
    cases op with
    | command c p => exact ih h.2
    | dataBegin => simp [isEntryOp] at h
    | data b => simp [isEntryOp] at h
    | dataEnd => simp [isEntryOp] at h

end Sys2Proof.Machine
end

