-- ==== Sys2Proof/Laws/Decode.lean ====
section
/-! SUPPORT. The decoder on two header bytes, said once, and the halves of a header word. -/

namespace Sys2Proof

/-- The marker makes a DELAY, whatever byte 0 is (R82). -/
@[simp] theorem decodeEntry_marker (c : Byte) : decodeEntry c 0xFF#8 = .delay c := rfl

/-- Byte 1 with bit 7 clear is a CMD's count (R80). -/
theorem decodeEntry_cmd (c : Byte) {x : Byte} (h : x.getLsbD 7 = false) :
    decodeEntry c x = .cmd c (x.extractLsb' 0 7) := by
  have hx : x ≠ delayMarker := by
    rintro rfl
    exact absurd h (by decide)
  rw [decodeEntry, if_neg hx, h]
  rfl

/-- Byte 1 with bit 7 set, but not the marker, is a CMD.B7's count (R80, R82). -/
theorem decodeEntry_cmdB7 (c : Byte) {x : Byte} (hx : x ≠ 0xFF#8) (h : x.getLsbD 7 = true) :
    decodeEntry c x = .cmdB7 c (x.extractLsb' 0 7) := by
  rw [decodeEntry, if_neg (show ¬ x = delayMarker from hx), if_pos h]

/-- The three cases of a header, said once. -/
theorem decodeEntry_cases (c x : Byte) :
    (x = 0xFF#8 ∧ decodeEntry c x = .delay c) ∨
      (x ≠ 0xFF#8 ∧ x.getLsbD 7 = false ∧ decodeEntry c x = .cmd c (x.extractLsb' 0 7)) ∨
      (x ≠ 0xFF#8 ∧ x.getLsbD 7 = true ∧ decodeEntry c x = .cmdB7 c (x.extractLsb' 0 7)) := by
  by_cases hx : x = 0xFF#8
  · exact .inl ⟨hx, by rw [hx]; rfl⟩
  · cases h : x.getLsbD 7 with
    | false => exact .inr (.inl ⟨hx, rfl, decodeEntry_cmd c h⟩)
    | true => exact .inr (.inr ⟨hx, rfl, decodeEntry_cmdB7 c hx h⟩)

@[simp] theorem headerByte0_append (a b : Byte) : headerByte0 (a ++ b) = a := by
  apply BitVec.eq_of_getLsbD_eq
  intro i hi
  simp only [headerByte0, BitVec.getLsbD_extractLsb', hi, decide_true, Bool.true_and]
  refine BitVec.getLsbD_append.trans ?_
  rw [if_neg (by omega), Nat.add_sub_cancel_left]

@[simp] theorem headerByte1_append (a b : Byte) : headerByte1 (a ++ b) = b := by
  apply BitVec.eq_of_getLsbD_eq
  intro i hi
  simp only [headerByte1, BitVec.getLsbD_extractLsb', hi, decide_true, Bool.true_and, Nat.zero_add]
  refine BitVec.getLsbD_append.trans ?_
  rw [if_pos hi]

/-- A header word is its two bytes (R87). -/
@[simp] theorem headerBytes_append (h : BitVec 16) : headerByte0 h ++ headerByte1 h = h := by
  apply BitVec.eq_of_getLsbD_eq
  intro i hi
  rw [BitVec.getLsbD_append]
  by_cases h8 : i < 8
  · simp [headerByte1, h8]
  · simp only [headerByte0, h8, if_false, BitVec.getLsbD_extractLsb']
    rw [show 8 + (i - 8) = i by omega]
    simp [show i - 8 < 8 by omega]

end Sys2Proof
end

