-- ==== Sys2Proof/Laws/HardwareReset.lean ====
section
/-! SUPPORT. Hardware reset and the configuration check, said once. -/

namespace Sys2Proof.Machine

/-- What it means that no reason to refuse a record was found (R9, R301). -/
structure LegalConfig (c : PanelConfig) : Prop where
  width : c.width ≠ 0
  height : c.height ≠ 0
  displayType : c.displayType = 0
  bufferLength : c.bufferLength.toNat = sixColorLength c
  initLen : c.initLen ≤ 65535
  resetDuration : c.resetDurationMs.toNat < 2 ^ 31
  stagingSize : c.stagingSize ≠ 0
  transferBudget : c.transferBudgetMs.toNat < 2 ^ 31
  phaseDelay : ∀ p, (c.phaseDelayMs.get p).toNat < 2 ^ 31
  phaseOps : ∀ p, opsWf c.stagingSize.toNat (c.phaseOps.get p) = true
  lumaMid : c.lumaMid.toNat ≤ 765
  paletteCodes : (paletteCodes c).Nodup

theorem configProblem_eq_none_iff (c : PanelConfig) : configProblem c = none ↔ LegalConfig c := by
  have hd : ∀ {d : Word}, delayOk d = true ↔ d.toNat < 2 ^ 31 := by simp [delayOk]
  have hall : ∀ {α : Type} (v : PerPhase α) (f : α → Bool),
      (PerPhase.toList v).all f = true ↔ ∀ p, f (v.get p) = true := by
    intro α v f
    constructor
    · intro h p
      simp only [PerPhase.toList, List.all_cons, List.all_nil, Bool.and_eq_true] at h
      obtain ⟨h1, h2, h3, h4, h5, _⟩ := h
      cases p <;> assumption
    · intro h
      simp only [PerPhase.toList, List.all_cons, List.all_nil, Bool.and_eq_true]
      exact ⟨h .powerOn, h .postPowerOn, h .refreshScreen, h .powerOff, h .deepSleep, trivial⟩
  have chain : ∀ {p : Prop} [Decidable p] {a : ConfigProblem} {x : Option ConfigProblem},
      (if p then some a else x) = none → ¬ p ∧ x = none := by
    intro p _ a x h
    by_cases hp : p
    · simp [hp] at h
    · exact ⟨hp, by simpa [hp] using h⟩
  constructor
  · intro h
    obtain ⟨h1, h⟩ := chain h
    obtain ⟨h2, h⟩ := chain h
    obtain ⟨h3, h⟩ := chain h
    obtain ⟨h4, h⟩ := chain h
    obtain ⟨h5, h⟩ := chain h
    obtain ⟨h6, h⟩ := chain h
    obtain ⟨h7, h⟩ := chain h
    obtain ⟨h8, h⟩ := chain h
    obtain ⟨h9, h⟩ := chain h
    obtain ⟨h10, h⟩ := chain h
    obtain ⟨h11, h⟩ := chain h
    obtain ⟨h12, h⟩ := chain h
    rw [Bool.not_eq_true', Bool.not_eq_false] at h6 h8 h9 h10
    exact ⟨h1, h2, not_not.1 h3, not_not.1 h4, not_lt.1 h5, hd.1 h6, h7, hd.1 h8,
      fun p => hd.1 ((hall _ _).1 h9 p), (hall _ _).1 h10, not_lt.1 h11, not_not.1 h12⟩
  · intro h
    have h9 : (PerPhase.toList c.phaseDelayMs).all delayOk = true := (hall _ _).2 fun p => hd.2 (h.phaseDelay p)
    have h10 : (PerPhase.toList c.phaseOps).all (opsWf c.stagingSize.toNat) = true := (hall _ _).2 h.phaseOps
    rw [configProblem, if_neg h.width, if_neg h.height, if_neg (not_not.2 h.displayType),
      if_neg (not_not.2 h.bufferLength), if_neg (not_lt.2 h.initLen),
      if_neg (by simp [hd.2 h.resetDuration]), if_neg h.stagingSize, if_neg (by simp [hd.2 h.transferBudget]),
      if_neg (by simp [h9]), if_neg (by simp [h10]), if_neg (not_lt.2 h.lumaMid), if_neg (not_not.2 h.paletteCodes)]

/-- Storing a record keeps it legal (R31 touches the reset-cycle count only). -/
theorem configProblem_storedConfig (c : PanelConfig) : configProblem (storedConfig c) = configProblem c := rfl

theorem storedConfig_resetCycles (c : PanelConfig) : (storedConfig c).resetCycles ≠ 0 := by
  by_cases h : c.resetCycles = 0
  · simp [storedConfig, h]
  · rw [storedConfig, if_neg h]
    exact h

/-- Hardware reset, said once: it refuses an illegal record and otherwise answers a next state. -/
theorem hardwareReset_cases (r : ResetInput) (s : State) :
    (∃ p, configProblem r.config = some p ∧ hardwareReset r s = .refused (.illegalConfig p)) ∨
      (configProblem r.config = none ∧ ∃ t, hardwareReset r s = .next t) := by
  cases h : configProblem r.config with
  | some p => exact .inl ⟨p, rfl, by simp [hardwareReset, h]⟩
  | none =>
    refine .inr ⟨rfl, ?_⟩
    simp only [hardwareReset, h]
    exact ⟨_, rfl⟩

/-- A reset inside a step, said once (R305): the reset after the first `n` actions of the step, or of its part up to a
write without a meaning; or the step's own refusal. -/
theorem resetInside_cases (n : Nat) (r : ResetInput) (run : State → Host.Outcome State Fault Refusal) (s : State) :
    (∃ t, run s = .next t ∧ resetInside n r run s = hardwareReset r (cutAt n s t)) ∨
      (∃ q t, run s = .refused q ∧ run (untilMeaningless s) = .next t ∧ s.trace.length + n ≤ t.trace.length ∧
        resetInside n r run s = hardwareReset r (cutAt n s t)) ∨
      (∃ q, run s = .refused q ∧ resetInside n r run s = .refused q) := by
  cases h : run s with
  | next t => exact .inl ⟨t, rfl, by rw [resetInside, h]⟩
  | fault q => exact q.casesOn
  | refused q =>
    refine .inr ?_
    cases h' : run (untilMeaningless s) with
    | next t =>
      by_cases hn : s.trace.length + n ≤ t.trace.length
      · exact .inl ⟨q, t, rfl, rfl, hn, by rw [resetInside, h]; simp only [h', if_pos hn]⟩
      · exact .inr ⟨q, rfl, by rw [resetInside, h]; simp only [h', if_neg hn]⟩
    | fault q' => exact q'.casesOn
    | refused q' => exact .inr ⟨q, rfl, by rw [resetInside, h]; simp only [h']⟩

end Sys2Proof.Machine
end

