-- ==== Sys2Proof/Laws/Memory.lean ====
section
/-! SUPPORT. The sparse memory and the frame buffer: every operation keeps the canonical form, a read after a write,
and equal memories are equal lists. -/

namespace Sys2Proof.Machine

theorem Memory.wf_cons {d : Nat → Byte} {n a : Nat} {w : Byte} {m : List Host.Cell} :
    Memory.wf d n ((a, w) :: m) = true ↔
      a < n ∧ w ≠ d a ∧ (∀ c ∈ m, a < c.1) ∧ Memory.wf d n m = true := by
  simp [Memory.wf, and_assoc]

/-- An address below every listed one reads as unlisted. -/
theorem Memory.read_of_all_lt {d : Nat → Byte} {m : List Host.Cell} {k : Nat} (h : ∀ c ∈ m, k < c.1) :
    Memory.read d m k = d k := by
  induction m with
  | nil => rfl
  | cons c m ih =>
    obtain ⟨a, w⟩ := c
    have ha : k < a := h (a, w) (by simp)
    simp [Memory.read, Nat.ne_of_lt ha, ih fun c hc => h c (by simp [hc])]

/-- Addresses in a written memory are old ones or the written one. -/
theorem Memory.mem_write {d : Nat → Byte} {m : List Host.Cell} {k : Nat} {v : Byte} {c : Host.Cell}
    (h : c ∈ Memory.write d m k v) : c ∈ m ∨ c = (k, v) := by
  induction m with
  | nil => by_cases hv : v = d k <;> simp_all [Memory.write]
  | cons e m ih =>
    obtain ⟨a, w⟩ := e
    simp only [Memory.write] at h
    split_ifs at h with h1 h2 h3 h4
    · exact .inl h
    · rcases List.mem_cons.1 h with rfl | h
      · exact .inr rfl
      · exact .inl h
    · exact .inl (List.mem_cons_of_mem _ h)
    · rcases List.mem_cons.1 h with rfl | h
      · exact .inr rfl
      · exact .inl (List.mem_cons_of_mem _ h)
    · rcases List.mem_cons.1 h with rfl | h
      · exact .inl (by simp)
      · exact (ih h).imp (List.mem_cons_of_mem _) id

/-- A write keeps the canonical form. -/
theorem Memory.wf_write {d : Nat → Byte} {n : Nat} {m : List Host.Cell} {k : Nat} (v : Byte)
    (h : Memory.wf d n m = true) (hk : k < n) : Memory.wf d n (Memory.write d m k v) = true := by
  induction m with
  | nil => by_cases hv : v = d k <;> simp [Memory.write, Memory.wf, hv, hk]
  | cons e m ih =>
    obtain ⟨a, w⟩ := e
    obtain ⟨han, hw, hlt, hm⟩ := Memory.wf_cons.1 h
    simp only [Memory.write]
    split_ifs with h1 h2 h3 h4
    · exact h
    · refine Memory.wf_cons.2 ⟨hk, h2, fun c hc => ?_, h⟩
      rcases List.mem_cons.1 hc with rfl | hc
      · exact h1
      · exact h1.trans (hlt c hc)
    · exact hm
    · subst h3
      exact Memory.wf_cons.2 ⟨hk, h4, hlt, hm⟩
    · refine Memory.wf_cons.2 ⟨han, hw, fun c hc => ?_, ih hm⟩
      rcases Memory.mem_write hc with hc | rfl
      · exact hlt c hc
      · show a < k
        omega

/-- A read after a write: the written byte at its address, every other byte as before. -/
theorem Memory.read_write {d : Nat → Byte} {n : Nat} {m : List Host.Cell} (k : Nat) (v : Byte) (j : Nat)
    (h : Memory.wf d n m = true) :
    Memory.read d (Memory.write d m k v) j = if j = k then v else Memory.read d m j := by
  induction m with
  | nil =>
    by_cases hj : j = k <;> by_cases hv : v = d k <;> simp_all [Memory.write, Memory.read]
  | cons e m ih =>
    obtain ⟨a, w⟩ := e
    obtain ⟨_, _, hlt, hm⟩ := Memory.wf_cons.1 h
    simp only [Memory.write]
    split_ifs with h1 h2 h3 h4 h5 h6 h7 h8
    · rw [h3, Memory.read_of_all_lt fun c hc => ?_, h2]
      rcases List.mem_cons.1 hc with rfl | hc
      · exact h1
      · exact h1.trans (hlt c hc)
    · rfl
    · simp [Memory.read, h4]
    · simp [Memory.read, h4]
    · rw [h7, Memory.read_of_all_lt fun c hc => h5 ▸ hlt c hc, h6]
    · subst h5
      simp [Memory.read, h7]
    · simp [Memory.read, h8]
    · subst h5
      simp [Memory.read, h8]
    · subst_vars
      simp [Memory.read, ih hm, h5]
    · by_cases hja : j = a <;> simp_all [Memory.read]

/-- Two canonical memories that read alike everywhere are the same list. -/
theorem Memory.ext_of_read {d : Nat → Byte} {n : Nat} {m m' : List Host.Cell} (h : Memory.wf d n m = true)
    (h' : Memory.wf d n m' = true) (hr : ∀ k, Memory.read d m k = Memory.read d m' k) : m = m' := by
  induction m generalizing m' with
  | nil =>
    cases m' with
    | nil => rfl
    | cons e m' =>
      obtain ⟨_, hw, _, _⟩ := Memory.wf_cons.1 h'
      exact absurd (by simpa [Memory.read] using hr e.1) (Ne.symm hw)
  | cons e m ih =>
    obtain ⟨a, w⟩ := e
    obtain ⟨_, hw, hlt, hm⟩ := Memory.wf_cons.1 h
    cases m' with
    | nil => exact absurd (by simpa [Memory.read] using hr a) hw
    | cons e' m' =>
      obtain ⟨a', w'⟩ := e'
      obtain ⟨_, hw', hlt', hm'⟩ := Memory.wf_cons.1 h'
      have haa : a = a' := by
        rcases Nat.lt_trichotomy a a' with hl | he | hg
        · have := hr a
          rw [Memory.read_of_all_lt (m := (a', w') :: m') fun c hc => ?_] at this
          · exact absurd (by simpa [Memory.read] using this) hw
          · rcases List.mem_cons.1 hc with rfl | hc
            · exact hl
            · exact hl.trans (hlt' c hc)
        · exact he
        · have := hr a'
          rw [Memory.read_of_all_lt (m := (a, w) :: m) fun c hc => ?_] at this
          · exact absurd (by simpa [Memory.read] using this.symm) hw'
          · rcases List.mem_cons.1 hc with rfl | hc
            · exact hg
            · exact hg.trans (hlt c hc)
      subst haa
      have hww : w = w' := by simpa [Memory.read] using hr a
      subst hww
      congr 1
      refine ih hm hm' fun k => ?_
      by_cases hk : k = a
      · subst hk
        rw [Memory.read_of_all_lt hlt, Memory.read_of_all_lt hlt']
      · simpa [Memory.read, hk] using hr k

/-- FB_Write, said once: it answers exactly below N, and then only the list of the frame buffer changes. -/
theorem fbWrite_cases (s : State) (k : Nat) (v : Byte) :
    (k < s.bufferLen ∧ fbWrite s k v = some { s with fb := Memory.write s.fbDefault s.fb k v }) ∨
      (¬ k < s.bufferLen ∧ fbWrite s k v = none) := by
  by_cases hk : k < s.bufferLen <;> simp [fbWrite, hk]

/-- FB_Write keeps the canonical form. -/
theorem fbWrite_fbWf {s t : State} {k : Nat} {v : Byte} (h : fbWrite s k v = some t) (hs : s.fbWf = true) :
    t.fbWf = true := by
  rcases fbWrite_cases s k v with ⟨hk, he⟩ | ⟨_, he⟩
  · rw [he] at h
    cases h
    exact Memory.wf_write v hs hk
  · simp [he] at h

/-- The byte at any address after FB_Write. -/
theorem fbWrite_fbByte {s t : State} {k : Nat} {v : Byte} (h : fbWrite s k v = some t) (hs : s.fbWf = true)
    (j : Nat) : t.fbByte j = if j = k then v else s.fbByte j := by
  rcases fbWrite_cases s k v with ⟨_, he⟩ | ⟨_, he⟩
  · rw [he] at h
    cases h
    exact Memory.read_write k v j hs
  · simp [he] at h

/-- A store as an operation of a step, said once. -/
theorem storeByte_cases (k : Nat) (v : Byte) (s : State) :
    (k < s.bufferLen ∧ storeByte k v s =
        .next { s with fb := Memory.write s.fbDefault s.fb k v, trace := s.trace ++ [.fbWrite k v] }) ∨
      (¬ k < s.bufferLen ∧ storeByte k v s = .refused (.frameBufferRange k)) := by
  rcases fbWrite_cases s k v with ⟨hk, he⟩ | ⟨hk, he⟩
  · exact .inl ⟨hk, by simp [storeByte, he, record]⟩
  · exact .inr ⟨hk, by simp [storeByte, he]⟩

end Sys2Proof.Machine
end

