-- ==== Sys2Proof/Laws/Quantizer.lean ====
section
/-! SUPPORT. The pixel packer and the producer's window, said once. -/

namespace Sys2Proof.Machine

open Sys2Proof.Safety

/-- Coordinates in bounds have the index `y * W + x`, below W*H; out of bounds they have none (R250). -/
theorem pixelIndex_cases (c : PanelConfig) (x y : Word) :
    ((0 ≤ x.toInt ∧ x.toInt < c.width.toNat ∧ 0 ≤ y.toInt ∧ y.toInt < c.height.toNat) ∧
        pixelIndex c x y = some (y.toNat * c.width.toNat + x.toNat) ∧
        y.toNat * c.width.toNat + x.toNat < c.width.toNat * c.height.toNat) ∨
      (¬ (0 ≤ x.toInt ∧ x.toInt < c.width.toNat ∧ 0 ≤ y.toInt ∧ y.toInt < c.height.toNat) ∧
        pixelIndex c x y = none) := by
  by_cases h : 0 ≤ x.toInt ∧ x.toInt < c.width.toNat ∧ 0 ≤ y.toInt ∧ y.toInt < c.height.toNat
  · refine .inl ⟨h, if_pos h, ?_⟩
    obtain ⟨h1, h2, h3, h4⟩ := h
    have hx : x.toNat < c.width.toNat := by
      rw [BitVec.toInt_eq_toNat_cond] at h1 h2
      split at h1 <;> omega
    have hy : y.toNat < c.height.toNat := by
      rw [BitVec.toInt_eq_toNat_cond] at h3 h4
      split at h3 <;> omega
    calc y.toNat * c.width.toNat + x.toNat < y.toNat * c.width.toNat + c.width.toNat := by omega
      _ = (y.toNat + 1) * c.width.toNat := by ring
      _ ≤ c.height.toNat * c.width.toNat := Nat.mul_le_mul_right _ hy
      _ = c.width.toNat * c.height.toNat := Nat.mul_comm _ _
  · exact .inr ⟨h, if_neg h⟩

/-- A frame-buffer access issues no transport operation and is no hardware reset. -/
theorem op?_fbAccesses {es : List Event} (h : es.all isFbAccess = true) : es.filterMap Event.op? = [] := by
  rw [List.filterMap_eq_nil_iff]
  intro e he
  have := List.all_eq_true.1 h e he
  cases e <;> first | rfl | exact absurd this (by simp [isFbAccess])

theorem hardwareReset_notMem_fbAccesses {es : List Event} (h : es.all isFbAccess = true) : .hardwareReset ∉ es :=
  fun he => absurd (List.all_eq_true.1 h _ he) (by simp [isFbAccess])

/-- A write that stores elsewhere leaves the byte at `k`. -/
theorem storedByte_of_elsewhere {c : PanelConfig} {k : Nat} {w : ProducerWrite} (old : Byte)
    (h : w.address c ≠ some k) : storedByte c k old w = old := by
  cases w with
  | byte addr v => exact if_neg fun e => h (congrArg some e)
  | pixel x y r g b =>
    cases e : pixelIndex c x y with
    | none => simp [storedByte, e]
    | some idx => simpa [storedByte, e] using fun e' : idx / 2 = k => absurd (by simp [ProducerWrite.address, e, e']) h

/-- Writes that all store elsewhere leave the byte at `k`. -/
theorem windowByte_of_elsewhere {c : PanelConfig} {k : Nat} {ws : List ProducerWrite} (old : Byte)
    (h : ∀ w ∈ ws, w.address c ≠ some k) : windowByte c k ws old = old := by
  induction ws generalizing old with
  | nil => rfl
  | cons w ws ih =>
    rw [windowByte, List.foldl_cons, storedByte_of_elsewhere old (h w (by simp))]
    exact ih old fun w' hw' => h w' (by simp [hw'])

/-- The window cut at one of its writes: the writes before, that write, the writes after. -/
theorem windowByte_append_cons (c : PanelConfig) (k : Nat) (before after : List ProducerWrite) (w : ProducerWrite)
    (old : Byte) : windowByte c k (before ++ w :: after) old =
      windowByte c k after (storedByte c k (windowByte c k before old) w) := by
  simp [windowByte]

/-- What the producer's writes `ws` leave of `s`: the frame buffer's list, with its form and in each byte what the
writes in order make of it, and their accesses in the trace, the stores in the order of the writes. -/
structure Written (ws : List ProducerWrite) (s t : State) : Prop where
  same : ∃ es, t = { s with fb := t.fb, trace := s.trace ++ es } ∧ es.all isFbAccess = true ∧
    es.filterMap storedAddress? = ws.filterMap (·.address s.cfg)
  memory : s.fbWf = true →
    t.fbWf = true ∧ ∀ k, t.fbByte k = windowByte s.cfg k ws (s.fbByte k)

theorem Written.cfg {ws : List ProducerWrite} {s t : State} (h : Written ws s t) : t.cfg = s.cfg := by
  obtain ⟨es, e, _⟩ := h.same
  rw [e]

/-- A store, said once (R61): a refusal, or one byte of the frame buffer and one action. -/
theorem storeByte_spec {k : Nat} {v : Byte} {s t : State} (h : storeByte k v s = .next t) :
    t = { s with fb := t.fb, trace := s.trace ++ [.fbWrite k v] } ∧
      (s.fbWf = true → t.fbWf = true ∧ ∀ j, t.fbByte j = if j = k then v else s.fbByte j) := by
  rcases storeByte_cases k v s with ⟨hk, e⟩ | ⟨_, e⟩
  · rw [e] at h
    cases h
    exact ⟨rfl, fun hw => ⟨Memory.wf_write v hw hk, fun j => Memory.read_write k v j hw⟩⟩
  · rw [e] at h
    exact absurd h (by simp)

/-- A producer write, said once (R47, R61, R250, R252): where it is not refused, it is `Written`. -/
theorem producerWrite_spec {w : ProducerWrite} {s t : State} (h : producerWrite w s = .next t) : Written [w] s t := by
  cases w with
  | byte addr v =>
    obtain ⟨h1, h2⟩ := storeByte_spec h
    exact ⟨⟨_, h1, rfl, rfl⟩, fun hw => ⟨(h2 hw).1, fun k => by simp [(h2 hw).2, windowByte, storedByte, eq_comm]⟩⟩
  | pixel x y r g b =>
    simp only [producerWrite] at h
    split at h
    · cases e : pixelIndex s.cfg x y with
      | none =>
        simp only [writePixel, e] at h
        cases h
        exact ⟨⟨[], by simp, rfl, by simp [ProducerWrite.address, e]⟩,
          fun hw => ⟨hw, fun k => by simp [windowByte, storedByte, e]⟩⟩
      | some idx =>
        have ha : (ProducerWrite.pixel x y r g b).address s.cfg = some (idx / 2) := by simp [ProducerWrite.address, e]
        simp only [writePixel, e] at h
        obtain ⟨h1, h2⟩ := storeByte_spec h
        rw [record_trace, List.append_assoc] at h1
        refine ⟨⟨_, h1, rfl, by rw [List.filterMap_cons_some ha]; rfl⟩, fun hw => ⟨(h2 hw).1, fun k => ?_⟩⟩
        rw [(h2 hw).2]
        simp only [windowByte, storedByte, e, List.foldl_cons, List.foldl_nil]
        by_cases hk : k = idx / 2
        · subst hk
          rw [if_pos rfl, if_pos rfl]
        · rw [if_neg hk, if_neg fun he => hk he.symm]
          rfl
    · exact absurd h (by simp)

/-- A legal write under a legal configuration is carried out (R61, R250). -/
theorem producerWrite_next {w : ProducerWrite} {s : State} (hc : configProblem s.cfg = none)
    (hw : writeLegal s.cfg w = true) : ∃ t, producerWrite w s = .next t := by
  cases w with
  | byte addr v =>
    rcases storeByte_cases addr.toNat v s with ⟨_, e⟩ | ⟨hk, _⟩
    · exact ⟨_, e⟩
    · exact absurd (of_decide_eq_true hw) hk
  | pixel x y r g b =>
    have hq : s.cfg.quantPresent = true := hw
    rcases pixelIndex_cases s.cfg x y with ⟨_, e, hlt⟩ | ⟨_, e⟩
    · have hN : s.bufferLen = sixColorLength s.cfg := ((configProblem_eq_none_iff _).1 hc).bufferLength
      set idx := y.toNat * s.cfg.width.toNat + x.toNat with hidx
      rcases storeByte_cases (idx / 2) (packNibble idx (s.fbByte (idx / 2)) (quantize s.cfg r g b))
        (record (.fbRead (idx / 2) (s.fbByte (idx / 2))) s) with ⟨_, e'⟩ | ⟨hk, _⟩
      · exact ⟨_, by simp only [producerWrite, hq, if_true, writePixel, e]; exact e'⟩
      · refine absurd ?_ hk
        show idx / 2 < s.bufferLen
        rw [hN]
        simp only [sixColorLength]
        omega
    · exact ⟨s, by simp [producerWrite, hq, writePixel, e]⟩

/-- The writes of a window, said once. -/
theorem producerWrites_spec {ws : List ProducerWrite} {s t : State} (h : producerWrites ws s = .next t) :
    Written ws s t := by
  induction ws generalizing s with
  | nil =>
    cases h
    exact ⟨⟨[], by simp, rfl, rfl⟩, fun hw => ⟨hw, fun _ => rfl⟩⟩
  | cons w ws ih =>
    obtain ⟨u, hu, ht⟩ := thenDo_eq_next h
    have h1 := producerWrite_spec hu
    have h2 := ih ht
    obtain ⟨es, e, hes, ha⟩ := h1.same
    obtain ⟨es', e', hes', ha'⟩ := h2.same
    refine ⟨⟨es ++ es', ?_, by simp [hes, hes'], ?_⟩, fun hw => ?_⟩
    · rw [e']
      rw [e, List.append_assoc]
    · rw [List.filterMap_append, ha, ha', h1.cfg, ← List.filterMap_append]
      rfl
    · obtain ⟨hw1, hk1⟩ := h1.memory hw
      obtain ⟨hw2, hk2⟩ := h2.memory hw1
      exact ⟨hw2, fun k => by rw [hk2, hk1, h1.cfg]; rfl⟩

theorem producerWrites_next {ws : List ProducerWrite} {s : State} (hc : configProblem s.cfg = none)
    (hw : ws.all (writeLegal s.cfg) = true) : ∃ t, producerWrites ws s = .next t := by
  induction ws generalizing s with
  | nil => exact ⟨s, rfl⟩
  | cons w ws ih =>
    simp only [List.all_cons, Bool.and_eq_true] at hw
    obtain ⟨u, hu⟩ := producerWrite_next hc hw.1
    have hcfg : u.cfg = s.cfg := (producerWrite_spec hu).cfg
    obtain ⟨t, ht⟩ := ih (s := u) (by rw [hcfg]; exact hc) (by rw [hcfg]; exact hw.2)
    exact ⟨t, by rw [producerWrites, hu]; exact ht⟩

/-- InvokeProducer, said once (R131): the window's writes between its two marks in the trace, then done, or the step held
open by the producer. -/
theorem invokeProducer_spec {s t : State} (h : invokeProducer s = .next t) :
    t = { s with fb := t.fb, producer := s.producer.tail, hang := t.hang, trace := t.trace } ∧
      (s.fbWf = true → t.fbWf = true ∧
        ∀ k, t.fbByte k = windowByte s.cfg k s.nextRun.writes (s.fbByte k)) ∧
      ∃ es, es.all isFbAccess = true ∧
        es.filterMap storedAddress? = s.nextRun.writes.filterMap (·.address s.cfg) ∧
        ((s.nextRun.done = true ∧ t.hang = s.hang ∧
            t.trace = s.trace ++ .producerStart :: es ++ [.producerDone]) ∨
          (s.nextRun.done = false ∧ t.hang = some .producer ∧ t.trace = s.trace ++ .producerStart :: es)) := by
  obtain ⟨u, hu, ht⟩ := thenDo_eq_next h
  obtain ⟨⟨es, e, hes, ha⟩, hmem⟩ := producerWrites_spec hu
  cases hd : s.nextRun.done with
  | true =>
    rw [hd] at ht
    cases ht
    refine ⟨?_, hmem, es, hes, ha, .inl ⟨rfl, by rw [e]; rfl, by rw [e]; simp⟩⟩
    rw [e]
    rfl
  | false =>
    rw [hd] at ht
    cases ht
    refine ⟨?_, hmem, es, hes, ha, .inr ⟨rfl, rfl, by rw [e]; simp⟩⟩
    rw [e]
    rfl

end Sys2Proof.Machine
end

