-- ==== Sys2Proof/Laws/Panel.lean ====
section
/-! SUPPORT. The state dispatches of the panel control FSM, said once each: which fields a dispatch writes, and how it
ends. -/

namespace Sys2Proof.Machine

open Sys2Proof.Safety

/-! ### The transition function and the reset step -/

/-- A transition, said once (R140, R104): the control registers, and the clock sample of an armed delay. -/
theorem transition_cases (c : StateCode) (d : Word) (s : State) :
    ∃ (dl v : Word) (script samples : List Word), transition c d s =
      { s with
        state := c.code, deadline := dl, waitIdle := c.wait, nowMs := v, nowScript := script,
        trace := s.trace ++ samples.map .clock } := by
  by_cases h : d = 0
  · exact ⟨0, s.nowMs, s.nowScript, [], by subst h; simp⟩
  · refine ⟨(now { s with state := c.code }).1 + d, (now { s with state := c.code }).1, s.nowScript.tail,
      [(now { s with state := c.code }).1], ?_⟩
    rw [transition, arm_of_ne h, now_snd]
    rfl

/-- ResetStep, said once (R161). -/
theorem resetStep_cases (s : State) :
    (s.cfg.resetPresent = false ∧ resetStep s = (true, s)) ∨
      (s.cfg.resetPresent = true ∧ s.expectLow = true ∧ resetStep s =
        (false, { s with rstQ := false, expectLow := false, trace := s.trace ++ [.resetLine false] })) ∨
      (s.cfg.resetPresent = true ∧ s.expectLow = false ∧ resetStep s =
        (decide (s.resetCount + 1 = s.cfg.resetCycles),
          { s with
            rstQ := true, expectLow := true, resetCount := s.resetCount + 1,
            trace := s.trace ++ [.resetLine true] })) := by
  cases hp : s.cfg.resetPresent with
  | false => exact .inl ⟨rfl, by simp [resetStep, hp]⟩
  | true =>
    cases he : s.expectLow with
    | true => exact .inr (.inl ⟨rfl, rfl, by simp [resetStep, hp, he, setResetLine, record]⟩)
    | false => exact .inr (.inr ⟨rfl, rfl, by simp [resetStep, hp, he, setResetLine, record]⟩)

/-- The dispatch of RESET or RESET_END, said once (R130): on to UPDATE without a line or at the last cycle's end; to the
other half of the pulse otherwise. -/
theorem resetPhase_cases (other : StateCode) (s : State) :
    (s.cfg.resetPresent = false ∧ resetPhase other s = transition .update 0 s) ∨
      (s.cfg.resetPresent = true ∧ s.expectLow = true ∧ resetPhase other s =
        transition other s.cfg.resetDurationMs
          { s with rstQ := false, expectLow := false, trace := s.trace ++ [.resetLine false] }) ∨
      (s.cfg.resetPresent = true ∧ s.expectLow = false ∧ s.resetCount + 1 ≠ s.cfg.resetCycles ∧ resetPhase other s =
        transition other s.cfg.resetDurationMs
          { s with
            rstQ := true, expectLow := true, resetCount := s.resetCount + 1,
            trace := s.trace ++ [.resetLine true] }) ∨
      (s.cfg.resetPresent = true ∧ s.expectLow = false ∧ s.resetCount + 1 = s.cfg.resetCycles ∧ resetPhase other s =
        transition .update 0
          { s with
            rstQ := true, expectLow := true, resetCount := s.resetCount + 1,
            trace := s.trace ++ [.resetLine true] }) := by
  rcases resetStep_cases s with ⟨hp, e⟩ | ⟨hp, he, e⟩ | ⟨hp, he, e⟩
  · exact .inl ⟨hp, by simp [resetPhase, e]⟩
  · exact .inr (.inl ⟨hp, he, by simp [resetPhase, e]⟩)
  · by_cases hc : s.resetCount + 1 = s.cfg.resetCycles
    · exact .inr (.inr (.inr ⟨hp, he, hc, by rw [resetPhase, e, decide_eq_true hc]; rfl⟩))
    · exact .inr (.inr (.inl ⟨hp, he, hc, by rw [resetPhase, e, decide_eq_false hc]; rfl⟩))

/-! ### The parameterised phases -/

/-- A parameterised phase, said once (R134 to R138): its operations and the transition, or a step held open by the
transport. -/
theorem phaseStep_cases (p : Phase) (next : StateCode) {s : State} (h : s.hang = none) :
    (∃ tl, (s.transportLeft = none → tl = none) ∧ phaseStep p next s =
        transition next (s.cfg.phaseDelayMs.get p)
          { s with transportLeft := tl, trace := s.trace ++ (s.cfg.phaseOps.get p).map .emit }) ∨
      (s.transportLeft ≠ none ∧ ∃ tl part, part <+: s.cfg.phaseOps.get p ∧ phaseStep p next s =
        { s with hang := some .transport, transportLeft := tl, trace := s.trace ++ part.map .emit }) := by
  rcases (emits_emitAll (s.cfg.phaseOps.get p) h).cases h with ⟨tl, e, htl⟩ | ⟨ht, tl, part, hp, e⟩
  · exact .inl ⟨tl, htl, by rw [phaseStep, e]; exact andThen_of_running _ h⟩
  · exact .inr ⟨ht, tl, part, hp, by rw [phaseStep, e, andThen_of_held _ (by simp)]⟩

/-! ### UPDATE -/

/-- UPDATE, said once (R131): the window's writes, then INITIALISE, or a step held open by the producer. -/
theorem execStateUpdate_cases {s t : State} (hh : s.hang = none) (h : execStateUpdate s = .next t) :
    (s.fbWf = true → t.fbWf = true ∧
        ∀ k, t.fbByte k = windowByte s.cfg k s.nextRun.writes (s.fbByte k)) ∧
      ∃ fb' es, es.all isFbAccess = true ∧
        es.filterMap storedAddress? = s.nextRun.writes.filterMap (·.address s.cfg) ∧
        ((s.nextRun.done = true ∧ t =
            { s with
              state := StateCode.initialise.code, deadline := 0, waitIdle := true, fb := fb',
              producer := s.producer.tail, trace := s.trace ++ .producerStart :: es ++ [.producerDone] }) ∨
          (s.nextRun.done = false ∧ t =
            { s with
              hang := some .producer, fb := fb', producer := s.producer.tail,
              trace := s.trace ++ .producerStart :: es })) := by
  obtain ⟨u, hu, ht⟩ := thenDo_eq_next h
  obtain ⟨hsame, hmem, es, hes, ha, hend⟩ := invokeProducer_spec hu
  cases ht
  rcases hend with ⟨hd, hhang, htr⟩ | ⟨hd, hhang, htr⟩
  · have e : u.andThen (transition .initialise 0) = transition .initialise 0 u :=
      andThen_of_running _ (hhang.trans hh)
    rw [e]
    refine ⟨hmem, u.fb, es, hes, ha, .inl ⟨hd, ?_⟩⟩
    rw [hhang, htr] at hsame
    rw [show transition .initialise 0 u = _ from transition_zero _ u]
    conv_lhs => rw [hsame]
    rfl
  · have e : u.andThen (transition .initialise 0) = u := andThen_of_held _ (by simp [hhang])
    rw [e]
    refine ⟨hmem, u.fb, es, hes, ha, .inr ⟨hd, ?_⟩⟩
    rw [hhang, htr] at hsame
    exact hsame

/-- UPDATE with legal writes completes (R131, R61). -/
theorem execStateUpdate_next {s : State} (hc : configProblem s.cfg = none)
    (hw : s.nextRun.writes.all (writeLegal s.cfg) = true) : ∃ t, execStateUpdate s = .next t := by
  obtain ⟨u, hu⟩ :=
    producerWrites_next (s := record .producerStart { s with producer := s.producer.tail }) hc hw
  rw [execStateUpdate, invokeProducer, hu]
  exact ⟨_, rfl⟩

/-! ### INITIALISE -/

/-- INITIALISE, said once (R132): the interpretation from offset 0, then TRANSFER_DATA when it was ok. -/
theorem execStateInitialise_cases {s : State} (h : s.hang = none) (hL : s.initLen ≤ 65535) :
    ∃ (b : Bool) (t : State),
      execStateInitialise s =
        .next (if b then { t with state := StateCode.transferData.code, deadline := 0, waitIdle := true } else t) ∧
      t = { s with
        idx := t.idx, sleepStart := t.sleepStart, transportLeft := t.transportLeft, hang := t.hang, nowMs := t.nowMs,
        nowScript := t.nowScript, trace := t.trace, failed := t.failed, faultCode := t.faultCode,
        faultIndex := t.faultIndex, active := t.active, response := t.response } ∧
      (∃ es, t.trace = s.trace ++ es ∧ .hardwareReset ∉ es ∧ (es.filterMap Event.op?).all isEntryOp = true) ∧
      t.idx.toNat ≤ s.initLen ∧ InterpretEnd s (b, t) := by
  obtain ⟨b, t, hr, hsame, htr, hi, hend⟩ :=
    interpretLoop_spec s.initLen (s := { s with idx := 0 }) h (by simp) hL (by simp; exact le_rfl)
  refine ⟨b, t, ?_, hsame, htr, hi, ?_⟩
  · have : interpret s = (b, t) := hr
    rw [execStateInitialise, this]
    cases b <;> rfl
  · cases hend with
    | ok hang idx regs => exact .ok hang idx regs
    | failed hang regs => exact .failed hang regs
    | held hang regs => exact .held hang regs

/-! ### TRANSFER_DATA -/

/-- A beginning of a legal operation sequence is legal (R93). -/
theorem phaseAfter_isSome_of_prefix {o : Bool} {a b : List TransportOp} (h : a <+: b)
    (hb : (phaseAfter o b).isSome = true) : (phaseAfter o a).isSome = true := by
  obtain ⟨c, rfl⟩ := h
  rw [phaseAfter_append] at hb
  cases ha : phaseAfter o a with
  | none => simp [ha] at hb
  | some _ => rfl

/-- Inside a data phase any number of DATA operations may stand (R93). -/
theorem phaseAfter_data (blocks : List (List Byte)) (rest : List TransportOp) :
    phaseAfter true (blocks.map .data ++ rest) = phaseAfter true rest := by
  induction blocks with
  | nil => rfl
  | cons b blocks ih => simpa [phaseAfter] using ih

/-- How a Transfer call from `s` ends in `t`, with the blocks it sent and its actions. -/
inductive TransferEnd (s : State) : Bool → State → List (List Byte) → List Event → Prop where
  /-- At the buffer's end (R216), with no budget check exceeded. -/
  | finished {t : State} {blocks : List (List Byte)} {es : List Event} (hang : t.hang = none)
      (stage : t.stage = []) (cursor : t.cursor = 0)
      (issued : es.filterMap Event.op? = openingOps s ++ (blocks.map .data ++ [.dataEnd]))
      (sampled : es.filterMap Event.sample? = (List.range (fullBlocks s blocks)).map (sampleAt s))
      (bytes : blocks.flatten = bufferBytes s s.cursor.toNat s.bufferLen)
      (full : ∀ b ∈ blocks.dropLast, b.length = s.stagingSize)
      (sized : ∀ b ∈ blocks, 1 ≤ b.length ∧ b.length ≤ s.stagingSize)
      (inBudget : ∀ j < fullBlocks s blocks, exceeded s.t0 (sampleAt s j) s.cfg.transferBudgetMs = false) :
      TransferEnd s true t blocks es
  /-- After the first full block whose budget check was exceeded (R215). -/
  | exceeded {t : State} {blocks : List (List Byte)} {es : List Event} (hang : t.hang = none)
      (stage : t.stage = []) (some : blocks ≠ [])
      (issued : es.filterMap Event.op? = openingOps s ++ (blocks.map .data ++ [.dataEnd]))
      (sampled : es.filterMap Event.sample? = (List.range blocks.length).map (sampleAt s))
      (bytes : blocks.flatten = bufferBytes s s.cursor.toNat t.cursor.toNat)
      (full : ∀ b ∈ blocks, b.length = s.stagingSize)
      (advanced : s.cursor.toNat + s.stagingSize ≤ t.cursor.toNat)
      (inBudget : ∀ j < blocks.length - 1, exceeded s.t0 (sampleAt s j) s.cfg.transferBudgetMs = false)
      (overBudget : exceeded s.t0 (sampleAt s (blocks.length - 1)) s.cfg.transferBudgetMs = true) :
      TransferEnd s false t blocks es
  /-- Held open by the transport (R287). -/
  | held {t : State} {blocks : List (List Byte)} {es : List Event} (hang : t.hang = some .transport)
      (wellFormed : (phaseAfter false (es.filterMap Event.op?)).isSome = true)
      (sized : (es.filterMap Event.op?).all (opSizeOk s.cfg.stagingSize.toNat) = true) : TransferEnd s false t blocks es

/-- Blocks of S bytes are all counted as full. -/
theorem fullBlocks_of_full {s : State} {blocks : List (List Byte)} (h : ∀ b ∈ blocks, b.length = s.stagingSize) :
    fullBlocks s blocks = blocks.length :=
  List.countP_eq_length.2 fun b hb => by simp [h b hb]

/-- A shorter block behind them is not. -/
theorem fullBlocks_append_short {s : State} {blocks : List (List Byte)} {last : List Byte}
    (h : ∀ b ∈ blocks, b.length = s.stagingSize) (hl : last.length < s.stagingSize) :
    fullBlocks s (blocks ++ [last]) = blocks.length := by
  have := fullBlocks_of_full h
  rw [fullBlocks] at this ⊢
  rw [List.countP_append, this]
  simp [Nat.ne_of_lt hl]

/-- Every sample is a value that the clock has still to show, the present one included. -/
theorem sampleAt_mem (s : State) (j : Nat) : sampleAt s j ∈ s.nowMs :: s.nowScript := by
  rw [sampleAt, List.getD_eq_getElem?_getD]
  cases h : s.nowScript[j]? with
  | some v => exact List.mem_cons_of_mem _ (List.mem_of_getElem? h)
  | none => exact List.getLastD_mem_cons

theorem openingOps_sized (s : State) (n : Nat) : (openingOps s).all (opSizeOk n) = true := by
  simp only [openingOps]
  split <;> simp [opSizeOk]

theorem phaseAfter_openingOps (s : State) (rest : List TransportOp) :
    phaseAfter false (openingOps s ++ rest) = phaseAfter true rest := by
  simp only [openingOps]
  split <;> rfl

theorem filterMap_emit (ops : List TransportOp) : (ops.map Event.emit).filterMap Event.op? = ops := by
  rw [List.filterMap_map]
  exact List.filterMap_some

@[simp] theorem sample?_emits (ops : List TransportOp) : (ops.map Event.emit).filterMap Event.sample? = [] := by
  rw [List.filterMap_map, List.filterMap_eq_nil_iff]
  exact fun _ _ => rfl

/-- One Transfer call, said once (R212): it returns, or is held open by the transport. -/
theorem transfer_cases {s : State} (hh : s.hang = none) (hS : s.cfg.stagingSize ≠ 0)
    (hc : s.cursor.toNat ≤ s.bufferLen) :
    ∃ (b : Bool) (t : State) (blocks : List (List Byte)) (es : List Event), transfer s = .next (b, t) ∧
      t = { s with
        cursor := t.cursor, stage := t.stage, transportLeft := t.transportLeft, hang := t.hang, nowMs := t.nowMs,
        nowScript := t.nowScript, trace := t.trace } ∧
      t.trace = s.trace ++ es ∧ .hardwareReset ∉ es ∧ t.cursor.toNat ≤ s.bufferLen ∧
      (s.transportLeft = none → t.hang = none ∧ t.transportLeft = none) ∧
      TransferEnd s b t blocks es := by
  have hpos : 0 < s.stagingSize := by
    have : s.cfg.stagingSize.toNat ≠ 0 := fun h => hS (by simpa using congrArg (BitVec.ofNat 8) h)
    exact Nat.pos_of_ne_zero this
  have hnr : ∀ l : List TransportOp, .hardwareReset ∉ l.map Event.emit := by simp
  have hopen : phaseAfter false (openingOps s) = some true := by
    have := phaseAfter_openingOps s []
    rwa [List.append_nil] at this
  rcases transferOpen_cases hh with ⟨tl, eo, htl⟩ | ⟨ht, tl, part, hp, eo⟩
  swap
  · refine ⟨false, { s with hang := some .transport, transportLeft := tl, trace := s.trace ++ part.map .emit }, [],
      part.map .emit, ?_, rfl, rfl, hnr _, hc, fun h => absurd h ht, ?_⟩
    · rw [transfer, eo]
      rfl
    · refine .held rfl (by rw [filterMap_emit]; exact phaseAfter_isSome_of_prefix hp (by rw [hopen]; rfl)) ?_
      rw [filterMap_emit]
      have hall := openingOps_sized s s.cfg.stagingSize.toNat
      rw [List.all_eq_true] at hall ⊢
      exact fun x hx => hall x (hp.subset hx)
  set o : State := { s with transportLeft := tl, stage := [], trace := s.trace ++ (openingOps s).map .emit } with ho
  obtain ⟨b, u, blocks, hl, hsame, hge, hle, hlen, hcomp, hend⟩ :=
    transferLoop_spec (o.bufferLen - o.cursor.toNat) o hh rfl hc hpos
  have hlen : ∀ x ∈ blocks, x.length = s.stagingSize := hlen
  have hle : u.cursor.toNat ≤ s.bufferLen := hle
  have hgo : transfer s =
      if b then .next ((transferClose u).hang.isNone, transferClose u) else .next (false, u) := by
    rw [transfer, eo]
    have : o.hang = none := hh
    simp only [this, Option.isSome_none, Bool.false_eq_true, if_false]
    rw [hl]
    rfl
  have hsized : ∀ x ∈ blocks, 1 ≤ x.length ∧ x.length ≤ s.stagingSize := fun x hx => by
    have := hlen x hx
    omega
  have hsizedOps : (openingOps s ++ blocks.map TransportOp.data).all (opSizeOk s.cfg.stagingSize.toNat) = true := by
    rw [List.all_append, openingOps_sized, Bool.true_and, List.all_eq_true]
    rintro _ hx
    obtain ⟨x, hx', rfl⟩ := List.mem_map.1 hx
    obtain ⟨h1, h2⟩ := hsized x hx'
    rw [opSizeOk, decide_eq_true h1, decide_eq_true (show x.length ≤ s.cfg.stagingSize.toNat from h2)]
    rfl
  have hphase : phaseAfter false (openingOps s ++ blocks.map TransportOp.data) = some true := by
    rw [phaseAfter_openingOps]
    have := phaseAfter_data blocks []
    rwa [List.append_nil] at this
  have hcore : u = { s with
      cursor := u.cursor, stage := u.stage, transportLeft := u.transportLeft, hang := u.hang, nowMs := u.nowMs,
      nowScript := u.nowScript, trace := u.trace } := hsame
  have hheld : ∀ es, u.trace = o.trace ++ es → Event.hardwareReset ∉ es →
      (∃ x y, es.filterMap Event.op? = blocks.map .data ++ x ∧ (phaseAfter true (x ++ y)).isSome = true ∧
        x.all (opSizeOk s.cfg.stagingSize.toNat) = true) →
      u.trace = s.trace ++ ((openingOps s).map .emit ++ es) ∧
        .hardwareReset ∉ (openingOps s).map Event.emit ++ es ∧
        (phaseAfter false (((openingOps s).map Event.emit ++ es).filterMap Event.op?)).isSome = true ∧
        (((openingOps s).map Event.emit ++ es).filterMap Event.op?).all (opSizeOk s.cfg.stagingSize.toNat) = true := by
    rintro es htr hes ⟨x, y, hx, hxp, hxs⟩
    refine ⟨by rw [htr, ho, List.append_assoc], by simp [hes], ?_, ?_⟩
    · rw [List.filterMap_append, filterMap_emit, hx, ← List.append_assoc, phaseAfter_append, hphase]
      exact phaseAfter_isSome_of_prefix (List.prefix_append x y) hxp
    · rw [List.filterMap_append, filterMap_emit, hx, ← List.append_assoc, List.all_append, hsizedOps, hxs]
      rfl
  cases hend with
  | finished hang cursor bytes staged inBudget ops =>
    obtain ⟨es, htr, hes, hops, hsamples⟩ := ops
    have bytes : blocks.flatten ++ u.stage = bufferBytes s s.cursor.toNat s.bufferLen := bytes
    have staged : u.stage.length < s.stagingSize := staged
    have hclose : u.stage ≠ [] → 1 ≤ u.stage.length := fun h => List.length_pos_iff.2 h
    have hclosing : closingOps u = (if u.stage = [] then [] else [TransportOp.data u.stage]) ++ [.dataEnd] := by
      by_cases hst : u.stage = [] <;> simp [closingOps, hst]
    obtain ⟨es', hes', hsamples', hc⟩ := transferClose_cases hang
    rcases hc with ⟨tl', ec, hops', htl'⟩ | ⟨ht', tl', stage, hp, ec⟩
    · have hexec : transfer s = .next (true,
          { u with transportLeft := tl', stage := [], cursor := 0, trace := u.trace ++ es' }) := by
        rw [hgo, if_pos rfl, ec]
        simp only [hang, Option.isNone_none]
      refine ⟨true, _, if u.stage = [] then blocks else blocks ++ [u.stage],
        (openingOps s).map .emit ++ es ++ es', hexec, ?_, ?_, by simp [hes, hes'], by simp,
        fun h => ⟨hang, htl' (hcomp (htl h)).2⟩, ?_⟩
      · conv_lhs => rw [hcore]
      · rw [htr, ho]
        simp
      · have hfull : fullBlocks s (if u.stage = [] then blocks else blocks ++ [u.stage]) = blocks.length := by
          by_cases hst : u.stage = []
          · rw [if_pos hst, fullBlocks_of_full hlen]
          · rw [if_neg hst, fullBlocks_append_short hlen staged]
        refine .finished hang rfl rfl ?_ ?_ ?_ ?_ ?_ ?_
        · rw [List.filterMap_append, List.filterMap_append, filterMap_emit, hops, hops', hclosing]
          by_cases hst : u.stage = [] <;> simp [hst]
        · rw [List.filterMap_append, List.filterMap_append, sample?_emits, hsamples, hsamples', hfull, List.nil_append,
            List.append_nil]
          rfl
        · by_cases hst : u.stage = [] <;> simp [hst, ← bytes]
        · by_cases hst : u.stage = []
          · rw [if_pos hst]
            exact fun x hx => hlen x (List.dropLast_subset _ hx)
          · rw [if_neg hst, List.dropLast_concat]
            exact hlen
        · by_cases hst : u.stage = []
          · rw [if_pos hst]
            exact hsized
          · rw [if_neg hst]
            intro x hx
            rcases List.mem_append.1 hx with hx | hx
            · exact hsized x hx
            · rw [List.mem_singleton.1 hx]
              exact ⟨hclose hst, le_of_lt staged⟩
        · rw [hfull]
          exact inBudget
    · have hexec : transfer s = .next (false,
          { u with hang := some .transport, transportLeft := tl', stage := stage, trace := u.trace ++ es' }) := by
        rw [hgo, if_pos rfl, ec]
        rfl
      have hsz : (es'.filterMap Event.op?).all (opSizeOk s.cfg.stagingSize.toNat) = true := by
        rw [List.all_eq_true]
        intro x hx
        have := hp.subset hx
        simp only [closingOps] at this
        split at this
        · rw [List.mem_singleton.1 this]
          rfl
        · rename_i hst
          have h1 := hclose hst
          have h2 : u.stage.length ≤ s.cfg.stagingSize.toNat := le_of_lt staged
          rcases List.mem_cons.1 this with rfl | this
          · rw [opSizeOk, decide_eq_true h1, decide_eq_true h2]
            rfl
          · rw [List.mem_singleton.1 this]
            rfl
      refine ⟨false, _, blocks, (openingOps s).map .emit ++ es ++ es', hexec, ?_, ?_, by simp [hes, hes'], hle,
        fun h => absurd (hcomp (htl h)).2 ht', ?_⟩
      · conv_lhs => rw [hcore]
      · rw [htr, ho]
        simp
      · refine .held rfl ?_ ?_
        · rw [List.filterMap_append, List.filterMap_append, filterMap_emit, hops, phaseAfter_append, hphase]
          refine phaseAfter_isSome_of_prefix hp ?_
          by_cases hst : u.stage = [] <;> simp [closingOps, hst, phaseAfter]
        · rw [List.filterMap_append, List.filterMap_append, filterMap_emit, hops, List.all_append, hsizedOps, hsz]
          rfl
  | exceeded hang staged bytes advanced inBudget overBudget some ops =>
    obtain ⟨es, htr, hes, hops, hsamples⟩ := ops
    have hexec : transfer s = .next (false, u) := hgo
    obtain ⟨g1, g2, g3, g4⟩ := hheld es htr hes ⟨[.dataEnd], [], hops, rfl, rfl⟩
    refine ⟨false, u, blocks, (openingOps s).map .emit ++ es, hexec, ?_, g1, g2, hle, fun h => hcomp (htl h), ?_⟩
    · conv_lhs => rw [hcore]
    · rcases hang with hang | hang
      · refine .exceeded hang staged some ?_ ?_ bytes hlen ?_ inBudget overBudget
        · rw [List.filterMap_append, filterMap_emit, hops]
        · rw [List.filterMap_append, sample?_emits, hsamples]
          rfl
        · exact advanced
      · exact .held hang g3 g4
  | held hang ops =>
    obtain ⟨es, htr, hes, hops⟩ := ops
    have hexec : transfer s = .next (false, u) := hgo
    obtain ⟨g1, g2, g3, g4⟩ := hheld es htr hes ⟨[], [], by simpa using hops, rfl, rfl⟩
    refine ⟨false, u, blocks, (openingOps s).map .emit ++ es, hexec, ?_, g1, g2, hle, fun h => hcomp (htl h), ?_⟩
    · conv_lhs => rw [hcore]
    · exact .held hang g3 g4

/-- A TRANSFER_DATA dispatch is its Transfer call, and POWER_ON when that is done (R133). -/
theorem execStateTransferData_eq {s t : State} {b : Bool} (h : transfer s = .next (b, t)) :
    execStateTransferData s =
      .next (if b then { t with state := StateCode.powerOn.code, deadline := 0, waitIdle := true } else t) := by
  rw [execStateTransferData, h]
  cases b <;> rfl

end Sys2Proof.Machine
end

