-- ==== Sys2Proof/Laws/Frame.lean ====
section
/-! SUPPORT. What every instruction keeps, whatever state it runs in: the configuration, the frame buffer's list (but for
UPDATE), and the trace as a beginning of the new one. -/

namespace Sys2Proof.Machine

/-- `t` keeps the configuration and the frame buffer of `s`, adds to its trace, and has its response or one that ends an
ADVANCE early. -/
structure Keeps (s t : State) : Prop where
  cfg : t.cfg = s.cfg
  fb : t.fb = s.fb
  fbAllocated : t.fbAllocated = s.fbAllocated
  trace : ∃ es, t.trace = s.trace ++ es
  response : t.response = s.response ∨ t.response = some .faulted ∨ t.response = some .halted

theorem Keeps.refl (s : State) : Keeps s s := ⟨rfl, rfl, rfl, ⟨[], by simp⟩, .inl rfl⟩

theorem Keeps.trans {s t u : State} (h : Keeps s t) (h' : Keeps t u) : Keeps s u := by
  obtain ⟨es, he⟩ := h.trace
  obtain ⟨es', he'⟩ := h'.trace
  refine ⟨h'.cfg.trans h.cfg, h'.fb.trans h.fb, h'.fbAllocated.trans h.fbAllocated, ⟨es ++ es', ?_⟩, ?_⟩
  · rw [he', he, List.append_assoc]
  · rcases h'.response with r | r
    · rw [r]
      exact h.response
    · exact .inr r

/-- The bytes of the frame buffer are kept with its list. -/
theorem Keeps.fbRead {s t : State} (h : Keeps s t) (k : Nat) : fbRead t k = fbRead s k := by
  have hd : t.fbDefault = s.fbDefault := by
    funext j
    simp only [State.fbDefault, h.cfg, h.fbAllocated]
  simp only [Machine.fbRead, State.bufferLen, State.fbByte, hd, h.cfg, h.fb]
  rfl

theorem keeps_now (s : State) : Keeps s (now s).2 := by
  rw [now_snd]
  exact ⟨rfl, rfl, rfl, ⟨_, rfl⟩, .inl rfl⟩

theorem keeps_recordAll (es : List Event) (s : State) : Keeps s (recordAll es s) :=
  ⟨rfl, rfl, rfl, ⟨es, rfl⟩, .inl rfl⟩

theorem keeps_stageByte (v : Byte) (s : State) : Keeps s (stageByte v s) := ⟨rfl, rfl, rfl, ⟨_, rfl⟩, .inl rfl⟩

theorem keeps_emit (op : TransportOp) (s : State) : Keeps s (emit op s) := by
  rcases emit_cases op s with ⟨_, e⟩ | ⟨_, _, e⟩ | ⟨_, _, e⟩ | ⟨n, _, _, e⟩ <;> rw [e]
  · exact Keeps.refl s
  all_goals exact ⟨rfl, rfl, rfl, ⟨_, rfl⟩, .inl rfl⟩

theorem keeps_emitAll (ops : List TransportOp) (s : State) : Keeps s (emitAll ops s) := by
  induction ops generalizing s with
  | nil => exact Keeps.refl s
  | cons op ops ih => exact (keeps_emit op s).trans (ih _)

theorem keeps_andThen {f : State → State} (h : ∀ t, Keeps t (f t)) (s : State) : Keeps s (s.andThen f) := by
  rcases andThen_cases s f with ⟨_, e⟩ | ⟨_, e⟩ <;> rw [e]
  · exact h s
  · exact Keeps.refl s

theorem keeps_transition (c : StateCode) (d : Word) (s : State) : Keeps s (transition c d s) := by
  obtain ⟨_, _, _, _, e⟩ := transition_cases c d s
  rw [e]
  exact ⟨rfl, rfl, rfl, ⟨_, rfl⟩, .inl rfl⟩

theorem keeps_resetPhase (other : StateCode) (s : State) : Keeps s (resetPhase other s) := by
  rcases resetPhase_cases other s with ⟨_, e⟩ | ⟨_, _, e⟩ | ⟨_, _, _, e⟩ | ⟨_, _, _, e⟩ <;> rw [e]
  · exact keeps_transition _ _ s
  all_goals
    refine Keeps.trans ?_ (keeps_transition _ _ _)
    exact ⟨rfl, rfl, rfl, ⟨_, rfl⟩, .inl rfl⟩

theorem keeps_phaseStep (p : Phase) (next : StateCode) (s : State) : Keeps s (phaseStep p next s) :=
  (keeps_emitAll _ s).trans (keeps_andThen (keeps_transition _ _) _)

theorem keeps_raiseFault (cause : FaultCause) (info : BitVec 16) (s : State) : Keeps s (raiseFault cause info s) :=
  ⟨rfl, rfl, rfl, ⟨_, rfl⟩, .inr (.inl rfl)⟩

theorem keeps_unknownHalt (s : State) : Keeps s (unknownHalt s) := ⟨rfl, rfl, rfl, ⟨_, rfl⟩, .inr (.inr rfl)⟩

theorem keeps_entryDelay (t : Byte) (s : State) : Keeps s (entryDelay t s).2 := by
  obtain ⟨_, _, _, _, e | e⟩ := entryDelay_cases t s <;> rw [e] <;> exact ⟨rfl, rfl, rfl, ⟨_, rfl⟩, .inl rfl⟩

theorem keeps_commandEntry (c : Byte) (n : BitVec 7) (s : State) : Keeps s (commandEntry c n s).2 := by
  unfold commandEntry
  split
  · exact keeps_raiseFault _ _ s
  · have h := (keeps_recordAll (payloadReads n.toNat s) s).trans (keeps_emit (.command c (s.payload n.toNat)) _)
    simp only
    split
    · exact h
    · exact h.trans ⟨rfl, rfl, rfl, ⟨[], by simp⟩, .inl rfl⟩

theorem keeps_runEntry (e : Entry) (s : State) : Keeps s (runEntry e s).2 := by
  cases e with
  | delay t => exact keeps_entryDelay t s
  | cmd c n => exact keeps_commandEntry c n s
  | cmdB7 c n => exact keeps_commandEntry c n s

theorem keeps_interpretLoop (fuel : Nat) (s : State) : Keeps s (interpretLoop fuel s).2 := by
  induction fuel generalizing s with
  | zero => exact Keeps.refl s
  | succ fuel ih =>
    rw [interpretLoop]
    split
    · exact Keeps.refl s
    · split
      · exact keeps_raiseFault _ _ s
      · simp only
        split
        · exact ((keeps_recordAll _ s).trans (keeps_runEntry _ _)).trans (ih _)
        · exact (keeps_recordAll _ s).trans (keeps_runEntry _ _)

theorem keeps_flush (s : State) : Keeps s (flush s) :=
  ((keeps_recordAll _ s).trans (keeps_emit _ _)).trans
    (keeps_andThen (f := fun t => { t with stage := [] }) (fun _ => ⟨rfl, rfl, rfl, ⟨[], by simp⟩, .inl rfl⟩) _)

theorem keeps_transferLoop (fuel : Nat) {s : State} {r : Bool × State} (h : transferLoop fuel s = .next r) :
    Keeps s r.2 := by
  induction fuel generalizing s with
  | zero =>
    rw [transferLoop] at h
    split at h <;> cases h
    exact Keeps.refl s
  | succ fuel ih =>
    rw [transferLoop] at h
    split at h
    · cases h
      exact Keeps.refl s
    · split at h
      · cases h
      · rename_i v _
        have h1 := keeps_stageByte v s
        simp only at h
        split at h
        · split at h
          · cases h
            exact h1.trans (keeps_flush _)
          · split at h
            · cases h
              exact ((h1.trans (keeps_flush _)).trans (keeps_now _)).trans (keeps_emit _ _)
            · exact ((h1.trans (keeps_flush _)).trans (keeps_now _)).trans (ih h)
        · exact h1.trans (ih h)

theorem keeps_transferOpen (s : State) : Keeps s (transferOpen s) := by
  rw [transferOpen]
  refine Keeps.trans (Keeps.trans ?_ (keeps_emit _ _)) (keeps_andThen (f := fun t => { t with stage := [] })
    (fun _ => ⟨rfl, rfl, rfl, ⟨[], by simp⟩, .inl rfl⟩) _)
  split
  · exact keeps_emit _ s
  · exact Keeps.refl s

theorem keeps_transferClose (s : State) : Keeps s (transferClose s) := by
  rw [transferClose]
  refine Keeps.trans (Keeps.trans ?_ (keeps_emit _ _)) (keeps_andThen (f := fun t => { t with cursor := 0 })
    (fun _ => ⟨rfl, rfl, rfl, ⟨[], by simp⟩, .inl rfl⟩) _)
  split
  · exact Keeps.refl s
  · exact keeps_flush s

theorem keeps_transfer {s : State} {r : Bool × State} (h : transfer s = .next r) : Keeps s r.2 := by
  rw [transfer] at h
  split at h
  · cases h
    exact keeps_transferOpen s
  · obtain ⟨u, hu, h⟩ := thenDo_eq_next h
    have hk := (keeps_transferOpen s).trans (keeps_transferLoop _ hu)
    split at h <;> cases h
    · exact hk.trans (keeps_transferClose _)
    · exact hk

/-- Every dispatch but UPDATE's keeps the frame buffer; all of them keep the configuration. -/
theorem keeps_exec_dispatch {i : Instr} {s t : State} (h : exec i s = .next t) (hu : i ≠ .stateUpdate)
    (hb : i ≠ .beginCycle) (ha : i ≠ .advance) : Keeps s t := by
  cases i with
  | delay d => cases h; exact keeps_entryDelay d s
  | cmd c n => cases h; exact keeps_commandEntry c n s
  | cmdB7 c n => cases h; exact keeps_commandEntry c n s
  | beginCycle => exact absurd rfl hb
  | advance => exact absurd rfl ha
  | reqReserved => cases h
  | stateIdle => cases h; exact ⟨rfl, rfl, rfl, ⟨[], by simp⟩, .inl rfl⟩
  | stateReset => cases h; exact keeps_resetPhase _ s
  | stateResetEnd => cases h; exact keeps_resetPhase _ s
  | stateUpdate => exact absurd rfl hu
  | stateInitialise =>
    have hk : Keeps s (interpret s).2 :=
      Keeps.trans (t := { s with idx := 0 }) ⟨rfl, rfl, rfl, ⟨[], by simp⟩, .inl rfl⟩ (keeps_interpretLoop s.initLen _)
    have h : Host.Outcome.next (if (interpret s).1 then transition .transferData 0 (interpret s).2 else (interpret s).2) =
      .next t := h
    cases h
    split
    · exact hk.trans (keeps_transition _ _ _)
    · exact hk
  | stateTransferData =>
    obtain ⟨r, hr, h⟩ := thenDo_eq_next h
    cases h
    split
    · exact (keeps_transfer hr).trans (keeps_transition _ _ _)
    · exact keeps_transfer hr
  | statePowerOn => cases h; exact keeps_phaseStep _ _ s
  | statePostPowerOn => cases h; exact keeps_phaseStep _ _ s
  | stateRefreshScreen => cases h; exact keeps_phaseStep _ _ s
  | statePowerOff => cases h; exact keeps_phaseStep _ _ s
  | stateDeepSleep => cases h; exact keeps_phaseStep _ _ s
  | stateUnknown11 => cases h; exact keeps_unknownHalt s
  | stateUnknownHigh low => cases h; exact keeps_unknownHalt s

/-- UPDATE keeps everything but the frame buffer's list, the control registers and its inputs (R131). -/
theorem execStateUpdate_keeps {s t : State} (h : execStateUpdate s = .next t) :
    t.cfg = s.cfg ∧ t.fbAllocated = s.fbAllocated ∧ t.response = s.response ∧ ∃ es, t.trace = s.trace ++ es := by
  obtain ⟨u, hu, ht⟩ := thenDo_eq_next h
  obtain ⟨hsame, _, es, _, _, hend⟩ := invokeProducer_spec hu
  have htr : ∃ es, u.trace = s.trace ++ es := by
    rcases hend with ⟨_, _, e⟩ | ⟨_, _, e⟩
    · exact ⟨.producerStart :: es ++ [.producerDone], by rw [e, List.append_assoc]⟩
    · exact ⟨_, e⟩
  have hc : u.cfg = s.cfg ∧ u.fbAllocated = s.fbAllocated ∧ u.response = s.response := by
    rw [hsame]
    exact ⟨rfl, rfl, rfl⟩
  cases ht
  rcases andThen_cases u (transition .initialise 0) with ⟨_, e⟩ | ⟨_, e⟩ <;> rw [e]
  · exact ⟨hc.1, hc.2.1, hc.2.2, htr⟩
  · exact ⟨hc.1, hc.2.1, hc.2.2, htr⟩

end Sys2Proof.Machine
end

