-- ==== Sys2Proof/Laws/PerInstr.lean ====
section
/-! SUPPORT. One lemma per instruction: the code of every instruction lies in its own row of spec/opcode_table.json. -/

namespace Sys2Proof.Laws.TableRow

/-- The mask and the match value of an instruction's row in spec/opcode_table.json. -/
def rowOf : Instr → Nat × Nat
  | .delay _ => (0xff, 0xff)
  | .cmd _ _ => (0x80, 0x0)
  | .cmdB7 _ _ => (0x80, 0x80)
  | .beginCycle => (0x3, 0x1)
  | .advance => (0x3, 0x2)
  | .reqReserved => (0x3, 0x3)
  | .stateIdle => (0xf, 0x0)
  | .stateReset => (0xf, 0x1)
  | .stateResetEnd => (0xf, 0x2)
  | .stateUpdate => (0xf, 0x3)
  | .stateInitialise => (0xf, 0x4)
  | .stateTransferData => (0xf, 0x5)
  | .statePowerOn => (0xf, 0x6)
  | .statePostPowerOn => (0xf, 0x7)
  | .stateRefreshScreen => (0xf, 0x8)
  | .statePowerOff => (0xf, 0x9)
  | .stateDeepSleep => (0xf, 0xa)
  | .stateUnknown11 => (0xf, 0xb)
  | .stateUnknownHigh _ => (0xc, 0xc)

/-- The code, masked, is the row's match value. -/
def inRow (mask value : Nat) : Code → Bool
  | .header h => h &&& BitVec.ofNat 16 mask == BitVec.ofNat 16 value
  | .request c => c &&& BitVec.ofNat 2 mask == BitVec.ofNat 2 value
  | .state c => c &&& BitVec.ofNat 4 mask == BitVec.ofNat 4 value

/-- What is said of every instruction: its code lies in its row (R80, R89, R90). -/
def Statement (i : Instr) : Prop := inRow (rowOf i).1 (rowOf i).2 (encode i) = true

/-- A header word whose byte 1 is `x`, under a mask of byte 1. -/
theorem header_and (c x m : Byte) : (c ++ x : BitVec 16) &&& (0#8 ++ m) = (0#8 ++ (x &&& m) : BitVec 16) := by
  have h := (BitVec.and_append (x₁ := c) (x₂ := 0#8) (y₁ := x) (y₂ := m)).symm
  rw [BitVec.and_zero] at h
  exact h.symm

theorem delay (t : Byte) : Statement (.delay t) := by
  have h := header_and t 0xFF#8 0xFF#8
  simpa [Statement, inRow, encode, rowOf] using h

theorem cmd (c : Byte) (n : BitVec 7) : Statement (.cmd c n) := by
  have h := header_and c (0#1 ++ n) 0x80#8
  have hn : ∀ n : BitVec 7, (0#1 ++ n : Byte) &&& 0x80#8 = 0#8 := by decide
  rw [hn n] at h
  simpa [Statement, inRow, encode, rowOf] using h

theorem cmdB7 (c : Byte) (n : BitVec 7) : Statement (.cmdB7 c n) := by
  have h := header_and c (1#1 ++ n) 0x80#8
  have hn : ∀ n : BitVec 7, (1#1 ++ n : Byte) &&& 0x80#8 = 0x80#8 := by decide
  rw [hn n] at h
  simpa [Statement, inRow, encode, rowOf] using h

theorem beginCycle : Statement .beginCycle := rfl

theorem advance : Statement .advance := rfl

theorem reqReserved : Statement .reqReserved := rfl

theorem stateIdle : Statement .stateIdle := rfl

theorem stateReset : Statement .stateReset := rfl

theorem stateResetEnd : Statement .stateResetEnd := rfl

theorem stateUpdate : Statement .stateUpdate := rfl

theorem stateInitialise : Statement .stateInitialise := rfl

theorem stateTransferData : Statement .stateTransferData := rfl

theorem statePowerOn : Statement .statePowerOn := rfl

theorem statePostPowerOn : Statement .statePostPowerOn := rfl

theorem stateRefreshScreen : Statement .stateRefreshScreen := rfl

theorem statePowerOff : Statement .statePowerOff := rfl

theorem stateDeepSleep : Statement .stateDeepSleep := rfl

theorem stateUnknown11 : Statement .stateUnknown11 := rfl

theorem stateUnknownHigh (low : BitVec 2) : Statement (.stateUnknownHigh low) := by
  have h : ∀ l : BitVec 2, inRow 0xc 0xc (.state (3#2 ++ l)) = true := by decide
  exact h low

end Sys2Proof.Laws.TableRow
end

