-- ==== Sys2Proof/Laws/Requests.lean ====
section
/-! SUPPORT. The host requests and the step, said once each: how an ADVANCE passes or is held, what a step can do. -/

namespace Sys2Proof.Machine

open Sys2Proof.Safety

/-- The start sample of an ADVANCE, as an update (R125). -/
theorem sampleT0_eq (s : State) :
    sampleT0 s =
      { s with
        t0 := (now s).1, nowMs := (now s).1, nowScript := s.nowScript.tail,
        trace := s.trace ++ [.clock (now s).1] } := by
  simp only [sampleT0]
  rw [now_snd]

/-- The poll of the busy line, said once (R127): held with nothing but the sample taken, or passed with `wait_idle`
clear. -/
theorem busyHolds_cases (s : State) :
    (∃ lvl script, busyHolds s =
        (true, { s with busyIn := lvl, busyScript := script, trace := s.trace ++ [.busy lvl] })) ∨
      (∃ lvl script es, (es = [] ∨ es = [.busy lvl]) ∧ busyHolds s =
        (false, { s with waitIdle := false, busyIn := lvl, busyScript := script, trace := s.trace ++ es })) := by
  cases hw : s.waitIdle with
  | false =>
    refine .inr ⟨s.busyIn, s.busyScript, [], .inl rfl, ?_⟩
    obtain ⟨⟩ := s
    cases hw
    simp [busyHolds]
  | true =>
    rcases busyAsserted_cases s with ⟨_, e⟩ | ⟨_, e⟩
    · exact .inr ⟨s.busyIn, s.busyScript, [], .inl rfl, by simp [busyHolds, hw, e]⟩
    · cases hb : (s.busyScript.headD s.busyIn == s.cfg.busyActiveLevel) with
      | true => exact .inl ⟨_, _, by simp only [busyHolds, hw, if_true, e, hb]; rfl⟩
      | false => exact .inr ⟨_, _, _, .inr rfl, by simp only [busyHolds, hw, if_true, e, hb]; rfl⟩

/-- ADVANCE, said once (R122, R26, R27): ignored; held, with its samples taken and at most the deadline cleared; or
passed on to the dispatch with no deadline and `wait_idle` clear. -/
theorem execAdvance_cases (s : State) :
    ((s.failed = true ∨ s.active = false) ∧ execAdvance s = .next (respond .ignored s)) ∨
      (s.failed = false ∧ s.active = true ∧ execAdvance s = .next (respond .heldDelay (sampleT0 s))) ∨
      (∃ lvl script, s.failed = false ∧ s.active = true ∧ execAdvance s = .next (respond .heldBusy
        { sampleT0 s with
          deadline := 0, busyIn := lvl, busyScript := script, trace := (sampleT0 s).trace ++ [.busy lvl] })) ∨
      (∃ lvl script es, (es = [] ∨ es = [.busy lvl]) ∧ s.failed = false ∧ s.active = true ∧
        execAdvance s = dispatchAndRespond
          { sampleT0 s with
            deadline := 0, waitIdle := false, busyIn := lvl, busyScript := script,
            trace := (sampleT0 s).trace ++ es }) := by
  by_cases hg : (s.failed || !s.active) = true
  · refine .inl ⟨?_, by rw [execAdvance, if_pos hg]⟩
    simpa using hg
  · have hfa : s.failed = false ∧ s.active = true := by simpa using hg
    obtain ⟨hf, ha⟩ := hfa
    refine .inr ?_
    have he : execAdvance s =
        if (deadlineHolds (sampleT0 s).t0 (sampleT0 s)).1 = true then
          .next (respond .heldDelay (deadlineHolds (sampleT0 s).t0 (sampleT0 s)).2)
        else if (busyHolds (deadlineHolds (sampleT0 s).t0 (sampleT0 s)).2).1 = true then
          .next (respond .heldBusy (busyHolds (deadlineHolds (sampleT0 s).t0 (sampleT0 s)).2).2)
        else dispatchAndRespond (busyHolds (deadlineHolds (sampleT0 s).t0 (sampleT0 s)).2).2 := by
      rw [execAdvance, if_neg hg]
    have hpass : ∀ u : State, u = { sampleT0 s with deadline := 0 } →
        deadlineHolds (sampleT0 s).t0 (sampleT0 s) = (false, u) →
        (∃ lvl script, s.failed = false ∧ s.active = true ∧ execAdvance s = .next (respond .heldBusy
          { sampleT0 s with
            deadline := 0, busyIn := lvl, busyScript := script, trace := (sampleT0 s).trace ++ [.busy lvl] })) ∨
        (∃ lvl script es, (es = [] ∨ es = [.busy lvl]) ∧ s.failed = false ∧ s.active = true ∧
          execAdvance s = dispatchAndRespond
            { sampleT0 s with
              deadline := 0, waitIdle := false, busyIn := lvl, busyScript := script,
              trace := (sampleT0 s).trace ++ es }) := by
      intro u hu hd
      rw [hd] at he
      rcases busyHolds_cases u with ⟨lvl, script, e⟩ | ⟨lvl, script, es, hes, e⟩
      · refine .inl ⟨lvl, script, hf, ha, ?_⟩
        rw [he, e, hu]
        rfl
      · refine .inr ⟨lvl, script, es, hes, hf, ha, ?_⟩
        rw [he, e, hu]
        rfl
    rcases deadlineHolds_cases (sampleT0 s).t0 (sampleT0 s) with ⟨h0, e⟩ | ⟨_, _, e⟩ | ⟨_, _, e⟩
    · refine .inr (hpass (sampleT0 s) ?_ e)
      rw [← h0]
    · exact .inr (hpass _ rfl e)
    · refine .inl ⟨hf, ha, ?_⟩
      rw [he, e]
      rfl

/-- Past every gate, ADVANCE is the dispatch after its start sample, with no deadline left (R122, R105). -/
theorem execAdvance_of_ungated {s : State} (h : Ungated s) :
    execAdvance s = dispatchAndRespond { sampleT0 s with deadline := 0 } := by
  obtain ⟨_, h2, h3, h4, h5⟩ := h
  have hd : deadlineHolds (sampleT0 s).t0 (sampleT0 s) = (false, { sampleT0 s with deadline := 0 }) := by
    rw [sampleT0_eq]
    rcases h4 with h4 | h4
    · rw [deadlineHolds, if_pos h4]
      simp only [h4]
    · by_cases h0 : s.deadline = 0
      · rw [deadlineHolds, if_pos h0]
        simp only [h0]
      · rw [deadlineHolds, if_neg h0, if_pos h4]
  have hb : busyHolds { sampleT0 s with deadline := 0 } = (false, { sampleT0 s with deadline := 0 }) := by
    rw [busyHolds, if_neg]
    rw [sampleT0_eq]
    simp [h5]
  rw [execAdvance, if_neg (by simp [h2, h3])]
  simp only
  rw [hd]
  simp only [Bool.false_eq_true, if_false]
  rw [hb]
  rfl

/-- The dispatch is `exec` of the instruction the `state` register decodes to (R128). -/
theorem dispatch_eq_exec {s : State} {i : Instr} (h : decode (.state s.state) = .ok i) : dispatch s = exec i s := by
  simp only [decode, Except.ok.injEq] at h
  subst h
  unfold dispatch
  cases StateCode.ofCode s.state <;> rfl

/-- The end of an ADVANCE that dispatched, said once (R122). -/
theorem finishDispatch_cases (s : State) :
    (s.hang = none ∧ s.response = none ∧ finishDispatch s = respond .processed s) ∨
      ((s.hang ≠ none ∨ s.response ≠ none) ∧ finishDispatch s = s) := by
  unfold finishDispatch
  cases hh : s.hang <;> cases hr : s.response <;> simp

/-- What every dispatch keeps, UPDATE included. -/
theorem dispatch_keeps {s t : State} (h : dispatch s = .next t) :
    t.cfg = s.cfg ∧ t.fbAllocated = s.fbAllocated ∧ (∃ es, t.trace = s.trace ++ es) ∧
      (t.response = s.response ∨ t.response = some .faulted ∨ t.response = some .halted) ∧
      (s.state ≠ StateCode.update.code → t.fb = s.fb) := by
  have hd : decode (.state s.state) = .ok (.ofState (.ofCode s.state)) := rfl
  rw [dispatch_eq_exec hd] at h
  by_cases hu : Instr.ofState (.ofCode s.state) = .stateUpdate
  · rw [hu] at h
    obtain ⟨h1, h2, h3, h4⟩ := execStateUpdate_keeps h
    refine ⟨h1, h2, h4, .inl h3, fun hn => absurd ?_ hn⟩
    have : ∀ c : BitVec 4, Instr.ofState (.ofCode c) = .stateUpdate → c = StateCode.update.code := by decide
    exact this _ hu
  · have hne : ∀ c : StateCode, Instr.ofState c ≠ .beginCycle ∧ Instr.ofState c ≠ .advance := by
      intro c
      cases c <;> exact ⟨by simp [Instr.ofState], by simp [Instr.ofState]⟩
    have hk := keeps_exec_dispatch h hu (hne _).1 (hne _).2
    exact ⟨hk.cfg, hk.fbAllocated, hk.trace, hk.response, fun _ => hk.fb⟩

/-! ### The step -/

/-- The hardware-reset input of a step, and what is left of it. -/
theorem takeReset_eq (s : State) :
    takeReset s = (s.resetIn.head?.join, { s with resetIn := s.resetIn.tail }) := by
  cases h : s.resetIn with
  | nil =>
    obtain ⟨⟩ := s
    cases h
    rfl
  | cons r rest => simp [takeReset, h]

/-- The request of a step, and what is left of the input. -/
theorem takeRequest_eq (s : State) :
    takeRequest s =
      (s.requests.head?.bind fun code => (decodeRequest code).map Instr.ofRequest,
        { s with requests := s.requests.tail }) := by
  cases h : s.requests with
  | nil =>
    obtain ⟨⟩ := s
    cases h
    rfl
  | cons c rest => simp [takeRequest, h]

/-- A step without a hardware reset, said once (R14, R289): nothing, while a step is held open or no request is presented;
or the request. -/
theorem step_of_noReset {s : State} (h : NoReset s) :
    (s.hang ≠ none ∧ step s = .next { s with resetIn := s.resetIn.tail }) ∨
      (s.hang = none ∧ step s = .next { s with resetIn := s.resetIn.tail, requests := s.requests.tail }) ∨
      (∃ r : Request, s.hang = none ∧ step s =
        exec (.ofRequest r) { s with resetIn := s.resetIn.tail, requests := s.requests.tail }) := by
  have hstep : step s = if s.hang.isSome then .next { s with resetIn := s.resetIn.tail } else
      match takeRequest { s with resetIn := s.resetIn.tail } with
      | (none, s2) => .next s2
      | (some i, s2) => exec i s2 := by
    have h : (takeReset s).1 = none := h
    rw [takeReset_eq] at h
    rw [step, takeReset_eq]
    simp only at h
    rw [h] <;> rfl
  cases hh : s.hang with
  | some x => exact .inl ⟨by simp, by rw [hstep, hh]; rfl⟩
  | none =>
    rw [hh, takeRequest_eq] at hstep
    cases hq : s.requests.head?.bind fun code => (decodeRequest code).map Instr.ofRequest with
    | none => exact .inr (.inl ⟨rfl, by rw [hstep]; simp only [hq]; rfl⟩)
    | some i =>
      obtain ⟨c, _, hc⟩ := Option.bind_eq_some_iff.1 hq
      obtain ⟨q, _, rfl⟩ := Option.map_eq_some_iff.1 hc
      exact .inr (.inr ⟨q, rfl, by rw [hstep]; simp only [hq]; rfl⟩)

/-- A step with a hardware reset, said once (R305): the reset, with no request taken, where it comes before the request or
ends a step held open; the reset, where no request is presented; or the reset inside the request's handling. -/
theorem step_of_reset {s : State} {r : ResetInput} (h : (takeReset s).1 = some r) :
    ((r.cut = none ∨ s.hang ≠ none) ∧ step s = hardwareReset r { s with resetIn := s.resetIn.tail }) ∨
      (s.hang = none ∧
        step s = hardwareReset r { s with resetIn := s.resetIn.tail, requests := s.requests.tail }) ∨
      (∃ (n : Nat) (q : Request), r.cut = some n ∧ s.hang = none ∧ step s =
        resetInside n r (exec (.ofRequest q)) { s with resetIn := s.resetIn.tail, requests := s.requests.tail }) := by
  have hstep : step s =
      match r.cut with
      | none => hardwareReset r { s with resetIn := s.resetIn.tail }
      | some n =>
        if s.hang.isSome then hardwareReset r { s with resetIn := s.resetIn.tail }
        else
          match takeRequest { s with resetIn := s.resetIn.tail } with
          | (none, s2) => hardwareReset r s2
          | (some i, s2) => resetInside n r (exec i) s2 := by
    rw [takeReset_eq] at h
    rw [step, takeReset_eq]
    simp only at h
    rw [h] <;> rfl
  cases hc : r.cut with
  | none => exact .inl ⟨.inl rfl, by rw [hstep, hc]⟩
  | some n =>
    rw [hc] at hstep
    cases hh : s.hang with
    | some x => exact .inl ⟨.inr (by simp), by rw [hstep, hh]; rfl⟩
    | none =>
      simp only [hh, takeRequest_eq] at hstep
      cases hq : s.requests.head?.bind fun code => (decodeRequest code).map Instr.ofRequest with
      | none => exact .inr (.inl ⟨rfl, by rw [hstep]; simp only [hq]; rfl⟩)
      | some i =>
        obtain ⟨c, _, hc'⟩ := Option.bind_eq_some_iff.1 hq
        obtain ⟨q, _, rfl⟩ := Option.map_eq_some_iff.1 hc'
        exact .inr (.inr ⟨n, q, rfl, rfl, by rw [hstep]; simp only [hq]; rfl⟩)

end Sys2Proof.Machine
end

