-- ==== Sys2Proof/Laws/Stopping.lean ====
section
/-! SUPPORT. A transport that stops (R287 item 4), said once: how the runs of a dispatch with and without it compare,
for Emit, for the interpreter and for the transfer loop, and how such comparisons compose. -/

namespace Sys2Proof.Safety

open Sys2Proof.Machine

theorem SameRegisters.trans {a b c : State} (h : SameRegisters a b) (g : SameRegisters b c) : SameRegisters a c :=
  ⟨g.state.trans h.state, g.deadline.trans h.deadline, g.waitIdle.trans h.waitIdle, g.active.trans h.active,
    g.failed.trans h.failed, g.faultCode.trans h.faultCode, g.faultIndex.trans h.faultIndex,
    g.expectLow.trans h.expectLow, g.resetCount.trans h.resetCount, g.cursor.trans h.cursor, g.rstQ.trans h.rstQ,
    g.cfg.trans h.cfg, fun k => (g.memory k).trans (h.memory k), g.stage.trans h.stage⟩

/-- `t` has the answer of `s`, and its registers but the transfer's own position and staging block. -/
structure SameButPosition (s t : State) : Prop where
  response : t.response = s.response
  registers : ∀ cursor stage,
    SameRegisters { s with cursor := cursor, stage := stage } { t with cursor := cursor, stage := stage }

theorem SameButPosition.trans {a b c : State} (h : SameButPosition a b) (g : SameButPosition b c) :
    SameButPosition a c :=
  ⟨g.response.trans h.response, fun x y => (h.registers x y).trans (g.registers x y)⟩

/-- A state that differs only in what is no register keeps the registers. -/
theorem sameButPosition_of_eq {s t : State}
    (h : t = { s with
      cursor := t.cursor, stage := t.stage, transportLeft := t.transportLeft, hang := t.hang, idx := t.idx,
      sleepStart := t.sleepStart, nowMs := t.nowMs, nowScript := t.nowScript, trace := t.trace }) :
    SameButPosition s t := by
  rw [h]
  exact ⟨rfl, fun x y => by constructor <;> first | rfl | (intro; rfl)⟩

/-- A dispatch that has issued `p` when it comes to `s1`, and goes on from there. -/
theorem StopsAfter.pre {n m : Nat} {p ops : List TransportOp} {s s1 u t : State} (h : StopsAfter m ops s1 u t)
    (hn : n = m + p.length) (ho : s1.ops = s.ops ++ p) (hs : SameButPosition s s1) :
    StopsAfter n (p ++ ops) s u t := by
  subst hn
  refine ⟨fun hl => ?_, fun hl => ?_, fun hl => ?_, fun hl => ?_, fun hl => ?_⟩ <;> rw [List.length_append] at hl
  · rw [h.enough (by omega), List.length_append]
    congr 2
    omega
  · exact h.held (by omega)
  · rw [h.issued (by omega), ho, List.append_assoc, show m + p.length + 1 = p.length + (m + 1) by omega,
      List.take_length_add_append]
  · obtain ⟨a, b⟩ := h.cut (by omega)
    refine ⟨a, b.trans ?_⟩
    rw [List.getElem?_append_right (by omega)]
    congr 2
    omega
  · obtain ⟨a, b⟩ := h.kept (by omega)
    exact ⟨a.trans hs.response, (hs.registers t.cursor t.stage).trans b⟩

/-- A dispatch that is held open inside its first part, whatever would follow. -/
theorem StopsAfter.post {n : Nat} {p ops : List TransportOp} {s u1 u t : State} (h : StopsAfter n p s u1 t)
    (hn : n < p.length) (hu : u1.trace <+: u.trace) : StopsAfter n (p ++ ops) s u t := by
  refine ⟨fun hl => ?_, fun _ => h.held hn, fun _ => ?_, fun _ => ?_, fun _ => h.kept hn⟩
  · rw [List.length_append] at hl
    omega
  · rw [h.issued hn, List.take_append_of_le_length (by omega)]
  · obtain ⟨a, b⟩ := h.cut hn
    exact ⟨a.trans hu, by rw [b, List.getElem?_append_left hn]⟩

/-- Nothing is issued: the two runs do the same. -/
theorem StopsAfter.nil {n : Nat} {s u t : State} (h : t = { u with transportLeft := some n }) :
    StopsAfter n [] s u t :=
  ⟨fun _ => h, fun h => absurd h (by simp), fun h => absurd h (by simp), fun h => absurd h (by simp),
    fun h => absurd h (by simp)⟩

/-- The first of the operations is the one that is not completed: it and the `reads` before it are done. -/
theorem StopsAfter.first {op : TransportOp} {ops : List TransportOp} {s u t : State} (reads : List Event)
    (hr : reads.filterMap Event.op? = []) (hh : t.hang = some .transport) (htl : t.transportLeft = some 0)
    (ht : t.trace = s.trace ++ (reads ++ [.emit op])) (hu : t.trace <+: u.trace) (hs : SameButPosition s t) :
    StopsAfter 0 (op :: ops) s u t :=
  ⟨fun h => absurd h (by simp), fun _ => ⟨hh, htl⟩, fun _ => by simp [State.ops, ht, hr, Event.op?],
    fun _ => ⟨hu, by simp [ht]⟩, fun _ => ⟨hs.response, hs.registers t.cursor t.stage⟩⟩

end Sys2Proof.Safety

namespace Sys2Proof.Machine

open Sys2Proof.Safety

/-! ### What does not look at the transport -/

theorem now_transportLeft_eq (s : State) (x : Option Nat) :
    now { s with transportLeft := x } = ((now s).1, { (now s).2 with transportLeft := x }) := by
  simp only [now]
  split <;> rfl

theorem sleepLoop_transportLeft_eq (ts : Word) (t : Nat) (script : List Word) (s : State) (x : Option Nat) :
    sleepLoop ts t script { s with transportLeft := x } =
      ((sleepLoop ts t script s).1, { (sleepLoop ts t script s).2 with transportLeft := x }) := by
  induction script generalizing s with
  | nil =>
    simp only [sleepLoop, now_transportLeft_eq]
    split <;> rfl
  | cons _ _ ih =>
    simp only [sleepLoop, now_transportLeft_eq]
    split
    · rfl
    · exact ih _

theorem entryDelay_transportLeft_eq (t : Byte) (s : State) (x : Option Nat) :
    entryDelay t { s with transportLeft := x } =
      ((entryDelay t s).1, { (entryDelay t s).2 with transportLeft := x }) := by
  have h : sleepMs t.toNat { s with transportLeft := x } =
      ((sleepMs t.toNat s).1, { (sleepMs t.toNat s).2 with transportLeft := x }) := by
    simp only [sleepMs, now_transportLeft_eq]
    exact sleepLoop_transportLeft_eq _ _ _ { (now s).2 with sleepStart := (now s).1 } x
  simp only [entryDelay, h]
  split <;> rfl

/-! ### Emit -/

/-- Emit under a transport that completes only `n` operations more (R45, R287). -/
theorem stopsAfter_emit (op : TransportOp) {s : State} {n : Nat} (hh : s.hang = none)
    (ht : s.transportLeft = some n) :
    StopsAfter n [op] s (emit op { s with transportLeft := none }) (emit op s) := by
  rw [emit_of_completing op (s := { s with transportLeft := none }) hh rfl]
  rcases emit_cases op s with ⟨h', _⟩ | ⟨_, h', _⟩ | ⟨_, h', e⟩ | ⟨m, _, h', e⟩
  · exact absurd hh h'
  · rw [ht] at h'
    cases h'
  · rw [ht] at h'
    cases h'
    rw [e]
    exact .first [] rfl rfl ht rfl (List.prefix_refl _) (sameButPosition_of_eq rfl)
  · rw [ht] at h'
    cases h'
    rw [e]
    exact ⟨fun _ => rfl, fun h => absurd h (by simp), fun h => absurd h (by simp), fun h => absurd h (by simp),
      fun h => absurd h (by simp)⟩

/-! ### The interpreter -/

theorem trace_prefix_recordAll (es : List Event) (s : State) : s.trace <+: (recordAll es s).trace :=
  List.prefix_append _ _

theorem trace_prefix_emit (op : TransportOp) (s : State) : s.trace <+: (emit op s).trace := by
  rcases emit_cases op s with ⟨_, e⟩ | ⟨_, _, e⟩ | ⟨_, _, e⟩ | ⟨_, _, _, e⟩ <;> rw [e]
  all_goals exact List.prefix_append _ _

theorem trace_prefix_runEntry (e : Entry) (s : State) : s.trace <+: (runEntry e s).2.trace := by
  have hc : ∀ c n, s.trace <+: (commandEntry c n s).2.trace := by
    intro c n
    simp only [commandEntry]
    split
    · exact List.prefix_append _ _
    · have h : s.trace <+: (emit (.command c (s.payload n.toNat)) (recordAll (payloadReads n.toNat s) s)).trace :=
        (trace_prefix_recordAll _ s).trans (trace_prefix_emit _ _)
      split <;> exact h
  cases e with
  | delay t =>
    obtain ⟨_, _, _, _, e | e⟩ := entryDelay_cases t s <;> simp only [runEntry, e] <;> exact List.prefix_append _ _
  | cmd c n => exact hc c n
  | cmdB7 c n => exact hc c n

/-- One turn of the loop of Interpret where an entry stands (R181). -/
theorem interpretLoop_entry {s : State} {e : Entry} (fuel : Nat) (hi : s.idx.toNat ≠ s.initLen)
    (he : s.entryHere = some e) :
    interpretLoop (fuel + 1) s =
      if (runEntry e (recordAll (headerReads s) s)).1 then
        interpretLoop fuel (runEntry e (recordAll (headerReads s) s)).2
      else (false, (runEntry e (recordAll (headerReads s) s)).2) := by
  rw [interpretLoop, if_neg hi, he]

theorem trace_prefix_interpretLoop (fuel : Nat) (s : State) : s.trace <+: (interpretLoop fuel s).2.trace := by
  induction fuel generalizing s with
  | zero => exact List.prefix_refl _
  | succ fuel ih =>
    by_cases hi : s.idx.toNat = s.initLen
    · rw [interpretLoop, if_pos hi]
    · cases he : s.entryHere with
      | none =>
        rw [interpretLoop, if_neg hi, he]
        exact List.prefix_append _ _
      | some e =>
        have h : s.trace <+: (runEntry e (recordAll (headerReads s) s)).2.trace :=
          (trace_prefix_recordAll _ s).trans (trace_prefix_runEntry e _)
        rw [interpretLoop_entry fuel hi he]
        split
        · exact h.trans (ih _)
        · exact h

/-- From `s`, the interpretation that ends in `ru` with a transport that completes every operation ends in `rt` with one
that completes only `n` more. -/
def InterpretStops (n : Nat) (s : State) (ru rt : Bool × State) : Prop :=
  ∃ ops, ru.2.ops = s.ops ++ ops ∧ StopsAfter n ops s ru.2 rt.2 ∧ (ops.length ≤ n → rt.1 = ru.1) ∧
    (n < ops.length → rt.1 = false ∧ rt.2.cursor = s.cursor ∧ rt.2.stage = s.stage)

/-- The interpreter that has issued `p` when it comes to `s1`, and goes on from there. -/
theorem InterpretStops.pre {n m : Nat} {p : List TransportOp} {s s1 : State} {ru rt : Bool × State}
    (h : InterpretStops m s1 ru rt) (hn : n = m + p.length) (ho : s1.ops = s.ops ++ p) (hs : SameButPosition s s1)
    (hc : s1.cursor = s.cursor) (hst : s1.stage = s.stage) : InterpretStops n s ru rt := by
  obtain ⟨ops, h1, h2, h3, h4⟩ := h
  refine ⟨p ++ ops, by rw [h1, ho, List.append_assoc], h2.pre hn ho hs, fun hl => ?_, fun hl => ?_⟩ <;>
    rw [List.length_append] at hl
  · exact h3 (by omega)
  · obtain ⟨a, b, c⟩ := h4 (by omega)
    exact ⟨a, b.trans hc, c.trans hst⟩

theorem InterpretStops.nil {n : Nat} {s : State} {ru rt : Bool × State} (ho : ru.2.ops = s.ops)
    (ht : rt = (ru.1, { ru.2 with transportLeft := some n })) : InterpretStops n s ru rt :=
  ⟨[], by rw [ho, List.append_nil], .nil (by rw [ht]), fun _ => by rw [ht], fun h => absurd h (by simp)⟩

/-- The loop of Interpret under a transport that completes only `n` operations more (R181, R287 item 4). -/
theorem interpretLoop_stops (fuel : Nat) {s : State} {n : Nat} (hh : s.hang = none) (ht : s.transportLeft = some n) :
    InterpretStops n s (interpretLoop fuel { s with transportLeft := none }) (interpretLoop fuel s) := by
  induction fuel generalizing s n with
  | zero => exact .nil rfl (by rw [← ht]; rfl)
  | succ fuel ih =>
    by_cases hi : s.idx.toNat = s.initLen
    · rw [interpretLoop, if_pos (by exact hi), interpretLoop, if_pos hi]
      exact .nil rfl (by simp [← ht])
    · cases he : s.entryHere with
      | none =>
        rw [interpretLoop, if_neg (by exact hi), show State.entryHere { s with transportLeft := none } = none from he,
          interpretLoop, if_neg hi, he]
        exact .nil (by simp [State.ops, raiseFault, respond, Event.op?]) (by simp [← ht, raiseFault, respond])
      | some entry =>
        rw [interpretLoop_entry fuel hi he, interpretLoop_entry (s := { s with transportLeft := none }) fuel hi he]
        refine InterpretStops.pre (s1 := recordAll (headerReads s) s) (m := n) (p := []) ?_ rfl
          (by simp [State.ops, headerReads]) (sameButPosition_of_eq rfl) rfl rfl
        have hvh : (recordAll (headerReads s) s).hang = none := hh
        have hvt : (recordAll (headerReads s) s).transportLeft = some n := ht
        rw [show recordAll (headerReads { s with transportLeft := none }) { s with transportLeft := none } =
          { recordAll (headerReads s) s with transportLeft := none } from rfl]
        generalize recordAll (headerReads s) s = v at hvh hvt
        have hcmd : ∀ (c : Byte) (k : BitVec 7) (ru rt : Bool × State),
            commandEntry c k { v with transportLeft := none } = ru → commandEntry c k v = rt →
            InterpretStops n v (if ru.1 then interpretLoop fuel ru.2 else (false, ru.2))
              (if rt.1 then interpretLoop fuel rt.2 else (false, rt.2)) := by
          rintro c k _ _ rfl rfl
          cases ho : v.overLength k.toNat with
          | true =>
            have a : commandEntry c k v = (false, raiseFault .initOverlength v.idx v) := if_pos ho
            have b : commandEntry c k { v with transportLeft := none } =
                (false, raiseFault .initOverlength v.idx { v with transportLeft := none }) := if_pos (by exact ho)
            rw [a, b]
            exact .nil (by simp [State.ops, raiseFault, respond, Event.op?]) (by simp [← hvt, raiseFault, respond])
          | false =>
            set issued := payloadReads k.toNat v ++ [.emit (.command c (v.payload k.toNat))] with hissued
            have hops : issued.filterMap Event.op? = [.command c (v.payload k.toNat)] := by
              simp [hissued, payloadReads, Event.op?]
            have b : commandEntry c k { v with transportLeft := none } =
                (true, { v with
                  transportLeft := none, idx := v.idx + 2 + k.setWidth 16, trace := v.trace ++ issued }) := by
              rw [commandEntry, if_neg (by show ¬ v.overLength k.toNat = true; rw [ho]; simp)]
              simp [emit, hvh, record, recordAll, payloadReads, State.payload, State.romRest, hissued]
            rw [b]
            cases n with
            | zero =>
              have a : commandEntry c k v =
                  (false, { v with hang := some .transport, trace := v.trace ++ issued }) := by
                simp [commandEntry, ho, emit, hvh, hvt, record, recordAll, hissued]
              rw [a]
              set w : State :=
                { v with transportLeft := none, idx := v.idx + 2 + k.setWidth 16, trace := v.trace ++ issued } with hw
              have hm : w.trace <+: (interpretLoop fuel w).2.trace := trace_prefix_interpretLoop fuel w
              obtain ⟨es, hes⟩ := id hm
              refine ⟨.command c (v.payload k.toNat) :: es.filterMap Event.op?, ?_, ?_, fun h => absurd h (by simp),
                fun _ => ⟨rfl, rfl, rfl⟩⟩
              · show (interpretLoop fuel w).2.ops = _
                rw [State.ops, ← hes, hw, List.filterMap_append, List.filterMap_append, hops, List.append_assoc]
                rfl
              · exact .first (payloadReads k.toNat v) (by simp [payloadReads]) rfl hvt rfl hm
                  (sameButPosition_of_eq rfl)
            | succ n =>
              have a : commandEntry c k v =
                  (true, { v with
                    transportLeft := some n, idx := v.idx + 2 + k.setWidth 16, trace := v.trace ++ issued }) := by
                simp [commandEntry, ho, emit, hvh, hvt, record, recordAll, hissued]
              rw [a]
              refine InterpretStops.pre (s1 := { v with
                  transportLeft := some n, idx := v.idx + 2 + k.setWidth 16, trace := v.trace ++ issued })
                (ih hvh rfl) (p := [.command c (v.payload k.toNat)]) rfl ?_ (sameButPosition_of_eq rfl) rfl rfl
              show (v.trace ++ issued).filterMap Event.op? = _
              rw [List.filterMap_append, hops]
              rfl
        cases entry with
        | cmd c k => exact hcmd c k _ _ rfl rfl
        | cmdB7 c k => exact hcmd c k _ _ rfl rfl
        | delay t =>
          have hclock : ∀ samples : List Word, (v.trace ++ samples.map Event.clock).filterMap Event.op? = v.ops := by
            intro samples
            rw [List.filterMap_append, List.filterMap_map, show Event.op? ∘ Event.clock = fun _ => none from rfl]
            simp [State.ops]
          show InterpretStops n v
            (if (entryDelay t { v with transportLeft := none }).1 then
              interpretLoop fuel (entryDelay t { v with transportLeft := none }).2
            else (false, (entryDelay t { v with transportLeft := none }).2))
            (if (entryDelay t v).1 then interpretLoop fuel (entryDelay t v).2 else (false, (entryDelay t v).2))
          obtain ⟨ts, w, script, samples, e | e⟩ := entryDelay_cases t v <;>
            simp only [entryDelay_transportLeft_eq, e, if_true, Bool.false_eq_true, if_false]
          · exact InterpretStops.pre (s1 := { v with
                idx := v.idx + 2, sleepStart := ts, nowMs := w, nowScript := script,
                trace := v.trace ++ samples.map .clock })
              (ih hvh hvt) (p := []) rfl ((hclock samples).trans (List.append_nil _).symm)
              (sameButPosition_of_eq rfl) rfl rfl
          · exact .nil (hclock samples) (by simp [← hvt])

/-! ### The transfer -/

theorem dataBytes_append (a b : List TransportOp) : dataBytes (a ++ b) = dataBytes a ++ dataBytes b := by
  simp [dataBytes]

/-- From `s`, the transfer loop that ends in `(b, u)` with a transport that completes every operation ends in `(b', t)`
with one that completes only `n` more: either way the bytes sent and staged are those at the `cursor`s passed. -/
structure LoopStops (n : Nat) (s : State) (b : Bool) (u : State) (b' : Bool) (t : State) (ops : List TransportOp) :
    Prop where
  issued : u.ops = s.ops ++ ops
  trace : s.trace <+: u.trace
  running : u.hang = none
  completing : u.transportLeft = none
  cfg : u.cfg = s.cfg
  registers : SameButPosition s u
  stops : StopsAfter n ops s u t
  advanced : s.cursor.toNat ≤ u.cursor.toNat
  bound : u.cursor.toNat ≤ s.bufferLen
  bytes : dataBytes ops ++ u.stage = s.stage ++ bufferBytes s s.cursor.toNat u.cursor.toNat
  finished : b = true → u.cursor.toNat = s.bufferLen
  enough : ops.length ≤ n → b' = b
  held : n < ops.length → b' = false ∧ s.cursor.toNat ≤ t.cursor.toNat ∧ t.cursor.toNat ≤ s.bufferLen ∧
    dataBytes (ops.take (n + 1)) = s.stage ++ bufferBytes s s.cursor.toNat t.cursor.toNat

/-- The loop that has issued `p` when it comes to `s1`, and goes on from there. -/
theorem LoopStops.pre {n m : Nat} {p ops : List TransportOp} {s s1 u t : State} {b b' : Bool}
    (h : LoopStops m s1 b u b' t ops) (hn : n = m + p.length) (ho : s1.ops = s.ops ++ p) (htr : s.trace <+: s1.trace)
    (hs : SameButPosition s s1) (hcfg : s1.cfg = s.cfg) (hc : s.cursor.toNat ≤ s1.cursor.toNat)
    (hby : ∀ x, s1.cursor.toNat ≤ x →
      dataBytes p ++ (s1.stage ++ bufferBytes s1 s1.cursor.toNat x) = s.stage ++ bufferBytes s s.cursor.toNat x) :
    LoopStops n s b u b' t (p ++ ops) := by
  have hb : s1.bufferLen = s.bufferLen := by simp only [State.bufferLen, hcfg]
  have hadv := h.advanced
  refine ⟨by rw [h.issued, ho, List.append_assoc], htr.trans h.trace, h.running, h.completing, h.cfg.trans hcfg,
    hs.trans h.registers, h.stops.pre hn ho hs, by omega, hb ▸ h.bound, ?_, fun hl => hb ▸ h.finished hl,
    fun hl => ?_, fun hl => ?_⟩
  · rw [dataBytes_append, List.append_assoc, h.bytes, hby _ h.advanced]
  · rw [List.length_append] at hl
    exact h.enough (by omega)
  · rw [List.length_append] at hl
    obtain ⟨x1, x2, x3, x4⟩ := h.held (by omega)
    refine ⟨x1, by omega, hb ▸ x3, ?_⟩
    subst hn
    rw [show m + p.length + 1 = p.length + (m + 1) by omega, List.take_length_add_append, dataBytes_append, x4,
      hby _ x2]

/-- One turn of the loop of Transfer below the buffer's end (R212). -/
theorem transferLoop_turn {s : State} (fuel : Nat) (hlt : s.cursor.toNat < s.bufferLen) :
    transferLoop (fuel + 1) s =
      if (stageByte (s.fbByte s.cursor.toNat) s).stage.length = s.stagingSize then
        if (flush (stageByte (s.fbByte s.cursor.toNat) s)).hang.isSome then
          .next (false, flush (stageByte (s.fbByte s.cursor.toNat) s))
        else
          if exceeded (now (flush (stageByte (s.fbByte s.cursor.toNat) s))).2.t0
              (now (flush (stageByte (s.fbByte s.cursor.toNat) s))).1
              (now (flush (stageByte (s.fbByte s.cursor.toNat) s))).2.cfg.transferBudgetMs then
            .next (false, emit .dataEnd (now (flush (stageByte (s.fbByte s.cursor.toNat) s))).2)
          else transferLoop fuel (now (flush (stageByte (s.fbByte s.cursor.toNat) s))).2
      else transferLoop fuel (stageByte (s.fbByte s.cursor.toNat) s) := by
  have hread : fbRead s s.cursor.toNat = some (s.fbByte s.cursor.toNat) := by simp [fbRead, hlt]
  rw [transferLoop, if_neg (Nat.ne_of_lt hlt), hread]
  rfl

/-- The loop of Transfer under a transport that completes only `n` operations more (R212, R287 item 4). -/
theorem transferLoop_stops (fuel : Nat) {s : State} {n : Nat} (hh : s.hang = none) (ht : s.transportLeft = some n)
    (hf : fuel = s.bufferLen - s.cursor.toNat) (hc : s.cursor.toNat ≤ s.bufferLen) :
    ∃ b u b' t ops, transferLoop fuel { s with transportLeft := none } = .next (b, u) ∧
      transferLoop fuel s = .next (b', t) ∧ LoopStops n s b u b' t ops := by
  induction fuel generalizing s n with
  | zero =>
    have hcN : s.cursor.toNat = s.bufferLen := by omega
    refine ⟨true, { s with transportLeft := none }, true, s, [], if_pos (by exact hcN), if_pos hcN, ?_⟩
    exact ⟨(List.append_nil _).symm, List.prefix_refl _, hh, rfl, rfl, sameButPosition_of_eq rfl, .nil (by simp [← ht]),
      le_rfl, hc, by simp [dataBytes, bufferBytes_self], fun _ => hcN, fun _ => rfl, fun h => absurd h (by simp)⟩
  | succ fuel ih =>
    have hlt : s.cursor.toNat < s.bufferLen := by omega
    have hN : s.bufferLen < 2 ^ 32 := s.cfg.bufferLength.isLt
    rw [transferLoop_turn fuel hlt, transferLoop_turn (s := { s with transportLeft := none }) fuel hlt]
    set s1 := stageByte (s.fbByte s.cursor.toNat) s with hs1
    rw [show stageByte
        (State.fbByte { s with transportLeft := none } (State.cursor { s with transportLeft := none }).toNat)
        { s with transportLeft := none } = { s1 with transportLeft := none } from rfl,
      show State.stagingSize { s with transportLeft := none } = s.stagingSize from rfl]
    have h1h : s1.hang = none := hh
    have h1l : s1.transportLeft = some n := ht
    have h1N : s1.bufferLen = s.bufferLen := rfl
    have h1c : s1.cursor.toNat = s.cursor.toNat + 1 := by
      show (s.cursor + 1).toNat = _
      rw [BitVec.toNat_add]
      show (s.cursor.toNat + 1) % 2 ^ 32 = _
      omega
    have h1b : ∀ x, s1.cursor.toNat ≤ x →
        s1.stage ++ bufferBytes s1 s1.cursor.toNat x = s.stage ++ bufferBytes s s.cursor.toNat x := by
      intro x hx
      rw [h1c] at hx ⊢
      rw [bufferBytes_cons s (by omega : s.cursor.toNat < x)]
      show (s.stage ++ [s.fbByte s.cursor.toNat]) ++ bufferBytes s _ x = _
      simp
    have back : ∀ {b u b' t ops}, LoopStops n s1 b u b' t ops → LoopStops n s b u b' t ops := fun h =>
      h.pre (p := []) rfl (by simp [hs1, stageByte, State.ops, Event.op?]) (List.prefix_append _ _)
        (sameButPosition_of_eq rfl) rfl (by omega) fun x hx => by simpa [dataBytes] using h1b x hx
    by_cases hfull : s1.stage.length = s.stagingSize
    · rw [if_pos (show ({ s1 with transportLeft := none } : State).stage.length = s.stagingSize from hfull),
        if_pos hfull]
      set f : State := { s1 with stage := [], trace := s1.trace ++ flushEvents s1.stage } with hf'
      have fu : flush { s1 with transportLeft := none } = { f with transportLeft := none } := by
        simp [flush, emit, h1h, State.andThen, record, recordAll, flushEvents, hf']
      have fh : ∀ x, ¬ (State.hang { f with transportLeft := x }).isSome = true := fun x => by simp [hf', h1h]
      rw [fu, if_neg (fh none), now_transportLeft_eq]
      set v := (now f).1 with hv
      set g : State := (now f).2 with hg
      have hgs : g = { f with nowMs := v, nowScript := f.nowScript.tail, trace := f.trace ++ [.clock v] } := now_snd f
      have gh : g.hang = none := by rw [hgs]; exact hh
      have gcur : g.cursor = s1.cursor := by rw [hgs]
      have gst : g.stage = [] := by rw [hgs]
      have gcfg : g.cfg = s.cfg := by rw [hgs]; rfl
      have gtr : s1.trace ++ flushEvents s1.stage <+: g.trace := by rw [hgs]; simp [hf']
      have gops : g.ops = s1.ops ++ [.data s1.stage] := by rw [hgs]; simp [State.ops, hf', Event.op?]
      have gsame : ∀ x, SameButPosition s1 { g with transportLeft := x } := fun x => by
        rw [hgs]
        exact sameButPosition_of_eq rfl
      have gbb : ∀ x, bufferBytes g g.cursor.toNat x = bufferBytes s1 s1.cursor.toNat x := fun x => by rw [hgs]; rfl
      have gN : g.cursor.toNat ≤ s.bufferLen := by rw [gcur]; omega
      have gbl : ∀ x, State.bufferLen { g with transportLeft := x } = s.bufferLen := fun x => by
        show g.cfg.bufferLength.toNat = s.cfg.bufferLength.toNat
        rw [gcfg]
      -- what follows the flush, with `m` operations left
      have rest : ∀ m, ∃ b u b' t ops,
          (if exceeded ({ g with transportLeft := none } : State).t0 v
              ({ g with transportLeft := none } : State).cfg.transferBudgetMs = true then
            .next (false, emit .dataEnd { g with transportLeft := none })
          else transferLoop fuel { g with transportLeft := none }) = Host.Outcome.next (b, u) ∧
          (if exceeded g.t0 v g.cfg.transferBudgetMs = true then
            .next (false, emit .dataEnd { g with transportLeft := some m })
          else transferLoop fuel { g with transportLeft := some m }) = Host.Outcome.next (b', t) ∧
          LoopStops m { g with transportLeft := some m } b u b' t ops := by
        intro m
        by_cases hx : exceeded g.t0 v g.cfg.transferBudgetMs = true
        · rw [if_pos hx, if_pos (by exact hx)]
          have eu := emit_of_completing .dataEnd (s := { g with transportLeft := none }) gh rfl
          have se := stopsAfter_emit .dataEnd (s := { g with transportLeft := some m }) gh rfl
          rw [eu] at se
          have et : (emit .dataEnd { g with transportLeft := some m }).cursor = g.cursor := by simp
          refine ⟨false, { g with transportLeft := none, trace := g.trace ++ [.emit .dataEnd] }, false,
            emit .dataEnd { g with transportLeft := some m }, [.dataEnd], by rw [eu], rfl,
            by simp [State.ops, Event.op?], List.prefix_append _ _, gh, rfl, rfl, sameButPosition_of_eq rfl, se, le_rfl,
            by rw [gbl]; exact gN, by simp [dataBytes, bufferBytes_self], fun h => by simp at h, fun _ => rfl,
            fun hl => ⟨rfl, by rw [et], by rw [et, gbl]; exact gN, ?_⟩⟩
          obtain rfl : m = 0 := by simpa using hl
          rw [et]
          simp [dataBytes, bufferBytes_self, gst]
        · rw [if_neg hx, if_neg (by exact hx)]
          refine ih (s := { g with transportLeft := some m }) gh rfl ?_ (by rw [gbl]; exact gN)
          rw [gbl]
          show fuel = s.bufferLen - g.cursor.toNat
          rw [gcur]
          omega
      cases n with
      | zero =>
        have ft : flush s1 = { s1 with hang := some .transport, trace := s1.trace ++ flushEvents s1.stage } := by
          simp [flush, emit, h1h, h1l, State.andThen, record, recordAll, flushEvents]
        rw [ft]
        obtain ⟨b, u, b', t, ops, e1, _, h⟩ := rest 0
        have hiss : u.ops = g.ops ++ ops := h.issued
        have hby : dataBytes ops ++ u.stage = bufferBytes s1 s1.cursor.toNat u.cursor.toNat := by
          rw [h.bytes, ← gbb, gst]
          rfl
        set t : State := { s1 with hang := some .transport, trace := s1.trace ++ flushEvents s1.stage } with ht'
        have stops : StopsAfter 0 (.data s1.stage :: ops) s1 u t :=
          .first (accesses .stageRead 0 s1.stage) (by simp) rfl h1l rfl (gtr.trans h.trace) (sameButPosition_of_eq rfl)
        refine ⟨b, u, false, t, [.data s1.stage] ++ ops, e1, rfl, back ⟨by rw [hiss, gops, List.append_assoc],
          (List.prefix_append _ _).trans (gtr.trans h.trace), h.running, h.completing, h.cfg.trans gcfg,
          (gsame _).trans h.registers, stops, gcur ▸ h.advanced, gbl (some 0) ▸ h.bound, ?_,
          fun hb => (h.finished hb).trans (gbl _), fun hl => absurd hl (by simp), fun _ => ⟨rfl, le_rfl, ?_, ?_⟩⟩⟩
        · rw [dataBytes_append, List.append_assoc, hby]
          simp [dataBytes]
        · show s1.cursor.toNat ≤ s.bufferLen
          omega
        · show s1.stage ++ [] = s1.stage ++ bufferBytes s1 s1.cursor.toNat s1.cursor.toNat
          rw [bufferBytes_self]
      | succ n =>
        have ft : flush s1 = { f with transportLeft := some n } := by
          simp [flush, emit, h1h, h1l, State.andThen, record, recordAll, flushEvents, hf']
        rw [ft, if_neg (fh (some n)), now_transportLeft_eq]
        obtain ⟨b, u, b', t, ops, e1, e2, h⟩ := rest n
        refine ⟨b, u, b', t, _, e1, e2, back (h.pre rfl gops
          ((List.prefix_append _ _).trans gtr) (gsame _) gcfg (gcur ▸ le_rfl) fun x hx => ?_)⟩
        show dataBytes [.data s1.stage] ++ (g.stage ++ bufferBytes g g.cursor.toNat x) = _
        rw [gst, gbb]
        simp [dataBytes]
    · rw [if_neg (show ¬ ({ s1 with transportLeft := none } : State).stage.length = s.stagingSize from hfull),
        if_neg hfull]
      obtain ⟨b, u, b', t, ops, e1, e2, h⟩ := ih h1h h1l (by omega) (by omega)
      exact ⟨b, u, b', t, ops, e1, e2, back h⟩

end Sys2Proof.Machine
end

