-- ==== Sys2Proof/Tests/Slice0.lean ====
section
/-! SUPPORT. Tests of the model. The expected results come from the spec: the vectors and programs of
95_test_vectors, named in each comment, the encodings of 30_encoding and the rules cited. At the end, one witness for
the hypotheses of each statement of Certificates/Slice0/Obligations.lean. -/

namespace Sys2Proof.Tests

open Sys2Proof.Machine Sys2Proof.Safety

/-! ### Helpers -/

/-- The outcome is a next state that meets `p`. -/
def nextMeets {α : Type} (o : Host.Outcome α Fault Refusal) (p : α → Bool) : Bool :=
  match o with
  | .next a => p a
  | .fault _ => false
  | .refused _ => false

/-- The outcome is this refusal. -/
def refusedWith {α : Type} (o : Host.Outcome α Fault Refusal) (r : Refusal) : Bool :=
  match o with
  | .next _ => false
  | .fault _ => false
  | .refused q => decide (q = r)

/-- The configuration of 95_test_vectors Program 3. -/
def panel : PanelConfig :=
  { Config.resetConfig with
    initSeq := [0x01, 0x01, 0x07]
    quantPresent := true
    resetPresent := true, resetCycles := 1, resetDurationMs := 10
    busyPresent := true, busyActiveLevel := false
    stagingSize := 2, transferBudgetMs := 10, transferStartCmd := 0x10
    phaseOps :=
      { powerOn := [.command 0x04 []], postPowerOn := [], refreshScreen := [.command 0x12 [0x00]],
        powerOff := [.command 0x02 [0x00]], deepSleep := [.command 0x07 [0xA5]] }
    phaseDelayMs := { powerOn := 0, postPowerOn := 0, refreshScreen := 5, powerOff := 0, deepSleep := 0 } }

/-- The state just after hardware reset with that configuration, its busy line idle. -/
def ready : State := { State.reset with cfg := panel, busyIn := true }

/-- A cycle in progress at `code`, with no gate closed. -/
def at_ (code : StateCode) : State := { ready with state := code.code, active := true }

/-- The interpreter at offset 0 of these bytes. -/
def romOf (bytes : List Byte) : State :=
  { at_ .initialise with cfg := { panel with initSeq := bytes } }

/-- A frame buffer of N = 3 bytes B0 B1 B2 with S = 1 (95_test_vectors XFR-8), in TRANSFER_DATA at `cursor`. -/
def threeBytes (cursor : Word) : State :=
  { at_ .transferData with
    cfg := { panel with width := 6, height := 1, bufferLength := 3, stagingSize := 1, quantPresent := false }
    fb := [(0, 0xB0), (1, 0xB1), (2, 0xB2)]
    cursor := cursor }

/-- Agents that serve: a clock at 0, an idle busy line, a producer that writes nothing, a transport that completes. -/
def serving : Agents :=
  { nowMs := 0, nowScript := [], busyIn := true, busyScript := [], producer := [], transportLeft := none }

/-- A hardware reset with the record `c`, before the request, or after `cut` actions. -/
def resetWith (c : PanelConfig) (cut : Option Nat) : ResetInput :=
  { config := c, allocOk := true, cut := cut, agents := serving }

/-! ### Well-formedness: one ill-formed term for each check -/

theorem test_wf_refuses_cmdB7_count_127 : (Instr.cmdB7 0x20 127).wf = false := by decide

theorem test_wf_accepts_cmdB7_count_126 : (Instr.cmdB7 0x20 126).wf = true := by decide

/-- R88: DELAY takes 0..255, CMD 0..127 data bytes, CMD.B7 0..126. -/
theorem test_wf_refuses_asm :
    (Asm.delay 256).wf = false ∧ (Asm.cmd 1 (List.replicate 128 0)).wf = false ∧
    (Asm.cmdB7 1 (List.replicate 127 0)).wf = false ∧ assemble (.delay 256) = none := by
  simp [Asm.wf, assemble]

/-- R92, R93: the ill-formed operation lists: data outside a phase, a command inside, two begins, an end alone, a phase
left open, an empty DATA, a DATA over S, a payload over 127. -/
theorem test_wf_refuses_ops :
    opsWf 2 [.data [1]] = false ∧ opsWf 2 [.dataBegin, .command 1 [], .dataEnd] = false ∧
    opsWf 2 [.dataBegin, .dataBegin, .dataEnd] = false ∧ opsWf 2 [.dataEnd] = false ∧
    opsWf 2 [.dataBegin] = false ∧ opsWf 2 [.dataBegin, .data [], .dataEnd] = false ∧
    opsWf 2 [.dataBegin, .data [1, 2, 3], .dataEnd] = false ∧
    opsWf 2 [.command 1 [2], .dataBegin, .data [3, 4], .data [5], .dataEnd] = true := by decide

theorem test_wf_refuses_payload_over_127 (payload : List Byte) (h : payload.length = 128) :
    opsWf 2 [.command 1 payload] = false := by
  simp [opsWf, opSizeOk, h]

/-- R9, R30, R301: every check of the configuration record (FLT-5 among them). -/
theorem test_wf_refuses_records :
    configProblem { panel with width := 0 } = some .width ∧
    configProblem { panel with height := 0 } = some .height ∧
    configProblem { panel with displayType := 1 } = some .displayType ∧
    configProblem { panel with bufferLength := 5 } = some .bufferLength ∧
    configProblem { panel with resetDurationMs := 0x80000000 } = some .resetDuration ∧
    configProblem { panel with stagingSize := 0 } = some .stagingSize ∧
    configProblem { panel with transferBudgetMs := 0x80000000 } = some .transferBudget ∧
    configProblem { panel with phaseDelayMs := { panel.phaseDelayMs with deepSleep := 0x80000000 } } = some .phaseDelay ∧
    configProblem { panel with phaseOps := { panel.phaseOps with powerOn := [.dataEnd] } } = some .phaseOps ∧
    configProblem { panel with lumaMid := 766 } = some .lumaMid ∧
    configProblem { panel with codeRed := 2 } = some .paletteCodes ∧
    configProblem { panel with lumaMid := 765 } = none ∧
    configProblem panel = none ∧
    configProblem { panel with transferBudgetMs := 0x7FFFFFFF } = none := by decide

/-- An init sequence over the 16 bits of INIT_LEN (R30). -/
theorem test_wf_refuses_long_sequence (bytes : List Byte) (h : bytes.length = 65536) :
    configProblem { panel with initSeq := bytes } = some .initLen := by
  have h : 65535 < ({ panel with initSeq := bytes } : PanelConfig).initLen := by
    rw [PanelConfig.initLen, h]; omega
  have hw : ¬ panel.width = 0 := by decide
  have hh : ¬ panel.height = 0 := by decide
  have ht : ¬ panel.displayType ≠ 0 := by decide
  have hn : ¬ panel.bufferLength.toNat ≠ sixColorLength panel := by decide
  exact (if_neg hw).trans ((if_neg hh).trans ((if_neg ht).trans ((if_neg hn).trans (if_pos h))))

/-! ### Decoding: the spec's encodings written out bit by bit -/

/-- `tttttttt11111111` with t = 10: DELAY 10 (SRC-15). -/
theorem test_decode_delay : decode (.header 0b0000101011111111) = .ok (.delay 10) := by rfl

/-- `cccccccc0nnnnnnn` with c = 0x01, n = 2 (SRC-16). -/
theorem test_decode_cmd : decode (.header 0b0000000100000010) = .ok (.cmd 0x01 2) := by rfl

/-- `cccccccc1nnnnnnn` with c = 0x10, n = 1 (DEC-6). -/
theorem test_decode_cmdB7 : decode (.header 0b0001000010000001) = .ok (.cmdB7 0x10 1) := by rfl

/-- The two-bit requests (R90). -/
theorem test_decode_requests :
    decode (.request 0b01) = .ok .beginCycle ∧ decode (.request 0b10) = .ok .advance ∧
    decode (.request 0b11) = .ok .reqReserved ∧ decode (.request 0b00) = .error .noRequest := ⟨rfl, rfl, rfl, rfl⟩

/-- The four-bit state codes (R89). -/
theorem test_decode_states :
    decode (.state 0b0000) = .ok .stateIdle ∧ decode (.state 0b0001) = .ok .stateReset ∧
    decode (.state 0b0010) = .ok .stateResetEnd ∧ decode (.state 0b0011) = .ok .stateUpdate ∧
    decode (.state 0b0100) = .ok .stateInitialise ∧ decode (.state 0b0101) = .ok .stateTransferData ∧
    decode (.state 0b0110) = .ok .statePowerOn ∧ decode (.state 0b0111) = .ok .statePostPowerOn ∧
    decode (.state 0b1000) = .ok .stateRefreshScreen ∧ decode (.state 0b1001) = .ok .statePowerOff ∧
    decode (.state 0b1010) = .ok .stateDeepSleep ∧ decode (.state 0b1011) = .ok .stateUnknown11 ∧
    decode (.state 0b1100) = .ok (.stateUnknownHigh 0) ∧ decode (.state 0b1111) = .ok (.stateUnknownHigh 3) :=
  ⟨rfl, rfl, rfl, rfl, rfl, rfl, rfl, rfl, rfl, rfl, rfl, rfl, rfl, rfl⟩

/-- DEC-5, DEC-7: the entry lengths 129 and 128. -/
theorem test_decode_lengths : (decodeEntry 0xFF 0x7F).length = 129 ∧ (decodeEntry 0x20 0xFE).length = 128 := by
  decide

/-- R86: the two rejections by name. -/
theorem test_decode_rejects :
    decodeBytes [0xFF] = .error .truncated ∧ decodeBytes [0x01, 0x03, 0xAA, 0xBB] = .error .overlength := ⟨rfl, rfl⟩

/-- The host's numbering: a header word of 16 bits, with its data bytes 0; a request of 2 bits; a state of 4 bits. -/
theorem test_decodeTableWord :
    decodeTableWord 16 0x0AFF = some (.delay 10) ∧ decodeTableWord 16 0x0102 = some (.cmd 0x01 2) ∧
    decodeTableWord 16 0x1081 = some (.cmdB7 0x10 1) ∧ decodeTableWord 2 1 = some .beginCycle ∧
    decodeTableWord 8 2 = some .advance ∧ decodeTableWord 4 3 = some .stateUpdate ∧
    decodeTableWord 8 13 = some (.stateUnknownHigh 1) ∧ decodeTableWord 8 16 = none := by decide

/-- Programs 1 and 4: the assembler's bytes. -/
theorem test_assemble :
    assembleAll [.cmd 0x01 [0xAA, 0xBB], .delay 10, .cmd 0x12 []] =
      some [0x01, 0x02, 0xAA, 0xBB, 0x0A, 0xFF, 0x12, 0x00] ∧
    assembleAll [.cmd 0x00 [], .wait 600, .cmd 0x01 [0x5A]] =
      some [0x00, 0x00, 0xFF, 0xFF, 0xFF, 0xFF, 0x5A, 0xFF, 0x01, 0x01, 0x5A] := by decide

/-- R91, R271, R92: the codes of responses, fault causes and operation kinds. -/
theorem test_codes :
    Response.halted.code = 7 ∧ Response.heldBusy.code = 4 ∧ FaultCause.initOverlength.code = 2 ∧
    FaultCause.unknownState.code = 4 ∧ (TransportOp.data [1]).kind = 2 ∧ TransportOp.dataEnd.kind = 3 := by decide

/-! ### The comparators and the deadline (CMP-1 to CMP-21) -/

theorem test_reached :
    reached 100 100 = true ∧ reached 99 100 = false ∧ reached 0x80000063 100 = true ∧
    reached 0x80000064 100 = false ∧ reached 0xFFFFFFF6 5 = false ∧ reached 5 0xFFFFFFF6 = true := by decide

theorem test_exceeded :
    exceeded 1000 1010 10 = false ∧ exceeded 1000 1011 10 = true ∧ exceeded 0xFFFFFFFA 5 10 = true ∧
    exceeded 7 7 0 = false ∧ exceeded 7 8 0 = true := by decide

theorem test_elapsed :
    elapsed 0xFFFFFFF0 4 20 = true ∧ elapsed 0xFFFFFFF0 3 20 = false ∧ elapsed 9 9 0 = true := by decide

theorem test_arm :
    (arm 10 { ready with nowScript := [1000] }).deadline = 1010 ∧ (arm 0 ready).trace = [] ∧
    (arm 0x20 { ready with nowScript := [0xFFFFFFF0] }).deadline = 0x10 ∧
    (arm 10 { ready with nowScript := [0xFFFFFFF6] }).deadline = 0 := by decide

theorem test_deadlineHolds :
    deadlineHolds 1009 { ready with deadline := 1010 } = (true, { ready with deadline := 1010 }) ∧
    deadlineHolds 1010 { ready with deadline := 1010 } = (false, ready) ∧
    (deadlineHolds 0x800003F2 { ready with deadline := 1010 }).1 = true := by decide

/-! ### Host requests -/

/-- FSM-1. -/
theorem test_beginCycle_accepted :
    nextMeets (exec .beginCycle { ready with deadline := 1210, active := true }) (fun t =>
      t.response == some .accepted && t.state == 1 && t.active && t.expectLow && t.resetCount == 0 &&
        t.deadline == 0 && !t.waitIdle) = true := by decide

/-- FSM-3: a failed block rejects, and nothing is written. -/
theorem test_beginCycle_rejected :
    nextMeets (exec .beginCycle { ready with failed := true }) (fun t =>
      decide (t = respond .rejected { ready with failed := true })) = true := by decide

/-- FSM-6: HELD_DELAY. -/
theorem test_advance_heldDelay :
    nextMeets (exec .advance { at_ .powerOff with deadline := 1048, waitIdle := true, nowScript := [1044] }) (fun t =>
      t.response == some .heldDelay && t.deadline == 1048 && t.waitIdle && t.state == 9) = true := by decide

/-- FSM-8: the held request goes on once its delay has passed and the busy line is idle. -/
theorem test_advance_processed :
    nextMeets (exec .advance { at_ .powerOff with deadline := 1048, waitIdle := true, nowScript := [1100] }) (fun t =>
      t.response == some .processed && t.state == 10 && t.waitIdle && t.deadline == 0 &&
        t.ops == [.command 0x02 [0x00]]) = true := by decide

/-- R123. -/
theorem test_reserved_refused :
    refusedWith (step { ready with requests := [3] }) .reservedRequest = true := by decide

/-- A step takes the request off the port; with code 00 nothing else happens (R90). -/
theorem test_step_requests :
    nextMeets (step { ready with requests := [0, 1] }) (fun t => decide (t = { ready with requests := [1] })) = true ∧
    nextMeets (step { ready with requests := [1] }) (fun t => t.requests == [] && t.state == 1) = true := by decide

/-! ### State dispatches -/

/-- FSM-10. -/
theorem test_idle : nextMeets (exec .stateIdle (at_ .idle)) (fun t => !t.active && t.state == 0) = true := by decide

/-- RST-2, first row, and RST-6: the low half, with the deadline 1010. -/
theorem test_reset_low :
    nextMeets (exec .stateReset { at_ .reset with nowMs := 1000 }) (fun t =>
      !t.rstQ && !t.expectLow && t.resetCount == 0 && t.state == 2 && t.deadline == 1010 && !t.waitIdle) = true := by
  decide

/-- RST-2, second row: the high half completes the pulse. -/
theorem test_reset_high :
    nextMeets (exec .stateResetEnd { at_ .resetEnd with expectLow := false, rstQ := false }) (fun t =>
      t.rstQ && t.expectLow && t.resetCount == 1 && t.state == 3 && t.deadline == 0 && t.waitIdle) = true := by
  decide

/-- RST-4, second row: with C = 2 the first high half goes back to RESET. -/
theorem test_reset_high_again :
    nextMeets
      (exec .stateResetEnd
        { at_ .resetEnd with expectLow := false, rstQ := false, cfg := { panel with resetCycles := 2 } })
      (fun t => t.rstQ && t.expectLow && t.resetCount == 1 && t.state == 1 && t.deadline == 10) = true := by decide

/-- RST-1: without a reset line. -/
theorem test_reset_absent :
    nextMeets (exec .stateReset { at_ .reset with cfg := { panel with resetPresent := false } }) (fun t =>
      t.rstQ && t.expectLow && t.resetCount == 0 && t.state == 3) = true := by decide

/-- PIX-1 and PIX-2 in one window (Program 3, request 6). -/
theorem test_update_pixels :
    nextMeets
      (exec .stateUpdate
        { at_ .update with producer := [{ writes := [.pixel 0 0 255 0 0, .pixel 1 0 0 0 255], done := true }] })
      (fun t => t.state == 4 && t.waitIdle && fbRead t 0 == some 0x35 && fbRead t 1 == some 0x11 &&
        t.trace ==
          [.producerStart, .fbRead 0 0x11, .fbWrite 0 0x31, .fbRead 0 0x31, .fbWrite 0 0x35, .producerDone]) = true := by
  decide

/-- A byte write outside the frame buffer is refused (R61). -/
theorem test_update_out_of_range :
    refusedWith
      (exec .stateUpdate { at_ .update with producer := [{ writes := [.byte 4 0], done := true }] })
      (.frameBufferRange 4) = true := by decide

/-- Program 3, request 7. -/
theorem test_initialise :
    nextMeets (exec .stateInitialise (at_ .initialise)) (fun t =>
      t.ops == [.command 0x01 [0x07]] && t.idx == 3 && t.state == 5 && t.waitIdle && t.deadline == 0 &&
        t.trace == [.romRead 0 0x01, .romRead 1 0x01, .romRead 2 0x07, .emit (.command 0x01 [0x07])]) = true := by
  decide

/-- Program 2: the malformed sequence, with its STATUS. -/
theorem test_initialise_overlength :
    nextMeets (exec .stateInitialise (romOf [0x01, 0x00, 0x02, 0x01, 0x33, 0x03, 0x05, 0x44])) (fun t =>
      t.ops == [.command 0x01 [], .command 0x02 [0x33]] && t.faultCode == 2 && t.faultIndex == 5 &&
        t.response == some .faulted && statusView t == 0x00001544) = true := by decide

/-- XFR-8, the first call: the budget check after one full block. -/
theorem test_transfer_first_call :
    nextMeets (exec .stateTransferData { threeBytes 0 with nowScript := [11] }) (fun t =>
      t.ops == [.command 0x10 [], .dataBegin, .data [0xB0], .dataEnd] && t.cursor == 1 && t.state == 5) = true := by
  decide

/-- R72, R212, R214: its memory accesses, in the order of the rules. -/
theorem test_transfer_accesses :
    nextMeets (exec .stateTransferData { threeBytes 1 with nowScript := [11] }) (fun t =>
      t.trace == [.emit .dataBegin, .fbRead 1 0xB1, .stageWrite 0 0xB1, .stageRead 0 0xB1, .emit (.data [0xB1]),
        .clock 11, .emit .dataEnd]) = true := by decide

/-- XFR-8, the third call with a clock that stands still: the rest of the buffer, then POWER_ON. -/
theorem test_transfer_last_call :
    nextMeets (exec .stateTransferData (threeBytes 2)) (fun t =>
      t.ops == [.dataBegin, .data [0xB2], .dataEnd] && t.cursor == 0 && t.state == 6 && t.waitIdle) = true := by
  decide

/-- Program 3, request 10. -/
theorem test_powerOn :
    nextMeets (exec .statePowerOn (at_ .powerOn)) (fun t =>
      t.ops == [.command 0x04 []] && t.state == 7 && t.waitIdle && t.deadline == 0) = true := by decide

/-- Program 3, request 11. -/
theorem test_postPowerOn :
    nextMeets (exec .statePostPowerOn (at_ .postPowerOn)) (fun t => t.ops == [] && t.state == 8) = true := by decide

/-- Program 3, request 12. -/
theorem test_refreshScreen :
    nextMeets (exec .stateRefreshScreen { at_ .refreshScreen with nowMs := 1043 }) (fun t =>
      t.ops == [.command 0x12 [0x00]] && t.state == 9 && t.deadline == 1048 && t.waitIdle) = true := by decide

/-- Program 3, request 15. -/
theorem test_powerOff :
    nextMeets (exec .statePowerOff (at_ .powerOff)) (fun t =>
      t.ops == [.command 0x02 [0x00]] && t.state == 10) = true := by decide

/-- FSM-14. -/
theorem test_deepSleep :
    nextMeets (exec .stateDeepSleep (at_ .deepSleep)) (fun t =>
      t.ops == [.command 0x07 [0xA5]] && t.state == 0 && !t.waitIdle && t.deadline == 0 && t.active) = true := by
  decide

/-- FSM-11, through ADVANCE. -/
theorem test_unknown_halts :
    nextMeets (exec .advance { at_ (.unknownHigh 0) with requests := [] }) (fun t =>
      t.response == some .halted && t.faultCode == 4 && !t.active && t.state == 12 && !t.failed) = true := by decide

/-- R139: code 11. -/
theorem test_unknown11_halts :
    nextMeets (exec .stateUnknown11 (at_ .unknown11)) (fun t => t.faultCode == 4 && t.state == 11) = true := by decide

/-! ### The init-sequence bytecode -/

/-- INT-1. -/
theorem test_cmd :
    nextMeets (exec (.cmd 0x01 2) (romOf [0x01, 0x02, 0xAA, 0xBB])) (fun t =>
      t.ops == [.command 0x01 [0xAA, 0xBB]] && t.idx == 4) = true := by decide

/-- INT-13. -/
theorem test_cmd_overlength :
    nextMeets (exec (.cmd 0x01 3) (romOf [0x01, 0x03, 0xAA, 0xBB])) (fun t =>
      t.ops == [] && t.failed && t.faultCode == 2 && t.faultIndex == 0) = true := by decide

/-- INT-8. -/
theorem test_cmdB7 :
    nextMeets (exec (.cmdB7 0x10 1) (romOf [0x10, 0x81, 0x55])) (fun t =>
      t.ops == [.command 0x10 [0x55]] && t.idx == 3) = true := by decide

/-- INT-4: the delay ends at the first sample 10 ms after its start, and not before. -/
theorem test_delay :
    nextMeets (exec (.delay 10) { romOf [0x0A, 0xFF] with nowScript := [100, 109, 110, 120] }) (fun t =>
      t.idx == 2 && t.ops == [] && t.nowScript == [120] && t.hang == none) = true := by decide

/-- INT-5: a delay of 0 does not wait. -/
theorem test_delay_zero :
    nextMeets (exec (.delay 0) (romOf [0x00, 0xFF])) (fun t => t.idx == 2 && t.hang == none) = true := by decide

/-- INT-11, INT-12: truncation, before decoding. -/
theorem test_truncated :
    ((interpret (romOf [0xFF])).2.faultCode = 1 ∧ (interpret (romOf [0xFF])).2.faultIndex = 0) ∧
    ((interpret (romOf [0x01, 0x00, 0x02])).2.ops = [.command 0x01 []] ∧
      (interpret (romOf [0x01, 0x00, 0x02])).2.faultIndex = 2) := by decide

/-! ### The quantizer and the pixel packer -/

/-- SRC-6 and QNT-1 to QNT-14. -/
theorem test_quantize :
    quantize panel 127 127 127 = 0 ∧ quantize panel 128 128 128 = 1 ∧
    quantize panel 0 0 255 = 5 ∧ quantize panel 0 255 0 = 6 ∧ quantize panel 0 255 255 = 6 ∧
    quantize panel 255 0 255 = 3 ∧ quantize panel 255 255 0 = 2 ∧ quantize panel 127 128 127 = 0 ∧
    quantize panel 127 128 128 = 1 ∧ quantize panel 100 149 100 = 0 ∧ quantize panel 100 150 100 = 6 ∧
    quantize panel 128 128 0 = 0 ∧ quantize panel 129 129 0 = 2 ∧ quantize panel 200 200 150 = 1 ∧
    quantize panel 60 0 0 = 0 ∧ quantize panel 255 255 255 = 1 := by decide

/-- PIX-3. -/
theorem test_pixel_low_nibble :
    nextMeets (writePixel 3 1 0 255 0 ready) (fun t => t.fb == [(3, 0x16)]) = true := by decide

/-- PIX-5 to PIX-8. -/
theorem test_pixel_out_of_bounds :
    pixelIndex panel 4 0 = none ∧ pixelIndex panel (-1) 0 = none ∧ pixelIndex panel 0 2 = none ∧
    pixelIndex panel 0 (-1) = none ∧ pixelIndex panel 3 1 = some 7 := by decide

/-- Writing the fill value back removes the entry: equal memories are equal lists. -/
theorem test_memory_canonical :
    Memory.write (fun _ => 0x11) [(0, 0x35)] 0 0x11 = [] ∧
    Memory.write (fun _ => 0x11) [(2, 0x35)] 1 0x22 = [(1, 0x22), (2, 0x35)] := by decide

/-! ### Reset and the views -/

/-- FLT-3: the buffer and STATUS after hardware reset; FLT-4: a configured 0 is stored as 1. -/
theorem test_hardwareReset :
    nextMeets (hardwareReset (resetWith { panel with resetCycles := 0 } none) (at_ .powerOff)) (fun t =>
      fbRead t 0 == some 0x11 && fbRead t 3 == some 0x11 && fbRead t 4 == none && statusView t == 0x00001040 &&
        t.cfg.resetCycles == 1) = true := by decide

/-- FLT-2. -/
theorem test_hardwareReset_no_buffer :
    nextMeets (hardwareReset { resetWith panel none with allocOk := false } ready) (fun t =>
      t.failed && t.faultCode == 3 && t.faultIndex == 0 && t.state == 0 && !t.active) = true := by decide

/-- State.reset is what hardware reset leaves, but for the record of the reset in the trace. -/
theorem test_reset_is_hardwareReset :
    nextMeets
      (hardwareReset { resetWith Config.resetConfig none with agents := { serving with busyIn := false } } State.reset)
      (fun t => decide (t = { State.reset with trace := [.hardwareReset, .fill (fillValue Config.resetConfig)] })) =
        true := by decide

/-- R305: a reset inside POWER_OFF's ADVANCE, after its start sample and before its command; and one after the command,
which stays emitted. Neither leaves a response. -/
theorem test_reset_inside_step :
    nextMeets (step { at_ .powerOff with requests := [2], resetIn := [some (resetWith panel (some 1))] }) (fun t =>
      t.trace == [.clock 0, .hardwareReset, .fill 0x11] && t.state == 0 && !t.active && t.requests == []) = true ∧
    nextMeets (step { at_ .powerOff with requests := [2], resetIn := [some (resetWith panel (some 2))] }) (fun t =>
      t.ops == [.command 0x02 [0x00]] && t.response == none && t.state == 0) = true := by decide

/-- R305, R61: a window's reset just before a write that has no meaning is taken; one after it finds the step refused. -/
theorem test_reset_before_meaningless_write :
    nextMeets (step { at_ .update with
      requests := [2], resetIn := [some (resetWith panel (some 3))]
      producer := [{ writes := [.byte 3 0x42, .byte 4 0], done := true }] }) (fun t =>
        t.trace == [.clock 0, .producerStart, .fbWrite 3 0x42, .hardwareReset, .fill 0x11]) = true ∧
    refusedWith (step { at_ .update with
      requests := [2], resetIn := [some (resetWith panel (some 4))]
      producer := [{ writes := [.byte 3 0x42, .byte 4 0], done := true }] }) (.frameBufferRange 4) = true := by decide

/-- R305, R287: after a reset that ends a step held open by the transport, a transport that serves again completes. -/
theorem test_reset_lets_the_transport_serve_again :
    nextMeets
      (step { at_ .powerOff with
        hang := some .transport, transportLeft := some 0, resetIn := [some (resetWith panel none)] })
      (fun t => t.hang == none && t.transportLeft == none) = true := by decide

/-- The memory of the state after reset is canonical. -/
theorem test_reset_memory : State.reset.fbWf = true := by decide

/-- STA-1, STA-2, STA-3. -/
theorem test_statusView :
    statusView { at_ .update with waitIdle := true } = 0x000010D3 ∧
    statusView { ready with state := 4, failed := true, faultCode := 1 } = 0x00001344 ∧
    statusView { at_ .resetEnd with deadline := 1010, expectLow := false, rstQ := false } = 0x000000A2 := by decide

/-! ### The word that the host places -/

/-- A placed header word is interpreted by the next step, with zero data bytes. -/
theorem test_withFetchWord_header :
    nextMeets (step (State.reset.withFetchWord 16 0x0102)) (fun t =>
      t.ops == [.command 0x01 [0, 0]] && t.response == some .processed) = true := by decide

/-- A placed request and a placed state code run at the next step. -/
theorem test_withFetchWord_codes :
    nextMeets (step (State.reset.withFetchWord 2 1)) (fun t => t.response == some .accepted) = true ∧
    nextMeets (step (State.reset.withFetchWord 4 8)) (fun t => t.state == 9) = true := by decide

/-! ### Witnesses: a state and operands that meet the hypotheses of each statement, clause by clause

Each bears the name of its statement. The clauses are taken in the statement's order, at boundary values where the
clause has a range. -/

theorem witness_DecodeEncodeRoundTrip :
    (Instr.cmdB7 0x20 126).wf = true ∧ (Instr.cmd 0xFF 127).wf = true ∧ (Instr.delay 255).wf = true := by decide

theorem witness_EncodeDecodeRoundTrip :
    decode (.header 0x20FE) = .ok (.cmdB7 0x20 126) ∧ decode (.state 15) = .ok (.stateUnknownHigh 3) := ⟨rfl, rfl⟩

/-- The marker; the largest count of each command form; the lone byte 0x7F that the last clause leaves out. -/
theorem witness_HeaderBytesDecode :
    (0xFF : Byte) = 0xFF ∧ ((0xFE : Byte) ≠ 0xFF ∧ (0xFE : Byte) ≠ 0x7F) ∧ (0x7F : Byte) ≠ 0xFF := by decide

/-- CMP-4: a difference of exactly 2^31. -/
theorem witness_ReachedIsSignedDifference : 2 ^ 31 ≤ ((0x80000064 : Word) - 100).toNat := by decide

theorem witness_BudgetAndDelayComparators : (0xFFFFFFFF : Nat) < 2 ^ 32 ∧ (0 : Nat) < 2 ^ 32 := by decide

/-- The longest delay, and the sample at which it has just passed. -/
theorem witness_ArmedDelayIsALowerBound :
    (0x7FFFFFFF : Word).toNat < 2 ^ 31 ∧ (now ready).1 + 0x7FFFFFFF ≠ 0 ∧
    (deadlineHolds 0x7FFFFFFF (arm 0x7FFFFFFF ready)).1 = false := by decide

/-- Held at 1009 and let through at 1010: both sides of the equivalence. -/
theorem witness_DeadlineExactUnderTheClockLaw : ∀ v ∈ [(1009 : Word), 1010],
    ClockLaw { at_ .powerOff with deadline := 1010, nowMs := 1000, nowScript := [v] } ∧
    (at_ .powerOff).failed = false ∧ (at_ .powerOff).active = true ∧ (10 : Word).toNat < 2 ^ 31 ∧
    (1010 : Word) = 1000 + 10 ∧ (1010 : Word) ≠ 0 := by
  unfold ClockLaw
  simp only [List.forall_mem_cons, List.not_mem_nil, false_implies, implies_true, and_true]
  decide

theorem witness_TransitionWritesControlState : (0 : Word) = 0 ∧ (10 : Word) ≠ 0 := by decide

theorem witness_StepRunsTheDecodedRequest :
    NoReset { ready with requests := [2] } ∧ ready.hang = none ∧ { ready with requests := [2] }.requests = [2] ∧
    decode (.request 2) = .ok .advance := ⟨rfl, rfl, rfl, rfl⟩

/-- Nothing presented, and code 00 presented. -/
theorem witness_NoRequestNoEffect :
    NoReset ready ∧ ready.hang = none ∧ ready.requests = [] ∧
    NoReset { ready with requests := [0, 1] } ∧ { ready with requests := [0, 1] }.requests = [0, 1] :=
  ⟨rfl, rfl, rfl, rfl, rfl⟩

theorem witness_HeldStepTakesNoRequest :
    NoReset { at_ .update with hang := some .producer } ∧ { at_ .update with hang := some .producer }.hang ≠ none :=
  ⟨rfl, by decide⟩

/-- Accepted; rejected for a failure; rejected in another state. -/
theorem witness_BeginCycleAcceptedOrRejected :
    (ready.failed = false ∧ ready.state = 0) ∧ { ready with failed := true }.failed = true ∧
    (at_ .reset).state ≠ 0 := by decide

theorem witness_ReservedRequestRefused :
    NoReset { ready with requests := [3] } ∧ ready.hang = none ∧ { ready with requests := [3] }.requests = [3] :=
  ⟨rfl, rfl, rfl⟩

/-- IGNORED (failed; inactive); HELD_DELAY one millisecond early; HELD_BUSY with no deadline and with a reached one. -/
theorem witness_AdvanceGates :
    ({ ready with failed := true }.failed = true ∧ ready.active = false) ∧
    ((at_ .powerOff).failed = false ∧ (at_ .powerOff).active = true ∧
      { at_ .powerOff with deadline := 1010, nowMs := 1009 }.deadline ≠ 0 ∧
      reached (now { at_ .powerOff with deadline := 1010, nowMs := 1009 }).1 1010 = false) ∧
    (∀ d ∈ [(0 : Word), 1010],
      ({ at_ .powerOff with deadline := d, nowMs := 1010, waitIdle := true, busyIn := false }.deadline = 0 ∨
        reached (now { at_ .powerOff with deadline := d, nowMs := 1010 }).1 d = true) ∧
      { at_ .powerOff with deadline := d, nowMs := 1010, waitIdle := true, busyIn := false }.waitIdle = true ∧
      panel.busyPresent = true ∧
      ({ at_ .powerOff with busyIn := false }.busyScript.headD false) = panel.busyActiveLevel) := by
  simp only [List.forall_mem_cons, List.not_mem_nil, false_implies, implies_true, and_true]
  decide

/-- With no deadline, and with one that the sample has just reached. -/
theorem witness_AdvanceRunsTheDecodedState :
    (Ungated (at_ .powerOn) ∧ decode (.state (at_ .powerOn).state) = .ok .statePowerOn) ∧
    (Ungated { at_ .powerOn with deadline := 1010, nowMs := 1010 } ∧
      { at_ .powerOn with deadline := 1010, nowMs := 1010 }.deadline ≠ 0 ∧
      decode (.state { at_ .powerOn with deadline := 1010, nowMs := 1010 }.state) = .ok .statePowerOn) :=
  ⟨⟨⟨rfl, rfl, rfl, .inl rfl, rfl⟩, rfl⟩, ⟨rfl, rfl, rfl, .inr (by decide), rfl⟩, by decide, rfl⟩

/-- With no deadline and with one just reached; without a busy line, and with one that is idle. -/
theorem witness_IdleBusyLineLetsAdvanceGoOn :
    ((at_ .powerOn).failed = false ∧ (at_ .powerOn).active = true ∧ (at_ .powerOn).deadline = 0 ∧
      { at_ .powerOn with waitIdle := true }.waitIdle = true) ∧
    reached (now { at_ .powerOn with deadline := 1010, nowMs := 1010, waitIdle := true }).1 1010 = true ∧
    { panel with busyPresent := false }.busyPresent = false ∧
    (panel.busyPresent = true ∧ (at_ .powerOn).busyScript.headD (at_ .powerOn).busyIn ≠ panel.busyActiveLevel) := by
  decide

/-- Every one of the five phases, and a phase delay of 0 and of 5. -/
theorem witness_AdvanceRunsAPhase :
    (∀ here ∈ [StateCode.powerOn, .postPowerOn, .refreshScreen, .powerOff, .deepSleep],
      Ungated (at_ here) ∧ (at_ here).transportLeft = none ∧ (at_ here).state = here.code) ∧
    panel.phaseDelayMs.get .powerOn = 0 ∧ panel.phaseDelayMs.get .refreshScreen ≠ 0 :=
  ⟨fun _ _ => ⟨⟨rfl, rfl, rfl, .inl rfl, rfl⟩, rfl, rfl⟩, rfl, by decide⟩

/-- The invariant holds of a block in the middle of a cycle, in TRANSFER_DATA. -/
theorem witness_inv_transferData : BlockInv { at_ .transferData with cursor := 2 } := by
  constructor <;> decide

theorem witness_AdvanceFollowsTheStateOrder :
    BlockInv { at_ .transferData with cursor := 2 } ∧ { at_ .transferData with cursor := 2 }.hang = none ∧
    nextMeets (exec .advance { at_ .transferData with cursor := 2 }) (fun t =>
      t.state == 6 && t.response == some .processed) = true :=
  ⟨witness_inv_transferData, rfl, by decide⟩

/-- The first and the last of the unknown codes. -/
theorem witness_UnknownStateHalts :
    (11 ≤ (11 : BitVec 4).toNat ∧ decode (.state 11) = .ok .stateUnknown11) ∧
    (11 ≤ (15 : BitVec 4).toNat ∧ decode (.state 15) = .ok (.stateUnknownHigh 3)) ∧
    (at_ .unknown11).state = 11 ∧ (at_ (.unknownHigh 3)).state = 15 :=
  ⟨⟨by decide, rfl⟩, ⟨by decide, rfl⟩, rfl, rfl⟩

/-- No line; the low half; a high half that is not the last; the last high half. -/
theorem witness_ResetDispatches :
    { panel with resetPresent := false }.resetPresent = false ∧
    ((at_ .reset).cfg.resetPresent = true ∧ (at_ .reset).expectLow = true) ∧
    ({ at_ .reset with expectLow := false }.expectLow = false ∧ (0 : BitVec 8) + 1 ≠ { panel with resetCycles := 2 }.resetCycles) ∧
    ({ at_ .reset with expectLow := false }.expectLow = false ∧ (at_ .reset).resetCount + 1 = panel.resetCycles) := by
  decide

/-- With a reset line and 255 cycles, at the first and the last step; without a line. -/
theorem witness_ResetPulseCompletesAtTwiceTheCycleCount :
    (at_ .reset).expectLow = true ∧ (at_ .reset).resetCount = 0 ∧ { panel with resetCycles := 255 }.resetCycles ≠ 0 ∧
    panel.resetPresent = true ∧ 1 ≤ 1 ∧ 510 ≤ 2 * { panel with resetCycles := 255 }.resetCycles.toNat ∧
    { panel with resetPresent := false }.resetPresent = false := by decide

/-- UPDATE with one byte written at the last address, by a producer that reports done and by one that never does. -/
def updating (finished : Bool) : State :=
  { at_ .update with producer := [{ writes := [.byte 3 0x42], done := finished }] }

theorem witness_UpdateRunsTheProducer : ∀ finished ∈ [true, false],
    configProblem (updating finished).cfg = none ∧ (updating finished).hang = none ∧
    (updating finished).nextRun.writes.all (writeLegal (updating finished).cfg) = true ∧
    (updating finished).nextRun.done = finished ∧ (updating finished).fbWf = true ∧
    (∀ w ∈ (updating finished).nextRun.writes, w.address (updating finished).cfg ≠ some 2) := by decide

/-- UPDATE with a byte written by the byte port and then one nibble of it by the pixel port, and the same the other way
round. -/
def updatingBothPorts (pixelLast : Bool) : State :=
  { at_ .update with
    producer := [{
      writes := if pixelLast then [.byte 0 0x42, .pixel 1 0 255 0 0] else [.pixel 1 0 255 0 0, .byte 0 0x42]
      done := true }] }

/-- The last write to byte 0 is a byte's; and it is a pixel's, which keeps the other nibble (R250). -/
theorem witness_UpdateStoresTheLastByteWritten :
    (∀ pixelLast ∈ [true, false], (updatingBothPorts pixelLast).fbWf = true) ∧
    ((updatingBothPorts false).nextRun.writes = [.pixel 1 0 255 0 0] ++ .byte 0 0x42 :: [] ∧
      nextMeets (exec .stateUpdate (updatingBothPorts false)) (fun t => fbRead t 0 == some 0x42) = true) ∧
    ((updatingBothPorts true).nextRun.writes = [.byte 0 0x42] ++ .pixel 1 0 255 0 0 :: [] ∧
      pixelIndex (updatingBothPorts true).cfg 1 0 = some 1 ∧
      nextMeets (exec .stateUpdate (updatingBothPorts true)) (fun t =>
        fbRead t 0 == some (0x40 ||| panel.codeRed.setWidth 8)) = true) ∧
    0 < (updatingBothPorts true).bufferLen ∧
    (∀ w ∈ ([] : List ProducerWrite), w.address panel ≠ some 0) := by decide

/-- A byte at N itself as the first write and after one that has a meaning; a pixel without the pixel port, the same. -/
theorem witness_UpdateRefusesMeaninglessWrites : ∀ before ∈ [[], [ProducerWrite.byte 3 0x42]],
    (before.all (writeLegal panel) = true ∧ configProblem panel = none ∧
      { at_ .update with producer := [{ writes := before ++ [ProducerWrite.byte 4 0], done := true }] }.nextRun.writes =
        before ++ .byte 4 0 :: [] ∧
      (at_ .update).bufferLen ≤ (4 : Word).toNat) ∧
    (before.all (writeLegal { panel with quantPresent := false }) = true ∧
      configProblem { panel with quantPresent := false } = none ∧
      { at_ .update with producer := [{ writes := before ++ [ProducerWrite.pixel 0 0 1 2 3], done := true }] }.nextRun.writes =
        before ++ .pixel 0 0 1 2 3 :: [] ∧
      { panel with quantPresent := false }.quantPresent = false) := by decide

theorem witness_EmptySequenceGoesStraightOn : (romOf []).cfg.initSeq = [] := rfl

theorem witness_PhaseDispatchesEmitAndMoveOn :
    ∀ here ∈ [StateCode.powerOn, .postPowerOn, .refreshScreen, .powerOff, .deepSleep],
      (at_ here).hang = none ∧ (at_ here).transportLeft = none := fun _ _ => ⟨rfl, rfl⟩

/-- A transport that completes exactly the one operation, and one that completes none. -/
theorem witness_PhaseHeldOpenByTheTransport :
    { at_ .powerOn with transportLeft := some 1 }.hang = none ∧
    ({ at_ .powerOn with transportLeft := some 1 }.transportLeft = some 1 ∧ (panel.phaseOps.get .powerOn).length ≤ 1) ∧
    ({ at_ .powerOn with transportLeft := some 0 }.transportLeft = some 0 ∧
      0 < (panel.phaseOps.get .powerOn).length) := by decide

/-- An exact fit (INT-9's condition), with a transport that completes every operation, one more and none; and one byte
too many (INT-14). -/
theorem witness_CommandEntries :
    ((romOf [0x01, 0x02, 0xAA, 0xBB]).hang = none ∧ (romOf [0x01, 0x02, 0xAA, 0xBB]).transportLeft = none ∧
      { romOf [0x01, 0x02, 0xAA, 0xBB] with transportLeft := some 1 }.transportLeft = some (0 + 1) ∧
      { romOf [0x01, 0x02, 0xAA, 0xBB] with transportLeft := some 0 }.transportLeft = some 0 ∧
      (romOf [0x01, 0x02, 0xAA, 0xBB]).idx.toNat + 2 + (2 : BitVec 7).toNat ≤
        (romOf [0x01, 0x02, 0xAA, 0xBB]).cfg.initSeq.length) ∧
    (romOf [0x02, 0x01]).cfg.initSeq.length < (romOf [0x02, 0x01]).idx.toNat + 2 + (1 : BitVec 7).toNat := by decide

/-- Samples at 9 ms and at 10 ms of a DELAY 10. -/
theorem witness_DelayEndsAtTheFirstElapsedSample :
    { romOf [0x0A, 0xFF] with nowScript := [100, 109, 110] }.nowScript = 100 :: ([109] ++ 110 :: []) ∧
    (∀ u ∈ [(109 : Word)], elapsed 100 u (10 : Byte).toNat = false) ∧ elapsed 100 110 (10 : Byte).toNat = true := by
  simp only [List.forall_mem_cons, List.not_mem_nil, false_implies, implies_true, and_true]
  decide

/-- A clock that stops 1 ms early, and a DELAY of 0. -/
theorem witness_DelayHangsWhenTheClockStops :
    (romOf [0x0A, 0xFF]).hang = none ∧
    (now { romOf [0x0A, 0xFF] with nowScript := [100, 109] }).2.nowScript.all
      (fun v => !elapsed (now { romOf [0x0A, 0xFF] with nowScript := [100, 109] }).1 v (10 : Byte).toNat) = true ∧
    (10 : Byte) ≠ 0 ∧ (0 : Byte) = 0 := by decide

/-- Two bytes left, and one byte left. -/
theorem witness_InterpreterRunsTheDecodedEntry :
    ((romOf [0x05, 0x00]).idx.toNat ≠ (romOf [0x05, 0x00]).cfg.initSeq.length ∧
      (romOf [0x05, 0x00]).cfg.initSeq.drop (romOf [0x05, 0x00]).idx.toNat = 0x05 :: 0x00 :: [] ∧
      decode (.header ((0x05 : Byte) ++ (0x00 : Byte))) = .ok (.cmd 0x05 0)) ∧
    ((romOf [0x05]).idx.toNat ≠ (romOf [0x05]).cfg.initSeq.length ∧
      ((romOf [0x05]).cfg.initSeq.drop (romOf [0x05]).idx.toNat).length < 2) := ⟨⟨by decide, rfl, rfl⟩, by decide⟩

/-- Program 1, whose DELAY a stopped clock holds open and a clock with a sample 10 ms on does not; and a program without
waits. -/
theorem witness_AssembledProgramIsInterpretedExactly :
    (assembleAll [.cmd 0x01 [0xAA, 0xBB], .delay 10, .cmd 0x12 []] =
        some [0x01, 0x02, 0xAA, 0xBB, 0x0A, 0xFF, 0x12, 0x00] ∧
      (romOf [0x01, 0x02, 0xAA, 0xBB, 0x0A, 0xFF, 0x12, 0x00]).cfg.initSeq =
        [0x01, 0x02, 0xAA, 0xBB, 0x0A, 0xFF, 0x12, 0x00] ∧
      (romOf []).hang = none ∧ (romOf []).transportLeft = none) ∧
    nextMeets (exec .stateInitialise (romOf [0x01, 0x02, 0xAA, 0xBB, 0x0A, 0xFF, 0x12, 0x00]))
      (fun t => t.hang == some .sleep) = true ∧
    nextMeets (exec .stateInitialise
      { romOf [0x01, 0x02, 0xAA, 0xBB, 0x0A, 0xFF, 0x12, 0x00] with nowScript := [2000, 2010] })
      (fun t => t.hang == none && t.state == 5) = true ∧
    [Asm.cmd 0x01 [0xAA, 0xBB], .delay 0].all (fun a => !asmWaits a) = true := by decide

theorem witness_InterpretedSequenceIsAProgram :
    (romOf [0x01, 0x01, 0x07]).state = 4 ∧ (romOf [0x01, 0x01, 0x07]).cfg.initSeq.length ≤ 65535 ∧
    nextMeets (exec .stateInitialise (romOf [0x01, 0x01, 0x07])) (fun t => t.state == 5) = true := by decide

/-- INT-12, one lone byte; Program 2, a header that declares 5 bytes before 1; and a DELAY before the lone byte that a
stopped clock holds open. -/
theorem witness_MalformedSequenceFaultsPrecisely :
    (assembleAll [.cmd 0x01 []] = some [0x01, 0x00] ∧ [0x01, 0x00].length + [(0x02 : Byte)].length ≤ 65535 ∧
      (romOf [0x01, 0x00, 0x02]).cfg.initSeq = [0x01, 0x00] ++ [0x02] ∧ (romOf []).hang = none ∧
      (romOf []).transportLeft = none) ∧
    (assembleAll [.cmd 0x01 [], .cmd 0x02 [0x33]] = some [0x01, 0x00, 0x02, 0x01, 0x33] ∧
      (0x05 : Byte) ≠ 0xFF ∧ [(0x44 : Byte)].length < ((0x05 : Byte) &&& 0x7F).toNat) ∧
    nextMeets (exec .stateInitialise (romOf [0x0A, 0xFF, 0x02])) (fun t => t.hang == some .sleep) = true ∧
    [Asm.cmd 0x01 []].all (fun a => !asmWaits a) = true := by decide

/-- The first call, and the cursor at N; a clock whose samples never exceed the budget; and both ends of a call: at the
buffer's end, and at the first of two samples over the budget. Under a transport that completes so many operations: of the
call's six, all; all but the last; and three, with the second block the first not completed. -/
theorem witness_TransferCallSendsBlocksInOrder : ∀ c ∈ [(0 : Word), 3],
    (threeBytes c).hang = none ∧ (threeBytes c).transportLeft = none ∧ (threeBytes c).cfg.stagingSize ≠ 0 ∧
    (threeBytes c).cursor.toNat ≤ (threeBytes c).bufferLen ∧
    (threeBytes c).nowScript = [] ∧
    exceeded (threeBytes c).t0 (threeBytes c).nowMs (threeBytes c).cfg.transferBudgetMs = false ∧
    nextMeets (exec .stateTransferData (threeBytes c)) (fun t => t.state == 6) = true ∧
    nextMeets (exec .stateTransferData { threeBytes 0 with nowScript := [10, 11, 12] }) (fun t =>
      t.state == 5 && t.cursor == 2 && clockSamples t == [10, 11]) = true ∧
    nextMeets (exec .stateTransferData { threeBytes 0 with transportLeft := some 6 }) (fun t =>
      t.hang == none && t.state == 6 && t.ops.length == 6) = true ∧
    nextMeets (exec .stateTransferData { threeBytes 0 with transportLeft := some 5 }) (fun t =>
      t.hang == some .transport && t.cursor == 3 && t.ops.length == 6) = true ∧
    nextMeets (exec .stateTransferData { threeBytes 0 with transportLeft := some 3 }) (fun t =>
      t.hang == some .transport && t.cursor == 2 && t.ops.getLast? == some (.data [0xB1])) = true := by
  simp only [List.forall_mem_cons, List.not_mem_nil, false_implies, implies_true, and_true]
  decide

theorem witness_TransferCallAtTheEndSendsNothing :
    (threeBytes 3).hang = none ∧ (threeBytes 3).transportLeft = none ∧
    (threeBytes 3).cursor.toNat = (threeBytes 3).bufferLen ∧ (threeBytes 3).cursor ≠ 0 := by decide

/-- XFR-8: three bytes, S = 1, four calls, each exceeding its budget at its check. -/
theorem witness_TransferSendsTheBufferExactlyOnce :
    (threeBytes 0).hang = none ∧ (threeBytes 0).transportLeft = none ∧ (threeBytes 0).cfg.stagingSize ≠ 0 ∧
    (threeBytes 0).bufferLen ≠ 0 ∧ (threeBytes 0).cursor = 0 ∧
    (threeBytes 0).bufferLen / (threeBytes 0).stagingSize + 1 ≤ [(0, [11]), (20, [31]), (40, [51]), ((60 : Word), ([71] : List Word))].length := by
  decide

theorem witness_QuantizerKeepsToThePalette :
    panel.grayT ≠ 0 ∧ panel.lumaMid.toNat ≤ 764 ∧ panel.onT ≠ 255 := by decide

/-- A gray just below GRAY_T, at LUMA_MID and one above it; a color at GRAY_T; channels at ON_T and above it. -/
theorem witness_QuantizerBranchesAndCorners :
    (max (177 : Byte).toNat (max (128 : Byte).toNat (128 : Byte).toNat) <
        min (177 : Byte).toNat (min (128 : Byte).toNat (128 : Byte).toNat) + panel.grayT.toNat ∧
      panel.lumaMid.toNat < (177 : Byte).toNat + (128 : Byte).toNat + (128 : Byte).toNat) ∧
    (127 : Byte).toNat + (127 : Byte).toNat + (128 : Byte).toNat = panel.lumaMid.toNat ∧
    min (178 : Byte).toNat (min (128 : Byte).toNat (128 : Byte).toNat) + panel.grayT.toNat ≤
      max (178 : Byte).toNat (max (128 : Byte).toNat (128 : Byte).toNat) ∧
    (128 : Byte) ≤ panel.onT ∧ panel.onT < (129 : Byte) := by decide

/-- The first pixel out on each side; the first and the last pixel in, of either parity. -/
theorem witness_PixelWriteReplacesOneNibble :
    (configProblem ready.cfg = none ∧ ready.fbWf = true ∧ ready.cfg.quantPresent = true) ∧
    (∀ xy ∈ [((4 : Word), (0 : Word)), (-1, 0), (0, 2), (0, -1)],
      ¬ (0 ≤ xy.1.toInt ∧ xy.1.toInt < ready.cfg.width.toNat ∧ 0 ≤ xy.2.toInt ∧ xy.2.toInt < ready.cfg.height.toNat)) ∧
    (∀ xy ∈ [((0 : Word), (0 : Word)), (3, 1)],
      0 ≤ xy.1.toInt ∧ xy.1.toInt < ready.cfg.width.toNat ∧ 0 ≤ xy.2.toInt ∧ xy.2.toInt < ready.cfg.height.toNat) ∧
    ((0 : Word).toNat * ready.cfg.width.toNat + (0 : Word).toNat) % 2 = 0 ∧
    ((1 : Word).toNat * ready.cfg.width.toNat + (3 : Word).toNat) % 2 = 1 := by
  simp only [List.forall_mem_cons, List.not_mem_nil, false_implies, implies_true, and_true]
  decide

/-- A legal record, with both allocation outcomes, and the quantizer present and absent. -/
theorem witness_HardwareResetLeavesTheResetState :
    (∀ ok ∈ [true, false], configProblem { resetWith panel none with allocOk := ok }.config = none) ∧
    configProblem { panel with quantPresent := false, fillByte := 0x5A } = none ∧
    3 < panel.bufferLength.toNat := by decide

/-- C = 0, and the largest C. -/
theorem witness_ConfiguredZeroCyclesStoredAsOne :
    { panel with resetCycles := 0 }.resetCycles = 0 ∧ { panel with resetCycles := 255 }.resetCycles ≠ 0 := by decide

/-- Each clause at its boundary. -/
theorem witness_IllegalConfigurationRefused :
    2 ^ 31 ≤ { panel with resetDurationMs := 0x80000000 }.resetDurationMs.toNat ∧
    2 ^ 31 ≤ { panel with transferBudgetMs := 0x80000000 }.transferBudgetMs.toNat ∧
    2 ^ 31 ≤ ({ panel with phaseDelayMs := { panel.phaseDelayMs with deepSleep := 0x80000000 } }.phaseDelayMs.get
      .deepSleep).toNat ∧
    { panel with displayType := 15 }.displayType ≠ 0 ∧ { panel with bufferLength := 0 }.bufferLength = 0 ∧
    { panel with stagingSize := 0 }.stagingSize = 0 ∧ ¬ (paletteCodes { panel with codeGreen := 0 }).Nodup ∧
    765 < { panel with lumaMid := 766 }.lumaMid.toNat ∧
    opsWf panel.stagingSize.toNat ({ panel with phaseOps := { panel.phaseOps with powerOn := [.dataBegin] } }.phaseOps.get
      .powerOn) = false := by decide

theorem witness_HardwareResetEndsAHeldStep :
    { at_ .update with hang := some .producer, resetIn := [some (resetWith panel none)] }.hang ≠ none ∧
    { at_ .update with hang := some .producer, resetIn := [some (resetWith panel none)] }.resetIn =
      some (resetWith panel none) :: [] ∧
    configProblem panel = none := by decide

/-- Before the request; at a held step; inside a step to which no request is presented. -/
theorem witness_HardwareResetComesBeforeTheRequest :
    { ready with resetIn := [some (resetWith panel none)], requests := [1] }.resetIn =
      some (resetWith panel none) :: [] ∧
    (resetWith panel none).cut = none ∧ { ready with hang := some .sleep }.hang ≠ none ∧
    (ready.hang = none ∧ (resetWith panel (some 0)).cut ≠ none ∧ { ready with requests := [0, 1] }.requests = 0 :: [1]) := by
  decide

/-- A reset after the first action of an ADVANCE that completes. -/
theorem witness_HardwareResetInsideAStepCutsIt :
    { at_ .powerOff with requests := [2], resetIn := [some (resetWith panel (some 1))] }.resetIn =
      some (resetWith panel (some 1)) :: [] ∧
    (resetWith panel (some 1)).cut = some 1 ∧ (at_ .powerOff).hang = none ∧
    { at_ .powerOff with requests := [2] }.requests = 2 :: [] ∧ decode (.request 2) = .ok .advance ∧
    nextMeets (exec .advance (at_ .powerOff)) (fun t => t.response == some .processed) = true ∧
    configProblem (resetWith panel (some 1)).config = none :=
  ⟨rfl, rfl, rfl, rfl, rfl, by decide, by decide⟩

/-- The invariant holds just after hardware reset. -/
theorem witness_inv_ready : BlockInv ready := by
  constructor <;> decide

theorem witness_EveryStepKeepsTheInvariant :
    BlockInv ready ∧ nextMeets (step { ready with requests := [1] }) (fun t => t.active) = true :=
  ⟨witness_inv_ready, by decide⟩

theorem witness_EveryStepWithLegalInputsGoesOn : BlockInv ready ∧ StepInputsLegal ready :=
  ⟨witness_inv_ready, ⟨fun _ _ h => (by cases h), fun _ h => (by cases h), by decide⟩⟩

theorem witness_FailureIsPermanent :
    { ready with failed := true, requests := [2] }.failed = true ∧
    NoReset { ready with failed := true, requests := [2] } ∧
    nextMeets (step { ready with failed := true, requests := [2] }) (fun t => t.response == some .ignored) = true :=
  ⟨rfl, rfl, by decide⟩

theorem witness_NoInstructionWritesTheConfiguration :
    nextMeets (exec .stateDeepSleep (at_ .deepSleep)) (fun t => t.cfg == panel) = true := by decide

/-- An instruction that is not UPDATE; and an ADVANCE that does not dispatch UPDATE. -/
theorem witness_OnlyUpdateWritesTheFrameBuffer :
    Instr.stateTransferData ≠ .stateUpdate ∧ (at_ .transferData).state ≠ 3 ∧
    nextMeets (exec .stateTransferData (threeBytes 2)) (fun t => fbRead t 2 == some 0xB2) = true ∧
    nextMeets (exec .advance (at_ .transferData)) (fun t => t.state == 6) = true := by decide

/-- Each of the four forms. -/
theorem witness_EntriesAndHaltsKeepControlState :
    Instr.cmd 0x05 0 = Instr.ofEntry (.cmd 0x05 0) ∧
    nextMeets (exec (.cmd 0x05 0) (romOf [0x05, 0x00])) (fun t => t.idx == 2) = true ∧
    nextMeets (exec .stateIdle (at_ .idle)) (fun t => !t.active) = true ∧
    nextMeets (exec .stateUnknown11 (at_ .unknown11)) (fun t => !t.active) = true ∧
    nextMeets (exec (.stateUnknownHigh 3) (at_ (.unknownHigh 3))) (fun t => !t.active) = true := by decide

theorem witness_TraceOnlyGrows :
    nextMeets (step { ready with requests := [1] }) (fun t => t.trace == [.respond .accepted]) = true := by decide

/-- A panel without reset and busy lines and without delays, and the requests of one cycle. -/
def oneCycle : State :=
  { State.reset with
    cfg := { panel with resetPresent := false, busyPresent := false, phaseDelayMs := Config.resetConfig.phaseDelayMs }
    producer := [{ writes := [.byte 3 0x42], done := true }]
    requests := 1 :: List.replicate 10 2 }

theorem witness_CycleCompletesInTenAdvances :
    BlockInv oneCycle ∧ oneCycle.hang = none ∧ oneCycle.state = 0 ∧ oneCycle.failed = false ∧ oneCycle.resetIn = [] ∧
    oneCycle.nowScript = [] ∧ oneCycle.transportLeft = none ∧ oneCycle.cfg.resetPresent = false ∧
    oneCycle.cfg.busyPresent = false ∧ (∀ p, oneCycle.cfg.phaseDelayMs.get p = 0) ∧
    assembleAll [.cmd 0x01 [0x07]] = some oneCycle.cfg.initSeq ∧
    [Asm.cmd 0x01 [0x07]].all (fun a => !asmWaits a) = true ∧
    oneCycle.nextRun.writes.all (writeLegal oneCycle.cfg) = true ∧ oneCycle.nextRun.done = true ∧
    oneCycle.requests = 1 :: (List.replicate 10 2 ++ []) :=
  ⟨by constructor <;> decide, rfl, rfl, rfl, rfl, rfl, rfl, rfl, rfl, fun p => (by cases p <;> rfl), by decide,
    by decide, by decide, by decide, by decide⟩

/-- Two commands, under a transport that completes both, and one that completes one. -/
theorem witness_InitialiseHeldOpenByTheTransport : ∀ n ∈ [2, 1],
    { romOf [0x01, 0x00, 0x02, 0x01, 0x33] with transportLeft := some n }.hang = none ∧
    { romOf [0x01, 0x00, 0x02, 0x01, 0x33] with transportLeft := some n }.transportLeft = some n ∧
    nextMeets (exec .stateInitialise { romOf [0x01, 0x00, 0x02, 0x01, 0x33] with transportLeft := some n }) (fun t =>
      t.ops == [.command 0x01 [], .command 0x02 [0x33]] && t.hang == (if n = 2 then none else some .transport) &&
        t.state == if n = 2 then 5 else 4) = true := by decide

end Sys2Proof.Tests
end

