-- ==== Sys2Proof/Proofs/IllegalConfig.lean ====
section
/-! PROOF. Hardware reset and records without a meaning (O47): whatever breaks a clause of `LegalConfig` is refused. -/

namespace Sys2Proof.Machine

/-- A legal frame buffer has at least one byte: it holds half a byte for each of its one or more pixels (R60). -/
theorem LegalConfig.bufferLength_ne_zero {c : PanelConfig} (h : LegalConfig c) : c.bufferLength ≠ 0 := by
  intro h0
  have hw : c.width.toNat ≠ 0 := BitVec.toNat_ne.1 h.width
  have hh : c.height.toNat ≠ 0 := BitVec.toNat_ne.1 h.height
  have hpixels : 0 < c.width.toNat * c.height.toNat := by positivity
  have hlength : 0 = sixColorLength c := by simpa [h0] using h.bufferLength
  unfold sixColorLength at hlength
  omega

/-- Hardware reset refuses every record that is not legal, naming a reason (R301). -/
theorem hardwareReset_refused_of_not_legalConfig {r : ResetInput} (s : State) (h : ¬ LegalConfig r.config) :
    ∃ problem, hardwareReset r s = .refused (.illegalConfig problem) := by
  rcases hardwareReset_cases r s with ⟨p, -, hrefused⟩ | ⟨hnone, -⟩
  · exact ⟨p, hrefused⟩
  · exact absurd ((configProblem_eq_none_iff _).1 hnone) h

end Sys2Proof.Machine

namespace Sys2Proof

open Machine

/-- Settles O47: each listed reason contradicts one clause of `LegalConfig`, and hardware reset refuses every record that
is not legal. -/
theorem illegalConfigurationRefused : Obligations.IllegalConfigurationRefused := by
  unfold Obligations.IllegalConfigurationRefused
  intro r s hproblem
  refine hardwareReset_refused_of_not_legalConfig s fun hlegal => ?_
  rcases hproblem with hduration | hbudget | ⟨p, hdelay⟩ | htype | hlength | hstaging | hcodes | hluma | ⟨p, hops⟩
  · exact hduration.not_gt hlegal.resetDuration
  · exact hbudget.not_gt hlegal.transferBudget
  · exact hdelay.not_gt (hlegal.phaseDelay p)
  · exact htype hlegal.displayType
  · exact hlegal.bufferLength_ne_zero hlength
  · exact hlegal.stagingSize hstaging
  · exact hcodes hlegal.paletteCodes
  · exact hluma.not_ge hlegal.lumaMid
  · exact Bool.false_ne_true (hops.symm.trans (hlegal.phaseOps p))

end Sys2Proof
end

