-- ==== Sys2Proof/Proofs/InvariantRules.lean ====
section
/-! PROOF. Rules for the invariant of the block (O51, O52): which operations may be issued, what only observes, and what
a transition must leave of the reset pulse. -/

namespace Sys2Proof.Safety

open Sys2Proof.Machine

/-! ### The operations issued since the last hardware reset -/

/-- Events that issue no operation and are no hardware reset leave the operations as they are. -/
theorem opsSinceReset_append_silent (tr : List Event) {es : List Event} (hreset : .hardwareReset ∉ es)
    (hops : es.filterMap Event.op? = []) : opsSinceReset (tr ++ es) = opsSinceReset tr := by
  rw [opsSinceReset_append tr es hreset, hops, List.append_nil]

@[simp] theorem opsSinceReset_append_clocks (tr : List Event) (vs : List Word) :
    opsSinceReset (tr ++ vs.map .clock) = opsSinceReset tr :=
  opsSinceReset_append_silent tr (by simp) (by
    rw [List.filterMap_map, List.filterMap_eq_nil_iff]
    exact fun _ _ => rfl)

/-- The actions of a handling that the operation rules allow after a closed data phase (R92, R93). -/
structure IssuesLegally (stagingSize : Nat) (es : List Event) : Prop where
  noReset : .hardwareReset ∉ es
  wellFormed : (phaseAfter false (es.filterMap Event.op?)).isSome = true
  sized : (es.filterMap Event.op?).all (opSizeOk stagingSize) = true

/-- Actions that issue nothing are legal, and leave the data phase closed. -/
theorem issuesLegally_of_silent {stagingSize : Nat} {es : List Event} (hreset : .hardwareReset ∉ es)
    (hops : es.filterMap Event.op? = []) : IssuesLegally stagingSize es :=
  ⟨hreset, by rw [hops]; rfl, by rw [hops]; rfl⟩

/-- A phase's operation list, or a beginning of it, is issued legally. -/
theorem issuesLegally_of_prefix {stagingSize : Nat} {ops part : List TransportOp} (h : opsWf stagingSize ops = true)
    (hp : part <+: ops) : IssuesLegally stagingSize (part.map .emit) := by
  simp only [opsWf, Bool.and_eq_true, decide_eq_true_eq] at h
  obtain ⟨hphase, hsize⟩ := h
  refine ⟨by simp, ?_, ?_⟩
  · rw [filterMap_emit]
    exact phaseAfter_isSome_of_prefix hp (by rw [hphase]; rfl)
  · rw [filterMap_emit, List.all_eq_true]
    exact fun op hop => List.all_eq_true.1 hsize op (hp.subset hop)

/-- The commands of bytecode entries are issued legally, and leave the data phase closed. -/
theorem issuesLegally_of_entryOps {stagingSize : Nat} {es : List Event} (hreset : .hardwareReset ∉ es)
    (h : (es.filterMap Event.op?).all isEntryOp = true) : IssuesLegally stagingSize es := by
  refine ⟨hreset, by rw [phaseAfter_of_entryOps h]; rfl, ?_⟩
  rw [List.all_eq_true] at h ⊢
  intro op hop
  have hentry := h op hop
  cases op with
  | command c payload => exact hentry
  | dataBegin => rfl
  | data bytes => exact absurd hentry (by simp [isEntryOp])
  | dataEnd => rfl

/-- A whole Transfer call's operations, with blocks of 1 to S bytes, are legal. -/
theorem transferOps_sized (s : State) {blocks : List (List Byte)}
    (h : ∀ b ∈ blocks, 1 ≤ b.length ∧ b.length ≤ s.stagingSize) :
    (openingOps s ++ (blocks.map TransportOp.data ++ [TransportOp.dataEnd])).all (opSizeOk s.stagingSize) = true := by
  rw [List.all_append, openingOps_sized, List.all_append, List.all_map]
  simpa [opSizeOk] using h

theorem phaseAfter_transferOps (s : State) (blocks : List (List Byte)) :
    phaseAfter false (openingOps s ++ (blocks.map .data ++ [.dataEnd])) = some false := by
  rw [phaseAfter_openingOps, phaseAfter_data]
  rfl

section
variable {s : State} {es : List Event} (h : BlockInv s) (hrun : s.hang = none)
include h hrun

/-- Between requests the data phase is closed, so what is issued next is judged on its own. -/
theorem BlockInv.phaseAfter_append (hreset : .hardwareReset ∉ es) :
    phaseAfter false (opsSinceReset (s.trace ++ es)) = phaseAfter false (es.filterMap Event.op?) := by
  rw [opsSinceReset_append s.trace es hreset, Machine.phaseAfter_append, h.opsClosed hrun]
  rfl

omit hrun in
theorem BlockInv.sized_append (hlegal : IssuesLegally s.stagingSize es) :
    (opsSinceReset (s.trace ++ es)).all (opSizeOk s.stagingSize) = true := by
  rw [opsSinceReset_append s.trace es hlegal.noReset, List.all_append, h.opsSized, hlegal.sized]
  rfl

theorem BlockInv.wellFormed_append (hlegal : IssuesLegally s.stagingSize es) :
    (phaseAfter false (opsSinceReset (s.trace ++ es))).isSome = true := by
  rw [h.phaseAfter_append hrun hlegal.noReset]
  exact hlegal.wellFormed

end

/-! ### What keeps the invariant whatever the Driver State -/

/-- Samples, answers and the inputs' progress keep the invariant; so does clearing `wait_idle`. An answer is given only
to a step that is not held open. -/
theorem BlockInv.observe {s : State} {tr : List Event} {wait : Bool} {answer : Option Response}
    {deadline t0 sleepStart nowMs : Word} {requests : List (BitVec 2)} {nowScript : List Word} {busyIn : Bool}
    {busyScript : List Bool} {producer : List ProducerRun} {left : Option Nat} {resetIn : List (Option ResetInput)}
    (h : BlockInv s) (hops : opsSinceReset tr = opsSinceReset s.trace) (hwait : wait = true → s.waitIdle = true)
    (hanswer : s.hang = none ∨ answer = s.response) :
    BlockInv { s with
      deadline := deadline, waitIdle := wait, t0 := t0, sleepStart := sleepStart, requests := requests,
      response := answer, nowMs := nowMs, nowScript := nowScript, busyIn := busyIn, busyScript := busyScript,
      producer := producer, transportLeft := left, resetIn := resetIn, trace := tr } :=
  { h with
    waitIdlePlace := fun hw => h.waitIdlePlace (hwait hw)
    hangOpen := fun hheld => hanswer.elim (fun hrun => absurd hrun hheld) fun hsame =>
      ⟨(h.hangOpen hheld).1, hsame.trans (h.hangOpen hheld).2⟩
    opsClosed := fun hrun => (congrArg (phaseAfter false) hops).trans (h.opsClosed hrun)
    opsWellFormed := hops ▸ h.opsWellFormed
    opsSized := hops ▸ h.opsSized }

/-- Answering a request keeps the invariant. -/
theorem BlockInv.answer {s : State} (h : BlockInv s) (hrun : s.hang = none) (r : Response) :
    BlockInv (respond r s) :=
  h.observe (by simp) id (.inl hrun)

/-- The clauses of the invariant about the reset pulse (R48.2, R48.3, R163, R165, R42). -/
structure PulseInv (s : State) : Prop where
  expectsLow : s.cfg.resetPresent = true → s.active = true → s.state = StateCode.reset.code → s.expectLow = true
  expectsHigh : s.cfg.resetPresent = true → s.active = true → s.state = StateCode.resetEnd.code → s.expectLow = false
  countBound : s.resetCount ≤ s.cfg.resetCycles
  countBelow : s.cfg.resetPresent = true → s.active = true →
    s.state = StateCode.reset.code ∨ s.state = StateCode.resetEnd.code → s.resetCount < s.cfg.resetCycles
  lineRests : s.state ≠ StateCode.resetEnd.code → s.rstQ = true
  lineAbsent : s.cfg.resetPresent = false → s.rstQ = true

/-- Outside the reset phase the pulse's clauses ask for a resting line and a count within C. -/
theorem pulseInv_of_rest {s : State} (hreset : s.state ≠ StateCode.reset.code)
    (hend : s.state ≠ StateCode.resetEnd.code) (hline : s.rstQ = true) (hcount : s.resetCount ≤ s.cfg.resetCycles) :
    PulseInv s where
  expectsLow _ _ hs := absurd hs hreset
  expectsHigh _ _ hs := absurd hs hend
  countBound := hcount
  countBelow _ _ hs := (hs.elim hreset hend).elim
  lineRests _ := hline
  lineAbsent _ := hline

/-- The low half of a pulse: RESET_END waits for the high half, with the count still below C. -/
theorem pulseInv_of_low {s : State} (hpresent : s.cfg.resetPresent = true) (hcount : s.resetCount < s.cfg.resetCycles) :
    PulseInv { s with state := StateCode.resetEnd.code, expectLow := false, rstQ := false } where
  expectsLow _ _ hs := absurd hs (by decide : StateCode.resetEnd.code ≠ StateCode.reset.code)
  expectsHigh _ _ _ := rfl
  countBound := BitVec.le_of_lt hcount
  countBelow _ _ _ := hcount
  lineRests hs := absurd rfl hs
  lineAbsent habsent := absurd (hpresent.symm.trans habsent) (by simp)

/-- The high half of a pulse that is not the last: RESET waits for the low half, with the count below C. -/
theorem pulseInv_of_high {s : State} {count : BitVec 8} (hcount : count < s.cfg.resetCycles) :
    PulseInv { s with
      state := StateCode.reset.code, expectLow := true, rstQ := true, resetCount := count } where
  expectsLow _ _ _ := rfl
  expectsHigh _ _ hs := absurd hs (by decide : StateCode.reset.code ≠ StateCode.resetEnd.code)
  countBound := BitVec.le_of_lt hcount
  countBelow _ _ _ := hcount
  lineRests _ := rfl
  lineAbsent _ := rfl

end Sys2Proof.Safety

namespace Sys2Proof.Machine

open Sys2Proof.Safety

/-- The code of a Driver State names it again (R89). -/
@[simp] theorem ofCode_code (c : StateCode) : StateCode.ofCode c.code = c := by
  cases c with
  | unknownHigh low => exact (by decide : ∀ low : BitVec 2, StateCode.ofCode (3#2 ++ low) = .unknownHigh low) low
  | _ => rfl

/-- A transition of a block that has not failed, with no transfer in progress, keeps the invariant where it keeps the
pulse's clauses (R140). The pulse's registers may have been written before it. -/
theorem transition_inv {s : State} {c : StateCode} {expectLow rstQ : Bool} {count : BitVec 8} {tr : List Event}
    (d : Word) (h : BlockInv s) (hfailed : s.failed = false) (hcursor : s.cursor = 0) (hnamed : c.code.toNat ≤ 10)
    (hops : opsSinceReset tr = opsSinceReset s.trace)
    (hpulse : PulseInv { s with state := c.code, expectLow := expectLow, rstQ := rstQ, resetCount := count }) :
    BlockInv (transition c d { s with expectLow := expectLow, rstQ := rstQ, resetCount := count, trace := tr }) := by
  obtain ⟨dl, v, script, samples, e⟩ :=
    transition_cases c d { s with expectLow := expectLow, rstQ := rstQ, resetCount := count, trace := tr }
  rw [e]
  have hops' : opsSinceReset (tr ++ samples.map .clock) = opsSinceReset s.trace :=
    (opsSinceReset_append_clocks _ _).trans hops
  exact
    { h with
      stateNamed := hnamed
      cursorPlace := fun hne => absurd hcursor hne
      resetExpectsLow := hpulse.expectsLow
      resetEndExpectsHigh := hpulse.expectsHigh
      resetCountBound := hpulse.countBound
      resetCountBelow := hpulse.countBelow
      waitIdlePlace := fun hw => by simpa using hw
      resetLineRests := hpulse.lineRests
      resetLineAbsent := hpulse.lineAbsent
      faultRecorded := fun hf => absurd (hfailed.symm.trans hf) Bool.false_ne_true
      opsClosed := fun hrun => (congrArg (phaseAfter false) hops').trans (h.opsClosed hrun)
      opsWellFormed := hops' ▸ h.opsWellFormed
      opsSized := hops' ▸ h.opsSized }

/-- A named Driver State outside the reset phase. -/
abbrev OffPulse (c : StateCode) : Prop :=
  c.code.toNat ≤ 10 ∧ c.code ≠ StateCode.reset.code ∧ c.code ≠ StateCode.resetEnd.code

/-- A transition to a state outside the reset phase keeps the invariant where the reset line rests. -/
theorem transition_offPulse_inv {s : State} {c : StateCode} (d : Word) (h : BlockInv s) (hfailed : s.failed = false)
    (hcursor : s.cursor = 0) (hline : s.rstQ = true) (hc : OffPulse c) : BlockInv (transition c d s) := by
  obtain ⟨hnamed, hreset, hend⟩ := hc
  exact transition_inv d h hfailed hcursor hnamed rfl (pulseInv_of_rest hreset hend hline h.resetCountBound)

end Sys2Proof.Machine
end

