-- ==== Sys2Proof/Proofs/Invariant.lean ====
section
/-! PROOF. Every dispatch, request, hardware reset and held step keeps the invariant of the block (O51, O52). -/

namespace Sys2Proof.Machine

open Sys2Proof.Safety

/-! ### The dispatches -/

/-- A state in which ADVANCE dispatches: the invariant holds, a cycle is in progress, nothing is answered yet. -/
structure Dispatching (s : State) : Prop where
  inv : BlockInv s
  running : s.hang = none
  notFailed : s.failed = false
  active : s.active = true
  unanswered : s.response = none

/-- Outside TRANSFER_DATA no transfer is in progress (R48.1). -/
theorem Dispatching.cursor_eq_zero {s : State} (h : Dispatching s) (hstate : s.state ≠ StateCode.transferData.code) :
    s.cursor = 0 := by
  by_contra hne
  exact hstate (h.inv.cursorPlace hne)

/-- What a dispatch does before its transition keeps the invariant: legal actions, with the data phase closed and the
staging block empty unless the step is held open; the positions of the interpreter and of the transfer; the frame
buffer. -/
theorem Dispatching.acted {s : State} {es : List Event} {fb : List Host.Cell} {cursor sleepStart nowMs : Word}
    {stage : List Byte} {idx : BitVec 16} {left : Option Nat} {hang : Option Hang} {nowScript : List Word}
    {producer : List ProducerRun} (h : Dispatching s) (hlegal : IssuesLegally s.stagingSize es)
    (hclosed : hang = none → stage = [] ∧ phaseAfter false (es.filterMap Event.op?) = some false)
    (hmemory : Memory.wf s.fbDefault s.bufferLen fb = true) (hbound : cursor.toNat ≤ s.bufferLen)
    (hplace : cursor ≠ 0 → s.state = StateCode.transferData.code) (hidx : idx.toNat ≤ s.initLen) :
    BlockInv { s with
      fb := fb, cursor := cursor, stage := stage, idx := idx, sleepStart := sleepStart, transportLeft := left,
      hang := hang, nowMs := nowMs, nowScript := nowScript, producer := producer, trace := s.trace ++ es } :=
  { h.inv with
    memoryCanonical := hmemory
    cursorBound := hbound
    cursorPlace := hplace
    stagingEmpty := fun hrun => (hclosed hrun).1
    indexBound := hidx
    hangOpen := fun _ => ⟨h.active, h.unanswered⟩
    opsClosed := fun hrun => (h.inv.phaseAfter_append h.running hlegal.noReset).trans (hclosed hrun).2
    opsWellFormed := h.inv.wellFormed_append h.running hlegal
    opsSized := h.inv.sized_append hlegal }

/-- IDLE (R129): an inactive block. -/
theorem execStateIdle_inv {s t : State} (h : Dispatching s) (he : execStateIdle s = .next t) : BlockInv t := by
  cases he
  exact
    { h.inv with
      resetExpectsLow := fun _ ha => absurd ha Bool.false_ne_true
      resetEndExpectsHigh := fun _ ha => absurd ha Bool.false_ne_true
      resetCountBelow := fun _ ha => absurd ha Bool.false_ne_true
      failedInactive := fun _ => rfl
      hangOpen := fun hheld => absurd h.running hheld }

/-- RESET and RESET_END (R130): the low half leads from RESET to RESET_END, the high half counts one cycle and leads
back to RESET, or on to UPDATE when it was the last. -/
theorem resetPhase_inv {s : State} {other : StateCode} (h : Dispatching s)
    (hstate : s.state = StateCode.reset.code ∧ other = .resetEnd ∨ s.state = StateCode.resetEnd.code ∧ other = .reset) :
    BlockInv (resetPhase other s) := by
  have hcursor : s.cursor = 0 := h.cursor_eq_zero (by rcases hstate with ⟨hs, _⟩ | ⟨hs, _⟩ <;> rw [hs] <;> decide)
  have hbelow : s.cfg.resetPresent = true → s.resetCount < s.cfg.resetCycles := fun hp =>
    h.inv.resetCountBelow hp h.active (hstate.imp And.left And.left)
  rcases resetPhase_cases other s with ⟨hp, e⟩ | ⟨hp, hlow, e⟩ | ⟨hp, hhigh, hmore, e⟩ | ⟨-, -, hlast, e⟩ <;> rw [e]
  · exact transition_offPulse_inv _ h.inv h.notFailed hcursor (h.inv.resetLineAbsent hp) (by decide)
  · obtain ⟨-, rfl⟩ : s.state = StateCode.reset.code ∧ other = .resetEnd := hstate.resolve_right fun ⟨hs, _⟩ =>
      Bool.false_ne_true ((h.inv.resetEndExpectsHigh hp h.active hs).symm.trans hlow)
    exact transition_inv _ h.inv h.notFailed hcursor (by decide) (by simp) (pulseInv_of_low hp (hbelow hp))
  · obtain ⟨-, rfl⟩ : s.state = StateCode.resetEnd.code ∧ other = .reset := hstate.resolve_left fun ⟨hs, _⟩ =>
      Bool.false_ne_true (hhigh.symm.trans (h.inv.resetExpectsLow hp h.active hs))
    have hnext : s.resetCount + 1 < s.cfg.resetCycles := by
      have := hbelow hp
      bv_omega
    exact transition_inv _ h.inv h.notFailed hcursor (by decide) (by simp) (pulseInv_of_high hnext)
  · obtain ⟨hnamed, hnotReset, hnotEnd⟩ : OffPulse .update := by decide
    exact transition_inv _ h.inv h.notFailed hcursor hnamed (by simp)
      (pulseInv_of_rest hnotReset hnotEnd rfl (BitVec.le_of_eq hlast))

/-- UPDATE (R131): the producer's accesses issue nothing and keep the buffer's form. -/
theorem execStateUpdate_inv {s t : State} (h : Dispatching s) (hstate : s.state = StateCode.update.code)
    (he : execStateUpdate s = .next t) : BlockInv t := by
  have hcursor : s.cursor = 0 := h.cursor_eq_zero (by rw [hstate]; decide)
  have hline : s.rstQ = true := h.inv.resetLineRests (by rw [hstate]; decide)
  obtain ⟨hmemory, fb, es, hes, -, hend⟩ := execStateUpdate_cases h.running he
  have hcanonical : t.fbWf = true := (hmemory h.inv.memoryCanonical).1
  have hops := op?_fbAccesses hes
  have hreset := hardwareReset_notMem_fbAccesses hes
  rcases hend with ⟨-, rfl⟩ | ⟨-, rfl⟩
  · have hsilent : (Event.producerStart :: es ++ [Event.producerDone]).filterMap Event.op? = [] := by
      simp [Event.op?, List.filterMap_cons, hops]
    have hwindow : BlockInv { s with
        fb := fb, producer := s.producer.tail, trace := s.trace ++ (.producerStart :: es ++ [.producerDone]) } :=
      h.acted (issuesLegally_of_silent (by simpa using hreset) hsilent)
        (fun hrun => ⟨h.inv.stagingEmpty hrun, by rw [hsilent]; rfl⟩) hcanonical h.inv.cursorBound h.inv.cursorPlace
        h.inv.indexBound
    rw [List.append_assoc]
    exact transition_offPulse_inv (c := .initialise) 0 hwindow h.notFailed hcursor hline (by decide)
  · have hsilent : (Event.producerStart :: es).filterMap Event.op? = [] := by
      simp [Event.op?, List.filterMap_cons, hops]
    exact h.acted (issuesLegally_of_silent (by simpa using hreset) hsilent) (fun hrun => absurd hrun (by simp))
      hcanonical h.inv.cursorBound h.inv.cursorPlace h.inv.indexBound

/-- INITIALISE (R132): the commands of the sequence, then TRANSFER_DATA; or a recorded failure; or a step held open. -/
theorem execStateInitialise_inv {s t : State} (h : Dispatching s) (hstate : s.state = StateCode.initialise.code)
    (he : execStateInitialise s = .next t) : BlockInv t := by
  have hlength : s.initLen ≤ 65535 := ((configProblem_eq_none_iff _).1 h.inv.configLegal).initLen
  have hcursor : s.cursor = 0 := h.cursor_eq_zero (by rw [hstate]; decide)
  have hline : s.rstQ = true := h.inv.resetLineRests (by rw [hstate]; decide)
  obtain ⟨ok, u, hu, hsame, ⟨es, htrace, hreset, hentry⟩, hidx, hend⟩ := execStateInitialise_cases h.running hlength
  rw [hu] at he
  cases he
  have hread : BlockInv { s with
      idx := u.idx, sleepStart := u.sleepStart, transportLeft := u.transportLeft, hang := u.hang, nowMs := u.nowMs,
      nowScript := u.nowScript, trace := s.trace ++ es } :=
    h.acted (issuesLegally_of_entryOps hreset hentry)
      (fun _ => ⟨h.inv.stagingEmpty h.running, phaseAfter_of_entryOps hentry⟩) h.inv.memoryCanonical
      h.inv.cursorBound h.inv.cursorPlace hidx
  rw [htrace] at hsame
  cases hend with
  | ok hrun _ hregs =>
    obtain ⟨hfailed, hcode, hindex, hactive, hresponse⟩ := hregs
    rw [hfailed, hcode, hindex, hactive, hresponse] at hsame
    rw [if_pos rfl, hsame]
    exact transition_offPulse_inv (c := .transferData) 0 hread h.notFailed hcursor hline (by decide)
  | held hheld hregs =>
    obtain ⟨hfailed, hcode, hindex, hactive, hresponse⟩ := hregs
    rw [hfailed, hcode, hindex, hactive, hresponse] at hsame
    rw [if_neg Bool.false_ne_true, hsame]
    exact hread
  | failed hrun hregs =>
    obtain ⟨hfailed, hcode, -, hinactive, -⟩ := hregs
    rw [if_neg Bool.false_ne_true, hsame]
    exact
      { hread with
        resetExpectsLow := fun _ ha => absurd (hinactive.symm.trans ha) Bool.false_ne_true
        resetEndExpectsHigh := fun _ ha => absurd (hinactive.symm.trans ha) Bool.false_ne_true
        resetCountBelow := fun _ ha => absurd (hinactive.symm.trans ha) Bool.false_ne_true
        failedInactive := fun _ => hinactive
        noFaultRecorded := fun hf => absurd (hf.symm.trans hfailed) Bool.false_ne_true
        faultRecorded := fun _ => .inl ⟨hstate, hcode⟩
        unallocatedFailed := fun _ => hfailed
        hangOpen := fun hheld => absurd hrun hheld }

/-- TRANSFER_DATA (R133): a call's operations are legal and close their data phase unless it is held open; a finished
call leaves the cursor at 0. -/
theorem execStateTransferData_inv {s t : State} (h : Dispatching s) (hstate : s.state = StateCode.transferData.code)
    (he : execStateTransferData s = .next t) : BlockInv t := by
  have hline : s.rstQ = true := h.inv.resetLineRests (by rw [hstate]; decide)
  have hstaging := ((configProblem_eq_none_iff _).1 h.inv.configLegal).stagingSize
  obtain ⟨finished, u, blocks, es, hu, hsame, htrace, hreset, hbound, -, hend⟩ :=
    transfer_cases h.running hstaging h.inv.cursorBound
  rw [execStateTransferData_eq hu] at he
  cases he
  rw [htrace] at hsame
  have hcalled (hlegal : IssuesLegally s.stagingSize es)
      (hclosed : u.hang = none → u.stage = [] ∧ phaseAfter false (es.filterMap Event.op?) = some false) :
      BlockInv u := by
    rw [hsame]
    exact h.acted hlegal hclosed h.inv.memoryCanonical hbound (fun _ => hstate) h.inv.indexBound
  cases hend with
  | finished _ hstage hcursor hissued _ _ _ hsized _ =>
    have hclosed := phaseAfter_transferOps s blocks
    rw [← hissued] at hclosed
    have hinv := hcalled ⟨hreset, by rw [hclosed]; rfl, by rw [hissued]; exact transferOps_sized s hsized⟩
      fun _ => ⟨hstage, hclosed⟩
    rw [if_pos rfl]
    exact transition_offPulse_inv (c := .powerOn) 0 hinv (by rw [hsame]; exact h.notFailed) hcursor
      (by rw [hsame]; exact hline) (by decide)
  | exceeded _ hstage _ hissued _ _ hfull _ _ _ =>
    have hclosed := phaseAfter_transferOps s blocks
    rw [← hissued] at hclosed
    have hone : 1 ≤ s.stagingSize := Nat.pos_of_ne_zero (BitVec.toNat_ne.1 hstaging)
    have hsized : ∀ b ∈ blocks, 1 ≤ b.length ∧ b.length ≤ s.stagingSize := fun b hb =>
      ⟨(hfull b hb).symm ▸ hone, (hfull b hb).le⟩
    rw [if_neg Bool.false_ne_true]
    exact hcalled ⟨hreset, by rw [hclosed]; rfl, by rw [hissued]; exact transferOps_sized s hsized⟩
      fun _ => ⟨hstage, hclosed⟩
  | held hheld hwell hsized =>
    rw [if_neg Bool.false_ne_true]
    exact hcalled ⟨hreset, hwell, hsized⟩ fun hrun => absurd (hrun.symm.trans hheld) (by simp)

/-- A parameterised phase (R134 to R138): its configured operations are legal, whole or cut short by the transport. -/
theorem phaseStep_inv {s : State} {p : Phase} {next : StateCode} (h : Dispatching s)
    (hstate : s.state ≠ StateCode.transferData.code ∧ s.state ≠ StateCode.resetEnd.code) (hnext : OffPulse next) :
    BlockInv (phaseStep p next s) := by
  obtain ⟨hnotTransfer, hnotLow⟩ := hstate
  have hops : opsWf s.stagingSize (s.cfg.phaseOps.get p) = true :=
    ((configProblem_eq_none_iff _).1 h.inv.configLegal).phaseOps p
  rcases phaseStep_cases p next h.running with ⟨left, -, e⟩ | ⟨-, left, part, hpart, e⟩ <;> rw [e]
  · have hclosed : phaseAfter false (s.cfg.phaseOps.get p) = some false := by
      simp only [opsWf, Bool.and_eq_true, decide_eq_true_eq] at hops
      exact hops.1
    have hissued : BlockInv { s with
        transportLeft := left, trace := s.trace ++ (s.cfg.phaseOps.get p).map .emit } :=
      h.acted (issuesLegally_of_prefix hops (List.prefix_refl _))
        (fun hrun => ⟨h.inv.stagingEmpty hrun, by rw [filterMap_emit]; exact hclosed⟩) h.inv.memoryCanonical
        h.inv.cursorBound h.inv.cursorPlace h.inv.indexBound
    exact transition_offPulse_inv _ hissued h.notFailed (h.cursor_eq_zero hnotTransfer)
      (h.inv.resetLineRests hnotLow) hnext
  · exact h.acted (issuesLegally_of_prefix hops hpart) (fun hrun => absurd hrun (by simp)) h.inv.memoryCanonical
      h.inv.cursorBound h.inv.cursorPlace h.inv.indexBound

/-- The state register of the invariant names a Driver State (R23). -/
theorem stateCode_of_inv {s : State} (h : BlockInv s) : ∃ c : StateCode, s.state = c.code ∧ c.code.toNat ≤ 10 := by
  have hcode : ∀ code : BitVec 4, code = (StateCode.ofCode code).code := by decide
  exact ⟨.ofCode s.state, hcode _, hcode s.state ▸ h.stateNamed⟩

/-- Every dispatch keeps the invariant (R128). -/
theorem dispatch_inv {s t : State} (h : Dispatching s) (he : dispatch s = .next t) : BlockInv t := by
  obtain ⟨c, hc, hnamed⟩ := stateCode_of_inv h.inv
  simp only [dispatch, hc, ofCode_code] at he
  have hphase : 6 ≤ c.code.toNat → s.state ≠ StateCode.transferData.code ∧ s.state ≠ StateCode.resetEnd.code := by
    intro hle
    rw [hc]
    constructor <;> intro hcode <;> rw [hcode] at hle <;> exact absurd hle (by decide)
  cases c with
  | idle => exact execStateIdle_inv h he
  | reset => cases he; exact resetPhase_inv h (.inl ⟨hc, rfl⟩)
  | resetEnd => cases he; exact resetPhase_inv h (.inr ⟨hc, rfl⟩)
  | update => exact execStateUpdate_inv h hc he
  | initialise => exact execStateInitialise_inv h hc he
  | transferData => exact execStateTransferData_inv h hc he
  | powerOn => cases he; exact phaseStep_inv h (hphase (by decide)) (by decide)
  | postPowerOn => cases he; exact phaseStep_inv h (hphase (by decide)) (by decide)
  | refreshScreen => cases he; exact phaseStep_inv h (hphase (by decide)) (by decide)
  | powerOff => cases he; exact phaseStep_inv h (hphase (by decide)) (by decide)
  | deepSleep => cases he; exact phaseStep_inv h (hphase (by decide)) (by decide)
  | unknown11 => exact absurd hnamed (by decide)
  | unknownHigh low => exact absurd hnamed ((by decide : ∀ low : BitVec 2, ¬ (3#2 ++ low).toNat ≤ 10) low)

/-! ### Requests, hardware reset and the step -/

theorem dispatchAndRespond_inv {s t : State} (h : BlockInv s) (hrun : s.hang = none) (hfailed : s.failed = false)
    (hactive : s.active = true) (he : dispatchAndRespond s = .next t) : BlockInv t := by
  obtain ⟨u, hu, ht⟩ := thenDo_eq_next he
  have hstart : BlockInv { s with response := none } := h.observe rfl id (.inl hrun)
  have hinv : BlockInv u := dispatch_inv ⟨hstart, hrun, hfailed, hactive, rfl⟩ hu
  cases ht
  rcases finishDispatch_cases u with ⟨hrun', -, e⟩ | ⟨-, e⟩ <;> rw [e]
  · exact hinv.answer hrun' _
  · exact hinv

/-- The start sample of an ADVANCE keeps the invariant (R125). -/
theorem sampleT0_inv {s : State} (h : BlockInv s) (hrun : s.hang = none) : BlockInv (sampleT0 s) := by
  rw [sampleT0_eq]
  exact h.observe (opsSinceReset_concat _ _) id (.inl hrun)

/-- ADVANCE keeps the invariant (R122). -/
theorem execAdvance_inv {s t : State} (h : BlockInv s) (hrun : s.hang = none) (he : execAdvance s = .next t) :
    BlockInv t := by
  have hsampled : BlockInv (sampleT0 s) := sampleT0_inv h hrun
  have hrun' : (sampleT0 s).hang = none := by rw [sampleT0_eq]; exact hrun
  rcases execAdvance_cases s with ⟨-, e⟩ | ⟨-, -, e⟩ | ⟨lvl, script, -, -, e⟩ | ⟨lvl, script, es, hes, hf, ha, e⟩ <;>
    rw [e] at he
  · cases he
    exact h.answer hrun _
  · cases he
    exact hsampled.answer hrun' _
  · cases he
    have hpolled : BlockInv { sampleT0 s with
        deadline := 0, busyIn := lvl, busyScript := script, trace := (sampleT0 s).trace ++ [.busy lvl] } :=
      hsampled.observe (opsSinceReset_concat _ _) id (.inl hrun')
    exact hpolled.answer hrun' _
  · have hops : opsSinceReset ((sampleT0 s).trace ++ es) = opsSinceReset (sampleT0 s).trace := by
      rcases hes with rfl | rfl <;> simp
    refine dispatchAndRespond_inv
      (hsampled.observe hops (fun hw => absurd hw Bool.false_ne_true) (.inl hrun')) hrun' ?_ ?_ he
    · rw [sampleT0_eq]; exact hf
    · rw [sampleT0_eq]; exact ha

/-- BEGIN_CYCLE, said once (R124). -/
theorem execBeginCycle_cases (s : State) :
    ((s.failed = true ∨ s.state ≠ StateCode.idle.code) ∧ execBeginCycle s = .next (respond .rejected s)) ∨
      (s.failed = false ∧ s.state = StateCode.idle.code ∧
        execBeginCycle s = .next (respond .accepted (startCycle s))) := by
  by_cases h : s.failed = true ∨ s.state ≠ StateCode.idle.code
  · exact .inl ⟨h, if_pos (by simpa using h)⟩
  · exact .inr ⟨by simpa using (not_or.1 h).1, by simpa using (not_or.1 h).2, if_neg (by simpa using h)⟩

/-- BEGIN_CYCLE keeps the invariant: a cycle starts in RESET with the pulse at its beginning. -/
theorem execBeginCycle_inv {s t : State} (h : BlockInv s) (hrun : s.hang = none) (he : execBeginCycle s = .next t) :
    BlockInv t := by
  rcases execBeginCycle_cases s with ⟨-, e⟩ | ⟨hfailed, hidle, e⟩ <;> rw [e] at he <;> cases he
  · exact h.answer hrun _
  · have hzero : (0 : BitVec 8) < s.cfg.resetCycles := (BitVec.pos_iff_ne_zero _).2 h.cyclesPositive
    have hstart : BlockInv (startCycle s) :=
      { h with
        stateNamed := (by decide : StateCode.reset.code.toNat ≤ 10)
        cursorPlace := fun hne => absurd (hidle.symm.trans (h.cursorPlace hne)) (by decide)
        resetExpectsLow := fun _ _ _ => rfl
        resetEndExpectsHigh := fun _ _ hs => absurd hs (by decide : StateCode.reset.code ≠ StateCode.resetEnd.code)
        resetCountBound := BitVec.le_of_lt hzero
        resetCountBelow := fun _ _ _ => hzero
        failedInactive := fun hf => absurd (hfailed.symm.trans hf) Bool.false_ne_true
        waitIdlePlace := fun hw => absurd hw Bool.false_ne_true
        resetLineRests := fun _ => h.resetLineRests (by rw [hidle]; decide)
        faultRecorded := fun hf => absurd (hfailed.symm.trans hf) Bool.false_ne_true
        hangOpen := fun hheld => absurd hrun hheld }
    exact hstart.answer hrun _

theorem execRequest_inv {s t : State} (r : Request) (h : BlockInv s) (hrun : s.hang = none)
    (he : exec (.ofRequest r) s = .next t) : BlockInv t := by
  cases r with
  | beginCycle => exact execBeginCycle_inv h hrun he
  | advance => exact execAdvance_inv h hrun he
  | reserved => cases he

/-- A hardware reset starts the operations over (R305). -/
theorem opsSinceReset_hardwareReset (tr : List Event) (r : ResetInput) :
    opsSinceReset (tr ++ .hardwareReset :: fillEvents r) = [] := by
  obtain ⟨hreset, hops⟩ : .hardwareReset ∉ fillEvents r ∧ (fillEvents r).filterMap Event.op? = [] := by
    unfold fillEvents
    split <;> simp [Event.op?]
  rw [List.append_cons, opsSinceReset_append_silent _ hreset hops, opsSinceReset_concat]

/-- Hardware reset sets the invariant up, whatever the state before it (R300). -/
theorem hardwareReset_inv {r : ResetInput} {s t : State} (he : hardwareReset r s = .next t) : BlockInv t := by
  cases hlegal : configProblem r.config with
  | some p => simp [hardwareReset, hlegal] at he
  | none =>
    simp only [hardwareReset, hlegal] at he
    cases he
    have hops := opsSinceReset_hardwareReset s.trace r
    exact
      { configLegal := hlegal
        cyclesPositive := storedConfig_resetCycles r.config
        memoryCanonical := rfl
        stateNamed := (by decide : StateCode.idle.code.toNat ≤ 10)
        cursorBound := Nat.zero_le _
        cursorPlace := fun hne => absurd rfl hne
        resetExpectsLow := fun _ _ _ => rfl
        resetEndExpectsHigh := fun _ ha => absurd ha Bool.false_ne_true
        resetCountBound := Nat.zero_le _
        resetCountBelow := fun _ ha => absurd ha Bool.false_ne_true
        failedInactive := fun _ => rfl
        waitIdlePlace := fun hw => absurd hw Bool.false_ne_true
        stagingEmpty := fun _ => rfl
        resetLineRests := fun _ => rfl
        resetLineAbsent := fun _ => rfl
        indexBound := Nat.zero_le _
        noFaultRecorded := fun hf => ⟨by rw [if_pos (by simpa using hf)]; rfl, rfl⟩
        faultRecorded := fun hf => .inr ⟨rfl, by rw [if_neg (by simpa using hf)]; rfl⟩
        unallocatedFailed := fun ha => congrArg not ha
        hangOpen := fun hheld => absurd rfl hheld
        opsClosed := fun _ => congrArg (phaseAfter false) hops
        opsWellFormed := congrArg (fun ops => (phaseAfter false ops).isSome) hops
        opsSized := congrArg (fun ops => ops.all (opSizeOk r.config.stagingSize.toNat)) hops }

/-- A step cut by a hardware reset answers only with what the reset leaves (R305). -/
theorem resetInside_inv {n : Nat} {r : ResetInput} {run : State → Host.Outcome State Fault Refusal} {s t : State}
    (he : resetInside n r run s = .next t) : BlockInv t := by
  rcases resetInside_cases n r run s with ⟨u, -, e⟩ | ⟨q, u, -, -, -, e⟩ | ⟨q, -, e⟩ <;> rw [e] at he
  · exact hardwareReset_inv he
  · exact hardwareReset_inv he
  · cases he

end Sys2Proof.Machine

namespace Sys2Proof

open Machine Safety

/-- Settles O52: a step does nothing, runs a request, or ends in a hardware reset, which sets the invariant up
afresh. -/
theorem everyStepKeepsTheInvariant : Obligations.EveryStepKeepsTheInvariant := by
  unfold Obligations.EveryStepKeepsTheInvariant
  intro s t h he
  cases hreset : (takeReset s).1 with
  | none =>
    rcases step_of_noReset hreset with ⟨-, e⟩ | ⟨hrun, e⟩ | ⟨r, hrun, e⟩ <;> rw [e] at he
    · cases he
      exact h.observe rfl id (.inr rfl)
    · cases he
      exact h.observe rfl id (.inl hrun)
    · have hstart : BlockInv { s with resetIn := s.resetIn.tail, requests := s.requests.tail } :=
        h.observe rfl id (.inl hrun)
      exact execRequest_inv r hstart hrun he
  | some r =>
    rcases step_of_reset hreset with ⟨-, e⟩ | ⟨-, e⟩ | ⟨n, q, -, -, e⟩ <;> rw [e] at he
    · exact hardwareReset_inv he
    · exact hardwareReset_inv he
    · exact resetInside_inv he

/-- Settles O51: `State.reset` is what hardware reset with its record leaves, but for the trace. -/
theorem resetStateMeetsTheInvariant : Obligations.ResetStateMeetsTheInvariant := by
  unfold Obligations.ResetStateMeetsTheInvariant
  have hreset := hardwareReset_inv (s := State.reset) (r :=
    { config := Config.resetConfig, allocOk := true, cut := none, agents :=
      { nowMs := 0, nowScript := [], busyIn := false, busyScript := [], producer := [], transportLeft := none } })
    rfl
  exact hreset.observe (tr := []) rfl id (.inl rfl)

end Sys2Proof
end

