-- ==== Sys2Proof/Proofs/StateRules.lean ====
section
/-! PROOF. The read-only views, the stored record, and what a step or an instruction leaves unchanged (O11, O18, O44,
O46, O54, O55). -/

namespace Sys2Proof.Machine

open Sys2Proof.Safety

/-! ### What an instruction leaves -/

/-- An ADVANCE that dispatches leaves the configuration (R32). -/
theorem dispatchAndRespond_cfg {s t : State} (he : dispatchAndRespond s = .next t) : t.cfg = s.cfg := by
  obtain ⟨u, hu, ht⟩ := thenDo_eq_next he
  obtain ⟨hcfg, -⟩ := dispatch_keeps hu
  cases ht
  rcases finishDispatch_cases u with ⟨-, -, e⟩ | ⟨-, e⟩ <;> rw [e] <;> exact hcfg

theorem execAdvance_cfg {s t : State} (he : execAdvance s = .next t) : t.cfg = s.cfg := by
  have hsample : (sampleT0 s).cfg = s.cfg := by rw [sampleT0_eq]
  rcases execAdvance_cases s with ⟨-, e⟩ | ⟨-, -, e⟩ | ⟨lvl, script, -, -, e⟩ | ⟨lvl, script, es, -, -, -, e⟩ <;>
    rw [e] at he
  · cases he
    rfl
  · cases he
    exact hsample
  · cases he
    exact hsample
  · exact (dispatchAndRespond_cfg he).trans hsample

/-! ### ADVANCE past its deadline -/

/-- With the block in a cycle and its deadline passed, ADVANCE polls the busy line and is held by it or dispatches, with
no deadline left (R105, R126, R127). -/
theorem execAdvance_of_deadlinePassed {s : State} (hfailed : s.failed = false) (hactive : s.active = true)
    (hdeadline : s.deadline = 0 ∨ reached (now s).1 s.deadline = true) :
    execAdvance s =
      if (busyHolds { sampleT0 s with deadline := 0 }).1 = true then
        .next (respond .heldBusy (busyHolds { sampleT0 s with deadline := 0 }).2)
      else dispatchAndRespond (busyHolds { sampleT0 s with deadline := 0 }).2 := by
  have hpassed : deadlineHolds (sampleT0 s).t0 (sampleT0 s) = (false, { sampleT0 s with deadline := 0 }) := by
    rcases deadlineHolds_cases (sampleT0 s).t0 (sampleT0 s) with ⟨h0, e⟩ | ⟨-, -, e⟩ | ⟨h0, hnot, e⟩
    · rw [e, ← h0]
    · exact e
    · rw [sampleT0_eq] at h0 hnot
      exact absurd (hdeadline.resolve_left h0) (by simp [hnot])
  have hrunning : ¬ (s.failed || !s.active) = true := by simp [hfailed, hactive]
  rw [execAdvance, if_neg hrunning]
  simp only
  rw [hpassed]
  rfl

/-- Without a busy line a set `wait_idle` is cleared and nothing else happens (R43, R127). -/
theorem busyHolds_of_absent {s : State} (hwait : s.waitIdle = true) (habsent : s.cfg.busyPresent = false) :
    busyHolds s = (false, { s with waitIdle := false }) := by
  simp [busyHolds, busyAsserted, hwait, habsent]

/-- A busy line at its idle level is sampled once and clears `wait_idle` (R43, R127). -/
theorem busyHolds_of_idle {s : State} (hwait : s.waitIdle = true) (hpresent : s.cfg.busyPresent = true)
    (hidle : s.busyScript.headD s.busyIn ≠ s.cfg.busyActiveLevel) :
    busyHolds s = (false, { s with
      waitIdle := false, busyIn := s.busyScript.headD s.busyIn, busyScript := s.busyScript.tail,
      trace := s.trace ++ [.busy (s.busyScript.headD s.busyIn)] }) := by
  rcases busyAsserted_cases s with ⟨habsent, -⟩ | ⟨-, e⟩
  · exact absurd (hpresent.symm.trans habsent) (by simp)
  · rw [busyHolds, if_pos hwait, e, beq_eq_false_iff_ne.2 hidle]
    rfl

/-- With `wait_idle` clear the busy line is not polled. -/
theorem busyHolds_of_clear {s : State} (hclear : s.waitIdle = false) : busyHolds s = (false, s) := by
  simp [busyHolds, hclear]

/-- What the clock shows does not depend on `wait_idle`. -/
theorem now_fst_waitIdle (s : State) (w : Bool) : (now { s with waitIdle := w }).1 = (now s).1 := by
  simp only [now]
  cases s.nowScript <;> rfl

/-- The start sample neither reads nor writes `wait_idle`. -/
theorem sampleT0_waitIdle (s : State) (w : Bool) :
    sampleT0 { s with waitIdle := w } = { sampleT0 s with waitIdle := w } := by
  simp only [sampleT0_eq, now_fst_waitIdle]

/-! ### The step's inputs -/

/-- No hardware reset is asserted exactly when the input's next entry is not one. -/
theorem noReset_iff {s : State} : NoReset s ↔ s.resetIn.head?.join = none := by
  rw [NoReset, takeReset_eq]

/-- A code that decodes to an instruction presents the request of that instruction (R90). -/
theorem decodeRequest_of_decode {code : BitVec 2} {i : Instr} (h : decode (.request code) = .ok i) :
    (decodeRequest code).map Instr.ofRequest = some i := by
  cases hcode : decodeRequest code with
  | none => simp [decode, hcode] at h
  | some r => simpa [decode, hcode] using h

/-! ### A failed block -/

/-- A failed block answers BEGIN_CYCLE with REJECTED and ADVANCE with IGNORED, and does nothing else (R27, R275). -/
theorem execRequest_of_failed {q : Request} {s t : State} (hfailed : s.failed = true)
    (he : exec (.ofRequest q) s = .next t) : ∃ r, t = respond r s := by
  cases q with
  | beginCycle =>
    refine ⟨.rejected, ?_⟩
    rcases execBeginCycle_cases s with ⟨-, e⟩ | ⟨hnot, -⟩
    · exact (Host.Outcome.next.inj (e.symm.trans he)).symm
    · exact absurd (hnot.symm.trans hfailed) Bool.false_ne_true
  | advance =>
    refine ⟨.ignored, ?_⟩
    rcases execAdvance_cases s with ⟨-, e⟩ | ⟨hnot, -⟩ | ⟨_, _, hnot, -⟩ | ⟨_, _, _, -, hnot, -⟩
    · exact (Host.Outcome.next.inj (e.symm.trans he)).symm
    all_goals exact absurd (hnot.symm.trans hfailed) Bool.false_ne_true
  | reserved => cases he

/-- The input lists, the answer and the trace are no registers. -/
theorem sameRegisters_of_inputs (s : State) {requests : List (BitVec 2)} {resetIn : List (Option ResetInput)}
    {answer : Option Response} {tr : List Event} :
    SameRegisters s { s with requests := requests, resetIn := resetIn, response := answer, trace := tr } := by
  constructor <;> intros <;> rfl

end Sys2Proof.Machine

namespace Sys2Proof

open Machine Safety

/-- Settles O55: the dispatches and entries by the frame law, the two requests by their own case lemmas. -/
theorem noInstructionWritesTheConfiguration : Obligations.NoInstructionWritesTheConfiguration := by
  unfold Obligations.NoInstructionWritesTheConfiguration
  intro i s t he
  by_cases hbegin : i = .beginCycle
  · subst hbegin
    rcases execBeginCycle_cases s with ⟨-, e⟩ | ⟨-, -, e⟩ <;> cases e.symm.trans he <;> rfl
  by_cases hadvance : i = .advance
  · subst hadvance
    exact execAdvance_cfg he
  by_cases hupdate : i = .stateUpdate
  · subst hupdate
    exact (execStateUpdate_keeps he).1
  · exact (keeps_exec_dispatch he hupdate hbegin hadvance).cfg

/-- Settles O18: past the deadline only the poll of the busy line is left, and it clears `wait_idle`. -/
theorem idleBusyLineLetsAdvanceGoOn : Obligations.IdleBusyLineLetsAdvanceGoOn := by
  unfold Obligations.IdleBusyLineLetsAdvanceGoOn
  intro s hfailed hactive hdeadline hwait
  have hadvance := execAdvance_of_deadlinePassed hfailed hactive hdeadline
  have hpolls : ({ sampleT0 s with deadline := 0 } : State).waitIdle = true := by rw [sampleT0_eq]; exact hwait
  constructor
  · intro habsent
    have hadvance' := execAdvance_of_deadlinePassed (s := { s with waitIdle := false }) hfailed hactive
      (by rw [now_fst_waitIdle]; exact hdeadline)
    rw [sampleT0_waitIdle, busyHolds_of_clear rfl] at hadvance'
    rw [busyHolds_of_absent hpolls (by rw [sampleT0_eq]; exact habsent)] at hadvance
    exact hadvance.trans hadvance'.symm
  · intro hpresent hidle
    rw [busyHolds_of_idle hpolls (by rw [sampleT0_eq]; exact hpresent) (by rw [sampleT0_eq]; exact hidle)] at hadvance
    refine hadvance.trans ?_
    simp only [sampleT0_eq]
    rfl

/-- Settles O54: without hardware reset a step of a failed block moves its inputs on and at most answers. -/
theorem failureIsPermanent : Obligations.FailureIsPermanent := by
  unfold Obligations.FailureIsPermanent
  intro s t hfailed hreset he
  rcases step_of_noReset hreset with ⟨-, e⟩ | ⟨-, e⟩ | ⟨q, -, e⟩ <;> rw [e] at he
  · cases he
    exact ⟨hfailed, sameRegisters_of_inputs s, rfl, [], by simp, rfl⟩
  · cases he
    exact ⟨hfailed, sameRegisters_of_inputs s, rfl, [], by simp, rfl⟩
  · obtain ⟨r, rfl⟩ := execRequest_of_failed (s := { s with resetIn := s.resetIn.tail, requests := s.requests.tail })
      hfailed he
    exact ⟨hfailed, sameRegisters_of_inputs s, by simp [State.ops, Event.op?], [.respond r], rfl, rfl⟩

/-- Settles O44: each field by its place in the concatenation. -/
theorem statusViewLayout : Obligations.StatusViewLayout := by
  unfold Obligations.StatusViewLayout
  intro s
  refine ⟨?state, ?waitIdle, ?armed, ?expectLow, ?active, ?failed, ?faultCode, ?rstQ, ?reserved, ?count, rfl, ?index⟩
  case state | faultCode | reserved =>
    simp (disch := decide) only [statusView, BitVec.extractLsb'_append_eq_of_add_le, BitVec.extractLsb'_append_eq_of_le]
    exact BitVec.extractLsb'_eq_self
  case waitIdle | expectLow | active | failed | rstQ =>
    simp only [statusView, bit, BitVec.getLsbD_append]
    simp
  case armed =>
    rw [Bool.eq_iff_iff]
    simp only [statusView, bit, BitVec.getLsbD_append]
    simp
  case count | index => exact BitVec.toNat_setWidth_of_le (by decide)

/-- Settles O11: nothing is held and no reset comes first, so the step is the decoded request. -/
theorem stepRunsTheDecodedRequest : Obligations.StepRunsTheDecodedRequest := by
  unfold Obligations.StepRunsTheDecodedRequest
  intro s code rest i hreset hrun hrequests hdecode
  rw [step, takeReset_eq, noReset_iff.1 hreset]
  simp [hrun, takeRequest, hrequests, decodeRequest_of_decode hdecode]

/-- Settles O46: the stored record differs from the configured one in the cycle count alone, and only when that is 0. -/
theorem configuredZeroCyclesStoredAsOne : Obligations.ConfiguredZeroCyclesStoredAsOne := by
  unfold Obligations.ConfiguredZeroCyclesStoredAsOne
  intro c
  constructor
  · intro hzero
    rw [storedConfig, if_pos hzero]
  · intro hne
    rw [storedConfig, if_neg hne]

end Sys2Proof
end

