-- ==== Sys2Proof/Proofs/ProducerWindow.lean ====
section
/-! PROOF. The producer's window in an UPDATE (O26, O27): the bytes its writes leave, and where a write without a
meaning ends it. -/

namespace Sys2Proof.Machine

open Sys2Proof.Safety

/-! ### A write that is carried out stays inside the frame buffer -/

theorem lt_bufferLen_of_storeByte {k : Nat} {v : Byte} {s t : State} (h : storeByte k v s = .next t) :
    k < s.bufferLen := by
  rcases storeByte_cases k v s with ⟨hk, -⟩ | ⟨-, e⟩
  · exact hk
  · cases e.symm.trans h

theorem lt_bufferLen_of_producerWrite {w : ProducerWrite} {s t : State} {k : Nat} (h : producerWrite w s = .next t)
    (ha : w.address s.cfg = some k) : k < s.bufferLen := by
  cases w with
  | byte addr v =>
    cases ha
    exact lt_bufferLen_of_storeByte h
  | pixel x y r g b =>
    obtain ⟨idx, hidx, rfl⟩ := Option.map_eq_some_iff.1 ha
    simp only [producerWrite, writePixel, hidx] at h
    split at h
    · exact (lt_bufferLen_of_storeByte h :)
    · cases h

theorem lt_bufferLen_of_producerWrites {ws : List ProducerWrite} {w : ProducerWrite} {s t : State} {k : Nat}
    (h : producerWrites ws s = .next t) (hw : w ∈ ws) (ha : w.address s.cfg = some k) : k < s.bufferLen := by
  induction ws generalizing s with
  | nil => cases hw
  | cons first rest ih =>
    obtain ⟨u, hu, ht⟩ := thenDo_eq_next h
    rcases List.mem_cons.1 hw with rfl | hw
    · exact lt_bufferLen_of_producerWrite hu ha
    · have hcfg : u.cfg = s.cfg := (producerWrite_spec hu).cfg
      have hk : k < u.bufferLen := ih ht hw (hcfg ▸ ha)
      rwa [State.bufferLen, hcfg] at hk

/-! ### What UPDATE leaves in the frame buffer -/

/-- An UPDATE that completes has stored inside the frame buffer only (R61). -/
theorem lt_bufferLen_of_execStateUpdate {w : ProducerWrite} {s t : State} {k : Nat} (h : execStateUpdate s = .next t)
    (hw : w ∈ s.nextRun.writes) (ha : w.address s.cfg = some k) : k < s.bufferLen := by
  obtain ⟨u, hu, -⟩ := thenDo_eq_next h
  obtain ⟨u', hwrites, -⟩ := thenDo_eq_next hu
  exact (lt_bufferLen_of_producerWrites hwrites hw ha :)

/-- The transition that ends an UPDATE leaves the bytes as the window left them (R131). -/
theorem fbRead_execStateUpdate {s t : State} {k : Nat} (hwf : s.fbWf = true) (h : execStateUpdate s = .next t)
    (hk : k < s.bufferLen) : fbRead t k = some (windowByte s.cfg k s.nextRun.writes (s.fbByte k)) := by
  obtain ⟨u, hu, ht⟩ := thenDo_eq_next h
  obtain ⟨hsame, hbytes, -⟩ := invokeProducer_spec hu
  have hlen : u.bufferLen = s.bufferLen := by rw [hsame]; rfl
  cases ht
  rw [(keeps_andThen (keeps_transition .initialise 0) u).fbRead k, fbRead, if_pos (hlen ▸ hk), (hbytes hwf).2 k]

/-- Where no later write of the window stores to the byte at `k`, UPDATE leaves there what the last one made of it. -/
theorem fbRead_execStateUpdate_of_last {before after : List ProducerWrite} {w : ProducerWrite} {s t : State} {k : Nat}
    (hwf : s.fbWf = true) (h : execStateUpdate s = .next t) (hwrites : s.nextRun.writes = before ++ w :: after)
    (ha : w.address s.cfg = some k) (hafter : ∀ w' ∈ after, w'.address s.cfg ≠ some k) :
    fbRead t k = some (storedByte s.cfg k (windowByte s.cfg k before (s.fbByte k)) w) := by
  have hk : k < s.bufferLen := lt_bufferLen_of_execStateUpdate h (by simp [hwrites]) ha
  rw [fbRead_execStateUpdate hwf h hk, hwrites, windowByte_append_cons, windowByte_of_elsewhere _ hafter]

/-! ### A write without a meaning -/

theorem producerWrites_append (before after : List ProducerWrite) (s : State) :
    producerWrites (before ++ after) s = thenDo (producerWrites before s) (producerWrites after) := by
  induction before generalizing s with
  | nil => rfl
  | cons w before ih =>
    simp only [List.cons_append, producerWrites]
    cases producerWrite w s with
    | next u => exact ih u
    | fault q => rfl
    | refused q => rfl

/-- A write refused under the block's configuration, after writes that are carried out, ends the UPDATE with its
refusal (R61, R252). -/
theorem execStateUpdate_refused {before rest : List ProducerWrite} {w : ProducerWrite} {s : State} {q : Refusal}
    (hbefore : before.all (writeLegal s.cfg) = true) (hc : before = [] ∨ configProblem s.cfg = none)
    (hwrites : s.nextRun.writes = before ++ w :: rest)
    (hw : ∀ u : State, u.cfg = s.cfg → producerWrite w u = .refused q) : execStateUpdate s = .refused q := by
  set start := record .producerStart { s with producer := s.producer.tail }
  obtain ⟨u, hu⟩ : ∃ u, producerWrites before start = .next u := by
    rcases hc with rfl | hc
    · exact ⟨start, rfl⟩
    · exact producerWrites_next hc hbefore
  have hrefused : producerWrites s.nextRun.writes start = .refused q := by
    rw [hwrites, producerWrites_append, hu, thenDo, producerWrites, hw u (producerWrites_spec hu).cfg, thenDo]
  rw [execStateUpdate, invokeProducer, hrefused]
  rfl

end Sys2Proof.Machine

namespace Sys2Proof

open Machine Safety

/-- Settles O26: the window's fold over each byte, cut at the last write that stores to it. -/
theorem updateStoresTheLastByteWritten : Obligations.UpdateStoresTheLastByteWritten := by
  unfold Obligations.UpdateStoresTheLastByteWritten
  intro s t hwf he
  refine ⟨fun k hk => fbRead_execStateUpdate hwf he hk, ?byte, ?pixel⟩
  case byte =>
    intro before after addr v hwrites hafter
    rw [fbRead_execStateUpdate_of_last hwf he hwrites rfl hafter]
    simp [storedByte]
  case pixel =>
    intro before after x y r g b idx hwrites hidx hafter
    rw [fbRead_execStateUpdate_of_last hwf he hwrites (by simp [ProducerWrite.address, hidx]) hafter]
    simp [storedByte, hidx]

/-- Settles O27: the writes before are carried out and keep the configuration, under which the next one is refused. -/
theorem updateRefusesMeaninglessWrites : Obligations.UpdateRefusesMeaninglessWrites := by
  unfold Obligations.UpdateRefusesMeaninglessWrites
  intro s before rest hbefore hc
  constructor
  · intro addr v hwrites hrange
    refine execStateUpdate_refused hbefore hc hwrites fun u hcfg => ?_
    rcases storeByte_cases addr.toNat v u with ⟨hlt, -⟩ | ⟨-, e⟩
    · rw [State.bufferLen, hcfg] at hlt
      exact absurd hlt hrange.not_gt
    · exact e
  · intro x y r g b hwrites hport
    refine execStateUpdate_refused hbefore hc hwrites fun u hcfg => ?_
    simp [producerWrite, hcfg, hport]

end Sys2Proof
end

