-- ==== Sys2Proof/Proofs/MemoryFrame.lean ====
section
/-! PROOF. What requests and steps keep of the frame buffer and of the record of actions (O56, O58). -/

namespace Sys2Proof.Machine

/-- What an ADVANCE keeps whatever it does: the configuration, the allocation and the actions recorded so far; the frame
buffer's list, but in UPDATE. -/
structure KeepsOutsideUpdate (s t : State) : Prop where
  cfg : t.cfg = s.cfg
  fbAllocated : t.fbAllocated = s.fbAllocated
  trace : s.trace <+: t.trace
  fb : s.state ≠ StateCode.update.code → t.fb = s.fb

/-- Outside UPDATE the bytes are kept: they do not depend on the trace or the response. -/
theorem KeepsOutsideUpdate.fbRead {s t : State} (h : KeepsOutsideUpdate s t) (hstate : s.state ≠ StateCode.update.code)
    (k : Nat) : fbRead t k = fbRead s k :=
  Keeps.fbRead (t := { t with trace := s.trace, response := s.response })
    ⟨h.cfg, h.fb hstate, h.fbAllocated, ⟨[], by simp⟩, .inl rfl⟩ k

/-! ### ADVANCE -/

theorem dispatchAndRespond_keeps {s t : State} (he : dispatchAndRespond s = .next t) : KeepsOutsideUpdate s t := by
  have hcfg := dispatchAndRespond_cfg he
  obtain ⟨u, hu, ht⟩ := thenDo_eq_next he
  obtain ⟨-, halloc, ⟨es, htrace⟩, -, hfb⟩ := dispatch_keeps hu
  have hgrows : s.trace <+: u.trace := ⟨es, htrace.symm⟩
  cases ht
  rcases finishDispatch_cases u with ⟨-, -, e⟩ | ⟨-, e⟩ <;> rw [e] at hcfg ⊢
  · exact ⟨hcfg, halloc, hgrows.trans (List.prefix_append _ _), hfb⟩
  · exact ⟨hcfg, halloc, hgrows, hfb⟩

theorem trace_prefix_sampleT0 (s : State) : s.trace <+: (sampleT0 s).trace := by
  rw [sampleT0_eq]
  exact List.prefix_append _ _

/-- Held or ignored, an ADVANCE only samples and answers; past its gates it keeps what the dispatch keeps. -/
theorem execAdvance_keeps {s t : State} (he : execAdvance s = .next t) : KeepsOutsideUpdate s t := by
  have hcfg := execAdvance_cfg he
  have hgrows := trace_prefix_sampleT0 s
  obtain ⟨halloc, hfb, hstate⟩ :
      (sampleT0 s).fbAllocated = s.fbAllocated ∧ (sampleT0 s).fb = s.fb ∧ (sampleT0 s).state = s.state := by
    rw [sampleT0_eq]
    exact ⟨rfl, rfl, rfl⟩
  rcases execAdvance_cases s with ⟨-, e⟩ | ⟨-, -, e⟩ | ⟨lvl, script, -, -, e⟩ | ⟨lvl, script, es, -, -, -, e⟩ <;>
    rw [e] at he
  · cases he
    exact ⟨hcfg, rfl, List.prefix_append _ _, fun _ => rfl⟩
  · cases he
    exact ⟨hcfg, halloc, hgrows.trans (List.prefix_append _ _), fun _ => hfb⟩
  · cases he
    exact ⟨hcfg, halloc, (hgrows.trans (List.prefix_append _ _)).trans (List.prefix_append _ _), fun _ => hfb⟩
  · have hdispatched := dispatchAndRespond_keeps he
    exact
      { cfg := hcfg
        fbAllocated := hdispatched.fbAllocated.trans halloc
        trace := (hgrows.trans (List.prefix_append _ _)).trans hdispatched.trace
        fb := fun hne => (hdispatched.fb (hstate ▸ hne)).trans hfb }

/-! ### The record of actions -/

theorem trace_prefix_execRequest {q : Request} {s t : State} (he : exec (.ofRequest q) s = .next t) :
    s.trace <+: t.trace := by
  cases q with
  | beginCycle =>
    rcases execBeginCycle_cases s with ⟨-, e⟩ | ⟨-, -, e⟩ <;> cases e.symm.trans he <;> exact List.prefix_append _ _
  | advance => exact (execAdvance_keeps he).trace
  | reserved => cases he

/-- Hardware reset adds its own action and the fill's (R300, R303). -/
theorem trace_prefix_hardwareReset {r : ResetInput} {s t : State} (he : hardwareReset r s = .next t) :
    s.trace <+: t.trace := by
  cases hlegal : configProblem r.config with
  | some p => simp [hardwareReset, hlegal] at he
  | none =>
    simp only [hardwareReset, hlegal] at he
    cases he
    exact List.prefix_append _ _

/-- A step cut by a hardware reset keeps the actions it took before the cut (R305). -/
theorem trace_prefix_resetInside {n : Nat} {r : ResetInput} {run : State → Host.Outcome State Fault Refusal}
    {s t : State} (he : resetInside n r run s = .next t) : s.trace <+: t.trace := by
  have hcut : ∀ u, s.trace <+: (cutAt n s u).trace := fun u => List.prefix_append _ _
  rcases resetInside_cases n r run s with ⟨u, -, e⟩ | ⟨q, u, -, -, -, e⟩ | ⟨q, -, e⟩ <;> rw [e] at he
  · exact (hcut u).trans (trace_prefix_hardwareReset he)
  · exact (hcut u).trans (trace_prefix_hardwareReset he)
  · cases he

/-- A step does nothing, runs a request, or ends in a hardware reset; each only adds actions. -/
theorem trace_prefix_step {s t : State} (he : step s = .next t) : s.trace <+: t.trace := by
  cases hreset : (takeReset s).1 with
  | none =>
    rcases step_of_noReset hreset with ⟨-, e⟩ | ⟨-, e⟩ | ⟨q, -, e⟩ <;> rw [e] at he
    · cases he
      exact List.prefix_rfl
    · cases he
      exact List.prefix_rfl
    · exact (trace_prefix_execRequest he :)
  | some r =>
    rcases step_of_reset hreset with ⟨-, e⟩ | ⟨-, e⟩ | ⟨n, q, -, -, e⟩ <;> rw [e] at he
    · exact (trace_prefix_hardwareReset he :)
    · exact (trace_prefix_hardwareReset he :)
    · exact (trace_prefix_resetInside he :)

end Sys2Proof.Machine

namespace Sys2Proof

open Machine

/-- Settles O56: the dispatches and entries by the frame law, BEGIN_CYCLE and ADVANCE by their own. -/
theorem onlyUpdateWritesTheFrameBuffer : Obligations.OnlyUpdateWritesTheFrameBuffer := by
  unfold Obligations.OnlyUpdateWritesTheFrameBuffer
  intro i s t hupdate hstate he k
  by_cases hbegin : i = .beginCycle
  · subst hbegin
    rcases execBeginCycle_cases s with ⟨-, e⟩ | ⟨-, -, e⟩ <;> cases e.symm.trans he <;> rfl
  by_cases hadvance : i = .advance
  · subst hadvance
    exact (execAdvance_keeps he).fbRead (hstate rfl) k
  · exact (keeps_exec_dispatch he hupdate hbegin hadvance).fbRead k

/-- Settles O58: every way a step can answer extends the record. -/
theorem traceOnlyGrows : Obligations.TraceOnlyGrows := by
  unfold Obligations.TraceOnlyGrows
  intro s t he
  obtain ⟨events, h⟩ := trace_prefix_step he
  exact ⟨events, h.symm⟩

end Sys2Proof
end

