-- ==== Sys2Proof/Proofs/Encoding.lean ====
section
/-! PROOF. Decoder and encoder (O1, O2, O3, O4, O12): each of the three code spaces is its own round trip, of a bytecode
entry with its header bytes, of a request and of a Driver State with their codes. -/

namespace Sys2Proof

open Machine

/-! ### Byte 1 of a command's header: a flag and a count -/

/-- Byte 1 is its bit 7 before its count (R80). -/
theorem flag_append_count {x : Byte} {flag : Bool} (h : x.getLsbD 7 = flag) :
    BitVec.ofBool flag ++ x.extractLsb' 0 7 = x :=
  h ▸ (by decide : ∀ x : Byte, BitVec.ofBool (x.getLsbD 7) ++ x.extractLsb' 0 7 = x) x

theorem getLsbD_flag (flag : BitVec 1) (n : BitVec 7) : (flag ++ n : Byte).getLsbD 7 = flag.getLsbD 0 := by
  rw [BitVec.getLsbD_append]
  rfl

@[simp] theorem count_of_append (flag : BitVec 1) (n : BitVec 7) : (flag ++ n : Byte).extractLsb' 0 7 = n :=
  (BitVec.extractLsb'_append_eq_of_add_le (by decide)).trans BitVec.extractLsb'_eq_self

/-- The count is the low 7 bits of byte 1 (R84). -/
theorem toNat_count (x : Byte) : (x.extractLsb' 0 7).toNat = (x &&& 0x7F#8).toNat := by
  rw [BitVec.toNat_and, BitVec.extractLsb'_toNat]
  exact (Nat.and_two_pow_sub_one_eq_mod x.toNat 7).symm

/-- Only the count 127 under a set bit 7 makes the marker (R82). -/
theorem cmdB7_byte_ne_marker {n : BitVec 7} (h : n ≠ 127) : (1#1 ++ n : Byte) ≠ 0xFF#8 := by
  intro hmarker
  exact h ((count_of_append 1#1 n).symm.trans (congrArg (·.extractLsb' 0 7) hmarker))

/-! ### Bytecode entries -/

theorem decode_header_append (c x : Byte) : decode (.header (c ++ x)) = .ok (.ofEntry (decodeEntry c x)) := by
  simp [decode]

/-- Decoding the header word of a well-formed entry gives the entry (R80, R82). -/
theorem decode_encode_ofEntry (e : Entry) (h : (Instr.ofEntry e).wf = true) :
    decode (encode (.ofEntry e)) = .ok (.ofEntry e) := by
  cases e with
  | delay t => exact decode_header_append t 0xFF#8
  | cmd c n =>
    refine (decode_header_append c (0#1 ++ n)).trans ?_
    rw [decodeEntry_cmd c (getLsbD_flag 0#1 n), count_of_append]
  | cmdB7 c n =>
    refine (decode_header_append c (1#1 ++ n)).trans ?_
    rw [decodeEntry_cmdB7 c (cmdB7_byte_ne_marker (by simpa [Instr.ofEntry, Instr.wf] using h))
      (getLsbD_flag 1#1 n), count_of_append]

/-- The entry that two bytes decode to has these bytes as its header word, and is well formed (R80, R82). -/
theorem encode_decodeEntry (c x : Byte) :
    encode (.ofEntry (decodeEntry c x)) = .header (c ++ x) ∧ (Instr.ofEntry (decodeEntry c x)).wf = true := by
  rcases decodeEntry_cases c x with ⟨rfl, e⟩ | ⟨-, hbit, e⟩ | ⟨hx, hbit, e⟩ <;> rw [e]
  · exact ⟨rfl, rfl⟩
  · have hbyte : 0#1 ++ x.extractLsb' 0 7 = x := by simpa using flag_append_count hbit
    exact ⟨by rw [Instr.ofEntry, encode, hbyte], rfl⟩
  · have hbyte : 1#1 ++ x.extractLsb' 0 7 = x := by simpa using flag_append_count hbit
    refine ⟨by rw [Instr.ofEntry, encode, hbyte], ?_⟩
    have hcount : x.extractLsb' 0 7 ≠ 127 := fun h => hx (by rw [← hbyte, h]; rfl)
    simpa [Instr.ofEntry, Instr.wf] using hcount

/-- A command header's entry: the count is that of byte 1 in either form (R80, R84). -/
theorem decodeEntry_command (c : Byte) {x : Byte} (hx : x ≠ 0xFF#8) :
    ∃ n : BitVec 7, (decodeEntry c x = .cmd c n ∨ decodeEntry c x = .cmdB7 c n) ∧ n.toNat = (x &&& 0x7F#8).toNat := by
  refine ⟨x.extractLsb' 0 7, ?_, toNat_count x⟩
  rcases decodeEntry_cases c x with ⟨hmarker, -⟩ | ⟨-, -, e⟩ | ⟨-, -, e⟩
  · exact absurd hmarker hx
  · exact .inl e
  · exact .inr e

theorem count_decodeEntry (c : Byte) {x : Byte} (hx : x ≠ 0xFF#8) : (decodeEntry c x).count = (x &&& 0x7F#8).toNat := by
  obtain ⟨n, e | e, hn⟩ := decodeEntry_command c hx <;> rw [e] <;> exact hn

/-! ### Requests and Driver States -/

theorem encode_ofRequest (r : Request) : encode (.ofRequest r) = .request r.code := by cases r <;> rfl

theorem decodeRequest_code (r : Request) : decodeRequest r.code = some r := by cases r <;> rfl

theorem code_of_decodeRequest {code : BitVec 2} {r : Request} (h : decodeRequest code = some r) : r.code = code :=
  (by decide : ∀ code r, decodeRequest code = some r → Request.code r = code) code r h

theorem wf_ofRequest (r : Request) : (Instr.ofRequest r).wf = true := by cases r <;> rfl

theorem encode_ofState (c : StateCode) : encode (.ofState c) = .state c.code := by cases c <;> rfl

@[simp] theorem code_ofCode (code : BitVec 4) : (StateCode.ofCode code).code = code :=
  (by decide : ∀ code, (StateCode.ofCode code).code = code) code

theorem wf_ofState (c : StateCode) : (Instr.ofState c).wf = true := by cases c <;> rfl

/-- Every instruction is one of a single code space (R80, R89, R90). -/
theorem instr_cases (i : Instr) :
    (∃ e, i = .ofEntry e) ∨ (∃ r, i = .ofRequest r) ∨ (∃ c, i = .ofState c) := by
  cases i with
  | delay t => exact .inl ⟨.delay t, rfl⟩
  | cmd c n => exact .inl ⟨.cmd c n, rfl⟩
  | cmdB7 c n => exact .inl ⟨.cmdB7 c n, rfl⟩
  | beginCycle => exact .inr (.inl ⟨.beginCycle, rfl⟩)
  | advance => exact .inr (.inl ⟨.advance, rfl⟩)
  | reqReserved => exact .inr (.inl ⟨.reserved, rfl⟩)
  | stateIdle => exact .inr (.inr ⟨.idle, rfl⟩)
  | stateReset => exact .inr (.inr ⟨.reset, rfl⟩)
  | stateResetEnd => exact .inr (.inr ⟨.resetEnd, rfl⟩)
  | stateUpdate => exact .inr (.inr ⟨.update, rfl⟩)
  | stateInitialise => exact .inr (.inr ⟨.initialise, rfl⟩)
  | stateTransferData => exact .inr (.inr ⟨.transferData, rfl⟩)
  | statePowerOn => exact .inr (.inr ⟨.powerOn, rfl⟩)
  | statePostPowerOn => exact .inr (.inr ⟨.postPowerOn, rfl⟩)
  | stateRefreshScreen => exact .inr (.inr ⟨.refreshScreen, rfl⟩)
  | statePowerOff => exact .inr (.inr ⟨.powerOff, rfl⟩)
  | stateDeepSleep => exact .inr (.inr ⟨.deepSleep, rfl⟩)
  | stateUnknown11 => exact .inr (.inr ⟨.unknown11, rfl⟩)
  | stateUnknownHigh low => exact .inr (.inr ⟨.unknownHigh low, rfl⟩)

/-! ### The statements -/

/-- Settles O2: by the round trip of the instruction's code space. -/
theorem decodeEncodeRoundTrip : Obligations.DecodeEncodeRoundTrip := by
  unfold Obligations.DecodeEncodeRoundTrip
  intro i hwf
  rcases instr_cases i with ⟨e, rfl⟩ | ⟨r, rfl⟩ | ⟨c, rfl⟩
  · exact decode_encode_ofEntry e hwf
  · simp [encode_ofRequest, decode, decodeRequest_code]
  · simp [encode_ofState, decode]

/-- Settles O3: a header word is its two bytes, and each of the other codes is that of what it names. -/
theorem encodeDecodeRoundTrip : Obligations.EncodeDecodeRoundTrip := by
  unfold Obligations.EncodeDecodeRoundTrip
  intro code i hdecode
  cases code with
  | header h =>
    cases hdecode
    simpa using encode_decodeEntry (headerByte0 h) (headerByte1 h)
  | request code =>
    obtain ⟨r, hr, rfl⟩ := Option.map_eq_some_iff.1 (decodeRequest_of_decode hdecode)
    exact ⟨by rw [encode_ofRequest, code_of_decodeRequest hr], wf_ofRequest r⟩
  | state code =>
    cases hdecode
    exact ⟨by rw [encode_ofState, code_ofCode], wf_ofState _⟩

/-- Settles O4: by the count of byte 1, which does not see bit 7. -/
theorem headerBytesDecode : Obligations.HeaderBytesDecode := by
  unfold Obligations.HeaderBytesDecode
  intro c x
  refine ⟨?marker, fun hx => ⟨decodeEntry_command c hx, ?length⟩, fun hx hflip => ?flipped⟩
  case marker =>
    rintro rfl
    exact ⟨rfl, rfl⟩
  case length => exact congrArg (2 + ·) (count_decodeEntry c hx)
  case flipped =>
    have hne : x ^^^ 0x80#8 ≠ 0xFF#8 := fun h => hflip (by simpa [BitVec.xor_assoc] using congrArg (· ^^^ 0x80#8) h)
    have hcount : (x ^^^ 0x80#8) &&& 0x7F#8 = x &&& 0x7F#8 :=
      (by decide : ∀ x : Byte, (x ^^^ 0x80#8) &&& 0x7F#8 = x &&& 0x7F#8) x
    exact (count_decodeEntry c hne).trans (hcount ▸ (count_decodeEntry c hx).symm)

/-- Settles O1: each word by running the decoder. -/
theorem specWordsDecode : Obligations.SpecWordsDecode := by
  unfold Obligations.SpecWordsDecode
  decide

/-- Settles O12: nothing is held and no reset comes first, and neither an empty port nor code 00 presents a request. -/
theorem noRequestNoEffect : Obligations.NoRequestNoEffect := by
  unfold Obligations.NoRequestNoEffect
  intro s hreset hrun hnone
  rw [step, takeReset_eq, noReset_iff.1 hreset]
  rcases hnone with hempty | ⟨rest, hzero⟩
  · simp [hrun, takeRequest_eq, hempty]
  · simp [hrun, takeRequest_eq, hzero, decodeRequest]

end Sys2Proof
end

