-- ==== Sys2Proof/Proofs/Assembler.lean ====
section
/-! PROOF. The assembler's bytes under the interpreter (O5, O35): what it means that bytes are interpreted exactly, for
one entry, for bytes one after another, for a statement and for a program. -/

namespace Sys2Proof

/-! ### WAIT -/

theorem expandWait_sum (ms : Nat) : (expandWait ms).sum = ms := by
  have hfull : (List.replicate (ms / 255) 255).sum = ms / 255 * 255 := List.sum_replicate ..
  have hrest : (if ms % 255 = 0 then [] else [ms % 255]).sum = ms % 255 := by split <;> simp_all
  rw [expandWait, List.sum_append, hfull, hrest]
  exact Nat.div_add_mod' ms 255

theorem expandWait_bounds (ms : Nat) : ∀ t ∈ expandWait ms, 1 ≤ t ∧ t ≤ 255 := by
  intro t ht
  rcases List.mem_append.1 ht with hfull | hrest
  · rw [List.eq_of_mem_replicate hfull]
    decide
  · split at hrest
    · cases hrest
    · obtain rfl := List.mem_singleton.1 hrest
      omega

theorem expandWait_length (ms : Nat) : (expandWait ms).length = (ms + 254) / 255 := by
  by_cases h : ms % 255 = 0 <;> simp [expandWait, h] <;> omega

/-- Settles O5: whole delays of 255 ms and the rest of the division, where there is one. -/
theorem waitAssemblesToItsTime : Obligations.WaitAssemblesToItsTime := by
  unfold Obligations.WaitAssemblesToItsTime
  intro ms
  exact ⟨rfl, expandWait_sum ms, expandWait_bounds ms, expandWait_length ms⟩

/-! ### The count bytes of the assembler's commands -/

/-- The count byte of a CMD (R88). -/
theorem cmd_countByte {k : Nat} (h : k ≤ 127) :
    BitVec.ofNat 8 k ≠ 0xFF#8 ∧ (BitVec.ofNat 8 k &&& 0x7F#8).toNat = k :=
  (by decide : ∀ k < 128, BitVec.ofNat 8 k ≠ 0xFF#8 ∧ (BitVec.ofNat 8 k &&& 0x7F#8).toNat = k) k (by omega)

/-- The count byte of a CMD.B7 (R88). -/
theorem cmdB7_countByte {k : Nat} (h : k ≤ 126) :
    0x80#8 ||| BitVec.ofNat 8 k ≠ 0xFF#8 ∧ ((0x80#8 ||| BitVec.ofNat 8 k) &&& 0x7F#8).toNat = k :=
  (by decide : ∀ k < 127, 0x80#8 ||| BitVec.ofNat 8 k ≠ 0xFF#8 ∧
    ((0x80#8 ||| BitVec.ofNat 8 k) &&& 0x7F#8).toNat = k) k (by omega)

end Sys2Proof

namespace Sys2Proof.Machine

open Sys2Proof.Safety

/-! ### The interpreter's position -/

theorem romRest_length (s : State) : s.romRest.length = s.initLen - s.idx.toNat :=
  List.length_drop

theorem interpretLoop_of_end {s : State} (fuel : Nat) (h : s.idx.toNat = s.initLen) :
    interpretLoop fuel s = (true, s) := by
  cases fuel with
  | zero => simp [interpretLoop, h]
  | succ fuel => rw [interpretLoop, if_pos h]

/-- One turn of the loop of Interpret where two bytes are left: the entry that they decode to is run (R181). -/
theorem interpretLoop_header {s t : State} {c x : Byte} {rest : List Byte} {goOn : Bool} (fuel : Nat)
    (h : s.romRest = c :: x :: rest)
    (hrun : runEntry (decodeEntry c x) (recordAll (headerReads s) s) = (goOn, t)) :
    interpretLoop (fuel + 1) s = if goOn then interpretLoop fuel t else (false, t) := by
  have hnotEnd : s.idx.toNat ≠ s.initLen := by
    intro hend
    have hlen := romRest_length s
    rw [h, hend, Nat.sub_self] at hlen
    cases hlen
  have hentry : s.entryHere = some (decodeEntry c x) := by rw [State.entryHere, h]
  rw [interpretLoop_entry fuel hnotEnd hentry, hrun]

/-- The position after an entry of two bytes. -/
theorem idx_after_header {i : BitVec 16} {L : Nat} (h : i.toNat + 2 ≤ L) (hL : L ≤ 65535) :
    (i + 2).toNat = i.toNat + 2 := by
  rw [BitVec.toNat_add]
  exact Nat.mod_eq_of_lt (by simp; omega)

/-! ### A DELAY of 0 ms -/

theorem sleepLoop_zero (ts : Word) (script : List Word) (s : State) : (sleepLoop ts 0 script s).1 = true := by
  cases script <;> simp [sleepLoop, elapsed]

/-- A DELAY of 0 ms ends at its first sample, on a stopped clock as well (R187). -/
theorem entryDelay_zero (s : State) : (entryDelay 0#8 s).1 = true := by
  have hslept : (sleepMs 0 s).1 = true := sleepLoop_zero _ _ _
  simp [entryDelay, hslept]

/-! ### Bytes that are interpreted exactly -/

/-- The interpreter's position, the clock input, the trace, and who holds the step open, are no registers. -/
theorem sameRegisters_of_position (s : State) {hang : Option Hang} {idx : BitVec 16} {sleepStart nowMs : Word}
    {nowScript : List Word} {tr : List Event} :
    SameRegisters s { s with
      hang := hang, idx := idx, sleepStart := sleepStart, nowMs := nowMs, nowScript := nowScript, trace := tr } := by
  constructor <;> intros <;> rfl

/-- From `s` the interpreter has issued `ops` when it comes to `t`, and has touched no register. -/
structure Issued (ops : List TransportOp) (s t : State) : Prop where
  registers : SameRegisters s t
  response : t.response = s.response
  transport : t.transportLeft = s.transportLeft
  ops : t.ops = s.ops ++ ops

theorem Issued.refl (s : State) : Issued [] s s :=
  ⟨sameRegisters_of_position s, rfl, rfl, (List.append_nil _).symm⟩

theorem Issued.trans {ops ops' : List TransportOp} {s t u : State} (h : Issued ops s t) (h' : Issued ops' t u) :
    Issued (ops ++ ops') s u :=
  ⟨h.registers.trans h'.registers, h'.response.trans h.response, h'.transport.trans h.transport,
    by rw [h'.ops, h.ops, List.append_assoc]⟩

/-- An entry writes no register: only the position, the clock input, the trace, and who holds the step open. -/
theorem issued_of_events {ops : List TransportOp} {es : List Event} (s : State) {hang : Option Hang}
    {idx : BitVec 16} {sleepStart nowMs : Word} {nowScript : List Word} (hops : es.filterMap Event.op? = ops) :
    Issued ops s { s with
      hang := hang, idx := idx, sleepStart := sleepStart, nowMs := nowMs, nowScript := nowScript,
      trace := s.trace ++ es } :=
  ⟨sameRegisters_of_position s, rfl, rfl, by simp [State.ops, hops]⟩

/-- The interpreter stands at `bytes`, with `rest` after them, fuel for all of it, and the transport completing. -/
structure StandsAt (bytes rest : List Byte) (fuel : Nat) (s : State) : Prop where
  running : s.hang = none
  completing : s.transportLeft = none
  short : s.initLen ≤ 65535
  rom : s.romRest = bytes ++ rest
  fuelled : s.romRest.length ≤ fuel

/-- The loop from `s` goes on from `t`, where `bytes` are consumed and `ops` issued. -/
structure Consumes (bytes : List Byte) (ops : List TransportOp) (fuel : Nat) (s : State) (fuel' : Nat) (t : State) :
    Prop where
  issued : Issued ops s t
  running : t.hang = none
  position : t.idx.toNat = s.idx.toNat + bytes.length
  spent : fuel ≤ fuel' + bytes.length
  goesOn : interpretLoop fuel s = interpretLoop fuel' t

/-- The loop from `s` ends in `t`, held open by a stopped clock after a part of `ops`. -/
structure Sleeps (ops : List TransportOp) (fuel : Nat) (s t : State) : Prop where
  issued : ∃ part, part <+: ops ∧ Issued part s t
  held : t.hang = some .sleep
  ends : interpretLoop fuel s = (false, t)

/-- Wherever `bytes` stand they are consumed whole, issuing `ops`; only where `waits` says so can a stopped clock hold
the step open in them. -/
def Interprets (bytes : List Byte) (ops : List TransportOp) (waits : Bool) : Prop :=
  ∀ (s : State) (rest : List Byte) (fuel : Nat), StandsAt bytes rest fuel s →
    (∃ fuel' t, Consumes bytes ops fuel s fuel' t) ∨ (waits = true ∧ ∃ t, Sleeps ops fuel s t)

theorem interprets_nil : Interprets [] [] false :=
  fun s _ fuel h => .inl ⟨fuel, s, Issued.refl s, h.running, rfl, le_rfl, rfl⟩

/-- Where some bytes are consumed the interpreter stands at those that follow. -/
theorem StandsAt.after {a b rest : List Byte} {ops : List TransportOp} {fuel fuel' : Nat} {s t : State}
    (h : StandsAt a (b ++ rest) fuel s) (hc : Consumes a ops fuel s fuel' t) : StandsAt b rest fuel' t := by
  have hcfg : t.cfg = s.cfg := hc.issued.registers.cfg
  have hrom : t.romRest = b ++ rest := by
    calc t.romRest = s.romRest.drop a.length := by rw [State.romRest, State.romRest, List.drop_drop, hcfg, hc.position]
      _ = b ++ rest := by rw [h.rom, List.drop_left]
  have hfuel := h.fuelled
  have hspent := hc.spent
  rw [h.rom, List.length_append] at hfuel
  exact
    { running := hc.running
      completing := hc.issued.transport.trans h.completing
      short := by rw [State.initLen, hcfg]; exact h.short
      rom := hrom
      fuelled := by rw [hrom]; omega }

/-- Bytes one after another. -/
theorem Interprets.append {a b : List Byte} {opsA opsB : List TransportOp} {waitsA waitsB : Bool}
    (ha : Interprets a opsA waitsA) (hb : Interprets b opsB waitsB) :
    Interprets (a ++ b) (opsA ++ opsB) (waitsA || waitsB) := by
  intro s rest fuel h
  have hs : StandsAt a (b ++ rest) fuel s := { h with rom := by rw [h.rom, List.append_assoc] }
  rcases ha s (b ++ rest) fuel hs with ⟨fuelT, t, ht⟩ | ⟨hw, t, ⟨part, hpart, hissued⟩, hheld, hends⟩
  · rcases hb t rest fuelT (hs.after ht) with ⟨fuelU, u, hu⟩ | ⟨hw, u, ⟨part, hpart, hissued⟩, hheld, hends⟩
    · left
      have hspent := ht.spent
      have hspent' := hu.spent
      exact ⟨fuelU, u,
        { issued := ht.issued.trans hu.issued
          running := hu.running
          position := by rw [hu.position, ht.position, List.length_append, Nat.add_assoc]
          spent := by rw [List.length_append]; omega
          goesOn := ht.goesOn.trans hu.goesOn }⟩
    · right
      exact ⟨by simp [hw], u, ⟨opsA ++ part, (List.prefix_append_right_inj opsA).2 hpart, ht.issued.trans hissued⟩,
        hheld, ht.goesOn.trans hends⟩
  · right
    exact ⟨by simp [hw], t, ⟨part, hpart.trans (List.prefix_append _ _), hissued⟩, hheld, hends⟩

/-! ### The entries -/

/-- The position after `bytes` that stand in the ROM (R181). -/
theorem StandsAt.position {bytes rest : List Byte} {fuel : Nat} {s : State} (h : StandsAt bytes rest fuel s)
    (hne : bytes ≠ []) : s.idx.toNat + bytes.length ≤ s.initLen := by
  have hlen := romRest_length s
  have hpos := List.length_pos_iff.2 hne
  rw [h.rom, List.length_append] at hlen
  omega

/-- Where bytes stand, a turn of the loop has fuel. -/
theorem StandsAt.exists_fuel {bytes rest : List Byte} {fuel : Nat} {s : State} (h : StandsAt bytes rest fuel s)
    (hne : bytes ≠ []) : ∃ fuel', fuel = fuel' + 1 := by
  have hfuel := h.fuelled
  have hpos := List.length_pos_iff.2 hne
  rw [h.rom, List.length_append] at hfuel
  exact Nat.exists_eq_add_one.2 (by omega)

/-- A DELAY is consumed, or held open by a stopped clock when it is not of 0 ms (R186, R187). -/
theorem interprets_delay (t : Nat) : Interprets (assembleDelay t) [] (t != 0) := by
  intro s rest fuel h
  obtain ⟨fuel, rfl⟩ := h.exists_fuel (by simp [assembleDelay])
  have hposition := h.position (by simp [assembleDelay])
  have hops (samples : List Word) : (headerReads s ++ samples.map Event.clock).filterMap Event.op? = [] := by
    simp [headerReads, Event.op?, List.filterMap_map, Function.comp_def]
  obtain ⟨ts, v, script, samples, e | e⟩ := entryDelay_cases (BitVec.ofNat 8 t) (recordAll (headerReads s) s)
  · left
    rw [recordAll_trace, List.append_assoc] at e
    exact ⟨fuel, _,
      { issued := issued_of_events s (hops samples)
        running := h.running
        position := idx_after_header hposition h.short
        spent := by simp [assembleDelay]
        goesOn := interpretLoop_header fuel h.rom e }⟩
  · right
    rw [recordAll_trace, List.append_assoc] at e
    have hwaits : t ≠ 0 := by
      rintro rfl
      exact Bool.false_ne_true ((congrArg Prod.fst e).symm.trans (entryDelay_zero _))
    exact ⟨by simpa using hwaits, _, ⟨[], List.nil_prefix, issued_of_events s (hops samples)⟩, rfl,
      interpretLoop_header fuel h.rom e⟩

/-- A command header and the data bytes it declares are consumed, and issue one COMMAND (R184, R185). -/
theorem interprets_command (c : Byte) {x : Byte} {data : List Byte} (hx : x ≠ 0xFF#8)
    (hcount : (x &&& 0x7F#8).toNat = data.length) :
    Interprets (c :: x :: data) [.command c data] false := by
  intro s rest fuel h
  obtain ⟨fuel, rfl⟩ := h.exists_fuel (List.cons_ne_nil _ _)
  obtain ⟨n, hentry, hn⟩ := decodeEntry_command c hx
  rw [hcount] at hn
  have hrun (u : State) : runEntry (decodeEntry c x) u = commandEntry c n u := by
    rcases hentry with e | e <;> rw [e] <;> rfl
  have hposition : s.idx.toNat + 2 + n.toNat ≤ s.initLen := by
    have := h.position (List.cons_ne_nil _ _)
    simp only [List.length_cons] at this
    omega
  have hpayload : (recordAll (headerReads s) s).payload n.toNat = data := by
    show (s.romRest.drop 2).take n.toNat = data
    simp [h.rom, hn]
  left
  rcases commandEntry_cases c n (s := recordAll (headerReads s) s) h.running with
    ⟨hover, -⟩ | ⟨-, left, hleft, e⟩ | ⟨-, hstops, -⟩
  · exact absurd (of_decide_eq_true hover) hposition.not_gt
  · rw [hpayload, recordAll_trace, List.append_assoc, hleft h.completing, ← h.completing] at e
    exact ⟨fuel, _,
      { issued := issued_of_events s (by simp [headerReads, payloadReads, Event.op?])
        running := h.running
        position := (idx_add hposition h.short).trans (by rw [hn, List.length_cons, List.length_cons]; omega)
        spent := by simp
        goesOn := interpretLoop_header fuel h.rom ((hrun _).trans e) }⟩
  · exact absurd h.completing hstops

/-! ### Statements and programs -/

/-- Delays one after another wait where one of them does. -/
theorem interprets_delays (ts : List Nat) : Interprets (ts.flatMap assembleDelay) [] (ts.any (· != 0)) := by
  induction ts with
  | nil => exact interprets_nil
  | cons t ts ih => exact (interprets_delay t).append ih

/-- WAIT expands to delays, to none for 0 ms (R88). -/
theorem interprets_wait (ms : Nat) : Interprets ((expandWait ms).flatMap assembleDelay) [] (ms != 0) := by
  have hwaits : (expandWait ms).any (· != 0) = (ms != 0) := by
    by_cases h : ms = 0
    · subst h
      rfl
    · have hne : expandWait ms ≠ [] := fun hnil => h ((expandWait_sum ms).symm.trans (by rw [hnil]; rfl))
      obtain ⟨t, ht⟩ := List.exists_mem_of_ne_nil _ hne
      have := expandWait_bounds ms t ht
      rw [List.any_eq_true.2 ⟨t, ht, by simp; omega⟩]
      simp [h]
  exact hwaits ▸ interprets_delays (expandWait ms)

/-- The bytes of a statement are interpreted as it says (R88, R189). -/
theorem interprets_assemble {a : Asm} {bytes : List Byte} (h : assemble a = some bytes) :
    Interprets bytes (commandsOf [a]) (asmWaits a) := by
  obtain ⟨hwf, h⟩ := Option.ite_none_right_eq_some.1 h
  cases a with
  | delay t =>
    cases h
    exact interprets_delay t
  | cmd c data =>
    cases h
    obtain ⟨hx, hcount⟩ := cmd_countByte (of_decide_eq_true hwf)
    exact interprets_command c hx hcount
  | cmdB7 c data =>
    cases h
    obtain ⟨hx, hcount⟩ := cmdB7_countByte (of_decide_eq_true hwf)
    exact interprets_command c hx hcount
  | wait ms =>
    cases h
    exact interprets_wait ms

/-- The bytes of a program are interpreted as its statements say, one after another (R189). -/
theorem interprets_assembleAll {prog : List Asm} {bytes : List Byte} (h : assembleAll prog = some bytes) :
    Interprets bytes (commandsOf prog) (prog.any asmWaits) := by
  induction prog generalizing bytes with
  | nil =>
    cases h
    exact interprets_nil
  | cons a prog ih =>
    cases ha : assemble a with
    | none => simp [assembleAll, ha] at h
    | some first =>
      cases hrest : assembleAll prog with
      | none => simp [assembleAll, ha, hrest] at h
      | some more =>
        obtain rfl : first ++ more = bytes := by simpa [assembleAll, ha, hrest] using h
        have hcommands : commandsOf (a :: prog) = commandsOf [a] ++ commandsOf prog := by simp [commandsOf]
        rw [hcommands]
        exact (interprets_assemble ha).append (ih hrest)

/-- INITIALISE interprets the whole sequence from offset 0 (R132, R180). -/
theorem standsAt_start {s : State} {bytes rest : List Byte} (hrun : s.hang = none)
    (hcompleting : s.transportLeft = none) (hseq : s.cfg.initSeq = bytes ++ rest)
    (hshort : (bytes ++ rest).length ≤ 65535) :
    StandsAt bytes rest s.initLen { s with idx := 0 } where
  running := hrun
  completing := hcompleting
  short := (congrArg List.length hseq).trans_le hshort
  rom := hseq
  fuelled := le_rfl

end Sys2Proof.Machine

namespace Sys2Proof

open Machine Safety

/-- Settles O35: the program's bytes stand at offset 0 with nothing after them, so where they are consumed the
interpretation is at its end. -/
theorem assembledProgramIsInterpretedExactly : Obligations.AssembledProgramIsInterpretedExactly := by
  unfold Obligations.AssembledProgramIsInterpretedExactly
  intro s prog bytes hprog hshort hseq hrun hcompleting
  have hstart : StandsAt bytes [] s.initLen { s with idx := 0 } :=
    standsAt_start hrun hcompleting (by simpa using hseq) (by simpa using hshort)
  rcases interprets_assembleAll hprog _ _ _ hstart with
    ⟨fuel, t, h⟩ | ⟨hwaits, t, ⟨part, hpart, hissued⟩, hheld, hends⟩
  · have hidx : t.idx.toNat = bytes.length := h.position.trans (Nat.zero_add _)
    have hend : t.idx.toNat = t.initLen := by
      rw [hidx, State.initLen, h.issued.registers.cfg, PanelConfig.initLen, hseq]
    have hinterpret : interpret s = (true, t) := h.goesOn.trans (interpretLoop_of_end fuel hend)
    have hregs := h.issued.registers
    refine ⟨transition .transferData 0 t, by rw [exec, execStateInitialise, hinterpret]; rfl, fun _ => ?_,
      fun hheld => absurd h.running hheld, fun _ => h.running⟩
    exact ⟨h.issued.ops, hidx, rfl, rfl, rfl, hregs.failed, hregs.faultCode, hregs.faultIndex, hregs.active,
      hregs.cursor, hregs.cfg, h.issued.response, hregs.memory⟩
  · have hinterpret : interpret s = (false, t) := hends
    refine ⟨t, by rw [exec, execStateInitialise, hinterpret]; rfl, fun hnone => ?_, fun _ => ?_, fun hnoWaits => ?_⟩
    · cases hheld.symm.trans hnone
    · exact ⟨hheld, hissued.ops ▸ (List.prefix_append_right_inj s.ops).2 hpart,
        (sameRegisters_of_position s).trans hissued.registers⟩
    · obtain ⟨a, ha, hwait⟩ := List.any_eq_true.1 hwaits
      have hnoWait := List.all_eq_true.1 hnoWaits a ha
      rw [hwait] at hnoWait
      cases hnoWait

end Sys2Proof
end

