-- ==== Sys2Proof/Proofs/ElapsedTime.lean ====
section
/-! PROOF. Elapsed time (O6, O7, O8, O9, O32): the comparators on the time that has passed between two samples, the
armed deadline at the next ADVANCE, and the samples of a DELAY. -/

namespace Sys2Proof.Machine

/-! ### The comparators -/

/-- The time between two samples is the time that has passed, wherever the clock wraps in between (R100). -/
theorem toNat_passed (start : Word) {passed : Nat} (h : passed < 2 ^ 32) :
    (start + BitVec.ofNat 32 passed - start).toNat = passed := by
  rw [add_sub_cancel_left, BitVec.toNat_ofNat, Nat.mod_eq_of_lt h]

theorem reached_iff (now deadline : Word) : reached now deadline = true ↔ (now - deadline).toNat < 2 ^ 31 :=
  decide_eq_true_iff

theorem exceeded_iff (t0 now budget : Word) : exceeded t0 now budget = true ↔ budget.toNat < (now - t0).toNat :=
  decide_eq_true_iff

theorem elapsed_iff (ts now : Word) (t : Nat) : elapsed ts now t = true ↔ t ≤ (now - ts).toNat :=
  decide_eq_true_iff

/-- Of a 32-bit difference the sign bit says whether it is below 2^31 (R101). -/
theorem toInt_nonneg_iff (x : Word) : 0 ≤ x.toInt ↔ x.toNat < 2 ^ 31 := by
  rw [BitVec.toInt_pos_iff]
  omega

/-- A deadline armed with `d` at the sample `a` reads as reached for 2^31 ms from `d` ms after `a` on (R101, R104). -/
theorem reached_armed_iff {d : Word} (hd : d.toNat < 2 ^ 31) (a now : Word) :
    reached now (a + d) = true ↔ d.toNat ≤ (now - a).toNat ∧ (now - a).toNat < d.toNat + 2 ^ 31 := by
  rw [reached_iff, ← BitVec.sub_sub, BitVec.toNat_sub]
  omega

/-! ### ADVANCE and the armed deadline -/

/-- While its deadline runs ADVANCE takes its start sample and is held (R105, R122, R126). -/
theorem execAdvance_of_deadlineRunning {s : State} (hfailed : s.failed = false) (hactive : s.active = true)
    (harmed : s.deadline ≠ 0) (hnot : reached (now s).1 s.deadline = false) :
    execAdvance s = .next (respond .heldDelay (sampleT0 s)) := by
  have hholds : deadlineHolds (sampleT0 s).t0 (sampleT0 s) = (true, sampleT0 s) := by
    rw [sampleT0_eq, deadlineHolds, if_neg harmed, hnot]
    rfl
  rw [execAdvance, if_neg (by simp [hfailed, hactive])]
  simp only
  rw [hholds]
  rfl

/-- Once it is past its gates an ADVANCE no longer answers HELD_DELAY (R91, R122). -/
theorem dispatchAndRespond_not_heldDelay {s t : State} (he : dispatchAndRespond s = .next t) :
    t.response ≠ some .heldDelay := by
  obtain ⟨u, hu, ht⟩ := thenDo_eq_next he
  obtain ⟨-, -, -, hresponse, -⟩ := dispatch_keeps hu
  cases ht
  rcases finishDispatch_cases u with ⟨-, -, e⟩ | ⟨-, e⟩ <;> rw [e]
  · simp
  · rcases hresponse with h | h | h <;> simp [h]

/-- A passed deadline does not hold an ADVANCE: the answer is another (R105, R122). -/
theorem execAdvance_not_heldDelay {s t : State} (hfailed : s.failed = false) (hactive : s.active = true)
    (hpassed : reached (now s).1 s.deadline = true) (he : execAdvance s = .next t) :
    t.response ≠ some .heldDelay := by
  rw [execAdvance_of_deadlinePassed hfailed hactive (.inr hpassed)] at he
  split at he
  · cases he
    simp
  · exact dispatchAndRespond_not_heldDelay he

/-- In a cycle with a deadline armed, ADVANCE answers HELD_DELAY exactly when its start sample has not reached it (R105,
R122). -/
theorem execAdvance_heldDelay_iff {s : State} (hfailed : s.failed = false) (hactive : s.active = true)
    (harmed : s.deadline ≠ 0) :
    (∃ t, execAdvance s = .next t ∧ t.response = some .heldDelay) ↔ reached (now s).1 s.deadline = false := by
  constructor
  · rintro ⟨t, he, hheld⟩
    by_contra hpassed
    exact execAdvance_not_heldDelay hfailed hactive (by simpa using hpassed) he hheld
  · intro hnot
    exact ⟨_, execAdvance_of_deadlineRunning hfailed hactive harmed hnot, rfl⟩

/-! ### The samples of a DELAY -/

theorem now_of_cons {s : State} {v : Word} {rest : List Word} (h : s.nowScript = v :: rest) :
    now s = (v, { s with nowMs := v, nowScript := rest, trace := s.trace ++ [.clock v] }) := by
  rw [now, h]
  rfl

/-- The samples of SleepMs are taken in order, up to the first that has elapsed and no further (R187). -/
theorem sleepLoop_of_elapsed {ts v : Word} {t : Nat} {before rest : List Word}
    (hrun : ∀ u ∈ before, elapsed ts u t = false) (hend : elapsed ts v t = true) {s : State}
    (hscript : s.nowScript = before ++ v :: rest) :
    sleepLoop ts t (before ++ v :: rest) s = (true, { s with
      nowMs := v, nowScript := rest, trace := s.trace ++ (before.map .clock ++ [.clock v]) }) := by
  induction before generalizing s with
  | nil => simp [sleepLoop, now_of_cons hscript, hend]
  | cons u before ih =>
    obtain ⟨hu, hbefore⟩ := List.forall_mem_cons.1 hrun
    rw [List.cons_append] at hscript ⊢
    simp only [sleepLoop, now_of_cons hscript, hu, Bool.false_eq_true, if_false]
    rw [ih hbefore rfl]
    simp

end Sys2Proof.Machine

namespace Sys2Proof

open Machine Safety

/-- Settles O6: the comparator is an unsigned bound on the difference, which is its sign. -/
theorem reachedIsSignedDifference : Obligations.ReachedIsSignedDifference := by
  unfold Obligations.ReachedIsSignedDifference
  refine ⟨fun now deadline => ?_, reached_iff, fun now => ?_, fun now deadline hfar => ?_, by decide⟩
  · rw [reached_iff, toInt_nonneg_iff]
  · rw [reached_iff, BitVec.sub_self]
    decide
  · rw [← Bool.not_eq_true, reached_iff]
    exact Nat.not_lt.2 hfar

/-- Settles O7: both comparators bound the difference of the samples, which is the time that has passed. -/
theorem budgetAndDelayComparators : Obligations.BudgetAndDelayComparators := by
  unfold Obligations.BudgetAndDelayComparators
  refine ⟨fun start budget passed h => ?_, fun start t passed h => ?_, by decide, by decide⟩
  · rw [exceeded_iff, toNat_passed start h]
  · rw [elapsed_iff, toNat_passed start h]

/-- Settles O8: a delay of 0 bounds nothing; any other is armed as `a + d`, and passes only once reached. -/
theorem armedDelayIsALowerBound : Obligations.ArmedDelayIsALowerBound := by
  unfold Obligations.ArmedDelayIsALowerBound
  intro s d t0 hd harmed hpass
  by_cases hzero : d = 0
  · subst hzero
    exact ⟨Nat.zero_le _, rfl⟩
  · rw [arm_of_ne hzero] at hpass ⊢
    rcases deadlineHolds_cases t0 { (now s).2 with deadline := (now s).1 + d } with
      ⟨hnone, -⟩ | ⟨-, hreached, e⟩ | ⟨-, -, e⟩
    · exact absurd hnone harmed
    · rw [e]
      exact ⟨((reached_armed_iff hd _ _).1 hreached).1, rfl⟩
    · rw [e] at hpass
      cases hpass

/-- Settles O9: by the clock law less than 2^31 ms have passed at the sample, so the comparator is exact there. -/
theorem deadlineExactUnderTheClockLaw : Obligations.DeadlineExactUnderTheClockLaw := by
  unfold Obligations.DeadlineExactUnderTheClockLaw
  intro s d v rest hlaw hscript hfailed hactive hd hdeadline harmed
  have hpassed : (v - s.nowMs).toNat < 2 ^ 31 := by
    rw [ClockLaw, hscript] at hlaw
    exact List.rel_of_pairwise_cons hlaw List.mem_cons_self
  have hsample : (now s).1 = v := by rw [now_of_cons hscript]
  refine (execAdvance_heldDelay_iff hfailed hactive harmed).trans ?_
  rw [hsample, hdeadline, ← Bool.not_eq_true, reached_armed_iff hd]
  omega

/-- Settles O32: the start sample, then the samples of the loop up to the one that ends it. -/
theorem delayEndsAtTheFirstElapsedSample : Obligations.DelayEndsAtTheFirstElapsedSample := by
  unfold Obligations.DelayEndsAtTheFirstElapsedSample
  intro s t ts v before rest hscript hrun hend
  have hsleep : sleepMs t.toNat s = (true, { s with
      sleepStart := ts, nowMs := v, nowScript := rest,
      trace := s.trace ++ (.clock ts :: before.map .clock ++ [.clock v]) }) := by
    simp only [sleepMs, now_of_cons hscript]
    rw [sleepLoop_of_elapsed hrun hend rfl]
    simp
  rw [exec, execDelay, entryDelay, hsleep]
  rfl

end Sys2Proof
end

