-- ==== Sys2Proof/Proofs/ControlFrame.lean ====
section
/-! PROOF. What the bytecode entries, IDLE and the halts leave of the control state (O57). -/

namespace Sys2Proof.Machine

/-- The registers of the panel's control FSM, the reset pulse and the transfer are as before. -/
structure KeepsControl (s t : State) : Prop where
  deadline : t.deadline = s.deadline
  state : t.state = s.state
  waitIdle : t.waitIdle = s.waitIdle
  expectLow : t.expectLow = s.expectLow
  resetCount : t.resetCount = s.resetCount
  cursor : t.cursor = s.cursor
  rstQ : t.rstQ = s.rstQ
  stage : t.stage = s.stage

theorem keepsControl_entryDelay (t : Byte) (s : State) : KeepsControl s (entryDelay t s).2 := by
  obtain ⟨_, _, _, _, e | e⟩ := entryDelay_cases t s <;> rw [e] <;> constructor <;> rfl

/-- Issuing the COMMAND and moving `i` on, or the failure, write none of these registers (R183, R184). -/
theorem keepsControl_commandEntry (c : Byte) (n : BitVec 7) (s : State) : KeepsControl s (commandEntry c n s).2 := by
  unfold commandEntry
  split
  · constructor <;> rfl
  · simp only
    split <;> constructor <;> simp

theorem keepsControl_runEntry (e : Entry) (s : State) : KeepsControl s (runEntry e s).2 := by
  cases e with
  | delay t => exact keepsControl_entryDelay t s
  | cmd c n => exact keepsControl_commandEntry c n s
  | cmdB7 c n => exact keepsControl_commandEntry c n s

/-- A bytecode entry's instruction runs the entry at the interpreter's position. -/
theorem exec_ofEntry (e : Entry) (s : State) : exec (.ofEntry e) s = .next (runEntry e s).2 := by
  cases e <;> rfl

end Sys2Proof.Machine

namespace Sys2Proof

open Machine

/-- Settles O57: the configuration and the frame buffer by the frame law of every dispatch; the control registers by
what the entries, IDLE and the halt do. -/
theorem entriesAndHaltsKeepControlState : Obligations.EntriesAndHaltsKeepControlState := by
  unfold Obligations.EntriesAndHaltsKeepControlState
  intro i s t hi he
  have hkept : Keeps s t ∧ KeepsControl s t := by
    rcases hi with ⟨e, rfl⟩ | rfl | rfl | ⟨low, rfl⟩
    · rw [exec_ofEntry] at he
      cases he
      exact ⟨keeps_runEntry e s, keepsControl_runEntry e s⟩
    all_goals
      refine ⟨keeps_exec_dispatch he (by simp) (by simp) (by simp), ?_⟩
      cases he
      constructor <;> rfl
  obtain ⟨hframe, hdeadline, hstate, hwait, hlow, hcount, hcursor, hline, hstage⟩ := hkept
  exact ⟨hdeadline, hstate, hwait, hlow, hcount, hcursor, hline, hstage, hframe.cfg, hframe.fbRead⟩

end Sys2Proof
end

