-- ==== Sys2Proof/Proofs/Dispatches.lean ====
section
/-! PROOF. The transition function, and what the dispatches that issue no bytecode and no transfer do (O10, O21, O22,
O23, O25, O29). -/

namespace Sys2Proof.Machine

open Sys2Proof.Safety

/-! ### The transition function -/

/-- What the clock shows does not depend on the Driver State. -/
theorem now_fst_state (s : State) (c : BitVec 4) : (now { s with state := c }).1 = (now s).1 := by
  simp only [now]
  cases s.nowScript <;> rfl

/-- A transition with a delay takes one sample and arms the deadline from it (R104, R140). -/
theorem transition_of_ne {d : Word} (hd : d ≠ 0) (c : StateCode) (s : State) :
    transition c d s =
      { s with
        state := c.code, deadline := (now s).1 + d, waitIdle := c.wait,
        nowMs := (now s).1, nowScript := s.nowScript.tail, trace := s.trace ++ [.clock (now s).1] } := by
  rw [transition, arm_of_ne hd, now_snd]
  simp only [now_fst_state]

/-- The states above the SHOULD_WAIT threshold (R141). -/
theorem wait_iff_mem (c : StateCode) :
    c.wait = true ↔
      c ∈ [StateCode.update, .initialise, .transferData, .powerOn, .postPowerOn, .refreshScreen, .powerOff,
        .deepSleep] := by
  cases c <;> simp [StateCode.wait]

/-- A transition issues nothing. -/
@[simp] theorem transition_ops (c : StateCode) (d : Word) (s : State) : (transition c d s).ops = s.ops := by
  obtain ⟨vs, htrace⟩ := transition_trace c d s
  simp [State.ops, htrace, Event.op?, List.filterMap_map, Function.comp_def]

/-! ### The halt on an unknown state code -/

/-- Both rows of the unknown codes are the halt (R139). -/
theorem exec_unknown {code : BitVec 4} {i : Instr} (hcode : 11 ≤ code.toNat) (hdecode : decode (.state code) = .ok i)
    (s : State) : exec i s = .next (unknownHalt s) := by
  obtain rfl : Instr.ofState (.ofCode code) = i := by simpa [decode] using hdecode
  have hrow : ∀ c : BitVec 4, 11 ≤ c.toNat →
      StateCode.ofCode c = .unknown11 ∨ ∃ low, StateCode.ofCode c = .unknownHigh low := by decide
  rcases hrow code hcode with e | ⟨low, e⟩ <;> rw [e] <;> rfl

/-! ### The parameterised phases -/

/-- A phase under a transport that completes its operations (R134 to R138). -/
theorem phaseStep_of_completing (p : Phase) (next : StateCode) {s : State} (hrun : s.hang = none)
    (hcompleting : s.transportLeft = none) :
    phaseStep p next s =
      transition next (s.cfg.phaseDelayMs.get p) { s with trace := s.trace ++ (s.cfg.phaseOps.get p).map .emit } := by
  rcases phaseStep_cases p next hrun with ⟨left, hleft, e⟩ | ⟨hstops, -⟩
  · rw [e, hleft hcompleting, ← hcompleting]
  · exact absurd hcompleting hstops

end Sys2Proof.Machine

namespace Sys2Proof

open Machine Safety

/-- Settles O10: with no delay nothing is armed; with one the deadline is the sample plus the delay. -/
theorem transitionWritesControlState : Obligations.TransitionWritesControlState := by
  unfold Obligations.TransitionWritesControlState
  intro s next d
  refine ⟨?_, fun hd => transition_of_ne hd next s, wait_iff_mem next⟩
  rintro rfl
  exact transition_zero next s

/-- Settles O21: this is the definition of the IDLE dispatch. -/
theorem idleDispatchEndsTheCycle : Obligations.IdleDispatchEndsTheCycle := by
  unfold Obligations.IdleDispatchEndsTheCycle
  exact fun _ => rfl

/-- Settles O22: the halt keeps `state`, and a code of 11 or more in it is not IDLE. -/
theorem unknownStateHalts : Obligations.UnknownStateHalts := by
  unfold Obligations.UnknownStateHalts
  intro s i code hcode hdecode
  refine ⟨unknownHalt s, exec_unknown hcode hdecode s, rfl, ?_⟩
  rintro rfl
  have hnotIdle : (unknownHalt s).state ≠ StateCode.idle.code := fun hidle => by
    rw [unknownHalt_state] at hidle
    exact absurd hcode (by rw [hidle]; decide)
  rcases execBeginCycle_cases (unknownHalt s) with ⟨-, e⟩ | ⟨-, hidle, -⟩
  · exact ⟨_, e, rfl, sameRegisters_of_inputs _⟩
  · exact absurd hidle hnotIdle

/-- Settles O23: either dispatch is the reset phase towards the other half, which has these four cases. -/
theorem resetDispatches : Obligations.ResetDispatches := by
  unfold Obligations.ResetDispatches
  intro s i other hrow
  have hexec : exec i s = .next (resetPhase other s) := by
    rcases List.mem_pair.1 hrow with h | h <;> cases h <;> rfl
  rw [hexec]
  rcases resetPhase_cases other s with ⟨hp, e⟩ | ⟨hp, hlow, e⟩ | ⟨hp, hhigh, hmore, e⟩ | ⟨hp, hhigh, hlast, e⟩ <;>
    rw [e]
  · exact ⟨fun _ => rfl, by simp [hp], by simp [hp], by simp [hp]⟩
  · exact ⟨by simp [hp], fun _ _ => rfl, by simp [hlow], by simp [hlow]⟩
  · exact ⟨by simp [hp], by simp [hhigh], fun _ _ _ => rfl, fun _ _ hlast => absurd hlast hmore⟩
  · exact ⟨by simp [hp], by simp [hhigh], fun _ _ hmore => absurd hlast hmore, fun _ _ _ => by rw [hlast]; rfl⟩

/-- Settles O25: legal writes are carried out, and the window leaves what `execStateUpdate_cases` says. -/
theorem updateRunsTheProducer : Obligations.UpdateRunsTheProducer := by
  unfold Obligations.UpdateRunsTheProducer
  intro s hlegal hrun hwrites
  obtain ⟨t, ht⟩ := execStateUpdate_next hlegal hwrites
  obtain ⟨hmemory, fb, acts, hacts, hstores, hend⟩ := execStateUpdate_cases hrun ht
  have hlen : t.bufferLen = s.bufferLen := by
    rw [State.bufferLen, (execStateUpdate_keeps ht).1]
    rfl
  have hframe (hwf : s.fbWf = true) : t.fbWf = true ∧
      ∀ k, (∀ w ∈ s.nextRun.writes, w.address s.cfg ≠ some k) → fbRead t k = fbRead s k := by
    obtain ⟨hcanonical, hbytes⟩ := hmemory hwf
    refine ⟨hcanonical, fun k helsewhere => ?_⟩
    rw [fbRead, fbRead, hlen, hbytes k, windowByte_of_elsewhere _ helsewhere]
  refine ⟨t, acts, ht, hacts, hstores, ?done, ?held, hframe, ?frame⟩
  case done =>
    intro hdone
    rcases hend with ⟨-, rfl⟩ | ⟨hnot, -⟩
    · exact ⟨rfl, rfl, rfl, hrun, rfl⟩
    · exact absurd (hdone.symm.trans hnot) (by simp)
  case held =>
    intro hnot
    rcases hend with ⟨hdone, -⟩ | ⟨-, rfl⟩
    · exact absurd (hdone.symm.trans hnot) (by simp)
    · exact ⟨rfl, rfl, rfl, rfl, rfl⟩
  case frame => rcases hend with ⟨-, rfl⟩ | ⟨-, rfl⟩ <;> rfl

/-- Settles O29: each of the five dispatches is its phase's step, which the transport completes. -/
theorem phaseDispatchesEmitAndMoveOn : Obligations.PhaseDispatchesEmitAndMoveOn := by
  unfold Obligations.PhaseDispatchesEmitAndMoveOn
  intro s i p there hrow hrun hcompleting
  have hexec : exec i s = .next (phaseStep p there s) := by
    simp only [List.mem_cons, Prod.mk.injEq, List.not_mem_nil, or_false] at hrow
    rcases hrow with ⟨rfl, rfl, rfl⟩ | ⟨rfl, rfl, rfl⟩ | ⟨rfl, rfl, rfl⟩ | ⟨rfl, rfl, rfl⟩ | ⟨rfl, rfl, rfl⟩ <;> rfl
  rw [hexec, phaseStep_of_completing p there hrun hcompleting]

end Sys2Proof
end

