-- ==== Sys2Proof/Proofs/HostRequests.lean ====
section
/-! PROOF. The host requests (O14, O15, O16, O17, O19): what BEGIN_CYCLE accepts, the gates of ADVANCE, and what runs
past them. -/

namespace Sys2Proof.Machine

open Sys2Proof.Safety

/-! ### The gates of ADVANCE -/

/-- A busy line at its active level is sampled once and holds the request (R43, R127). -/
theorem busyHolds_of_busy {s : State} (hwait : s.waitIdle = true) (hpresent : s.cfg.busyPresent = true)
    (hbusy : s.busyScript.headD s.busyIn = s.cfg.busyActiveLevel) :
    busyHolds s = (true, { s with
      busyIn := s.cfg.busyActiveLevel, busyScript := s.busyScript.tail,
      trace := s.trace ++ [.busy s.cfg.busyActiveLevel] }) := by
  rcases busyAsserted_cases s with ⟨habsent, -⟩ | ⟨-, e⟩
  · exact absurd (hpresent.symm.trans habsent) (by simp)
  · rw [busyHolds, if_pos hwait, e, hbusy]
    simp

/-- The clock input, the busy input, `t0`, the answer and the trace are no registers. -/
theorem sameRegisters_of_samples (s : State) {answer : Option Response} {t0 nowMs : Word} {nowScript : List Word}
    {busyIn : Bool} {busyScript : List Bool} {tr : List Event} :
    SameRegisters s { s with
      response := answer, t0 := t0, nowMs := nowMs, nowScript := nowScript, busyIn := busyIn,
      busyScript := busyScript, trace := tr } := by
  constructor <;> intros <;> rfl

/-! ### Past the gates -/

/-- An answer issues nothing. -/
@[simp] theorem respond_ops (r : Response) (s : State) : (respond r s).ops = s.ops := by
  simp [State.ops, Event.op?]

/-- The answer that ends a dispatch, as a condition on what it left (R122). -/
theorem finishDispatch_eq (t : State) :
    finishDispatch t = if t.hang = none ∧ t.response = none then respond .processed t else t := by
  rcases finishDispatch_cases t with ⟨hrun, hnone, e⟩ | ⟨hended, e⟩ <;> rw [e]
  · rw [if_pos ⟨hrun, hnone⟩]
  · rw [if_neg]
    rintro ⟨hrun, hnone⟩
    exact hended.elim (· hrun) (· hnone)

/-- A dispatch that completes without an answer of its own is answered PROCESSED (R122). -/
theorem finishDispatch_of_completed {t : State} (hrun : t.hang = none) (hnone : t.response = none) :
    finishDispatch t = respond .processed t := by
  rw [finishDispatch_eq, if_pos ⟨hrun, hnone⟩]

/-- The dispatch of the Driver State in the register, with the answer that ends it (R122, R128). -/
theorem dispatchAndRespond_eq {s : State} {i : Instr} (hdecode : decode (.state s.state) = .ok i) :
    dispatchAndRespond s = thenDo (exec i { s with response := none }) fun t => .next (finishDispatch t) := by
  rw [dispatchAndRespond, dispatch_eq_exec (s := { s with response := none }) hdecode]

theorem decode_code (c : StateCode) : decode (.state c.code) = .ok (.ofState c) := by
  simp [decode]

end Sys2Proof.Machine

namespace Sys2Proof

open Machine Safety

/-- Settles O14: the two cases of BEGIN_CYCLE, which exclude each other. -/
theorem beginCycleAcceptedOrRejected : Obligations.BeginCycleAcceptedOrRejected := by
  unfold Obligations.BeginCycleAcceptedOrRejected
  intro s
  rcases execBeginCycle_cases s with ⟨hrejected, e⟩ | ⟨hfailed, hidle, e⟩
  · exact ⟨fun hf hs => absurd hrejected (by simp [hf, hs, StateCode.code]), fun _ => e⟩
  · exact ⟨fun _ _ => e, fun hrejected => absurd hrejected (by simp [hfailed, hidle, StateCode.code])⟩

/-- Settles O15: a step that meets the code runs the reserved request. -/
theorem reservedRequestRefused : Obligations.ReservedRequestRefused := by
  unfold Obligations.ReservedRequestRefused
  refine ⟨fun _ => rfl, fun s rest hreset hrun hrequests => ?_⟩
  exact stepRunsTheDecodedRequest s 3 rest .reqReserved hreset hrun hrequests rfl

/-- Settles O16: each gate's answer, with the samples taken on the way to it. -/
theorem advanceGates : Obligations.AdvanceGates := by
  unfold Obligations.AdvanceGates
  intro s
  refine ⟨fun hout => ?ignored, fun hfailed hactive harmed hnot => ?heldDelay,
    fun hfailed hactive hdeadline hwait hpresent hbusy => ?heldBusy⟩
  case ignored =>
    rw [exec, execAdvance, if_pos (by simpa using hout)]
    rfl
  case heldDelay =>
    refine ⟨_, execAdvance_of_deadlineRunning hfailed hactive harmed hnot, rfl, ?_, ?_⟩ <;> rw [sampleT0_eq]
    · exact sameRegisters_of_samples s
    · simp
  case heldBusy =>
    have hpoll := busyHolds_of_busy (s := { sampleT0 s with deadline := 0 }) (by rw [sampleT0_eq]; exact hwait)
      (by rw [sampleT0_eq]; exact hpresent) (by rw [sampleT0_eq]; exact hbusy)
    have hadvance := execAdvance_of_deadlinePassed hfailed hactive hdeadline
    rw [hpoll, if_pos rfl] at hadvance
    refine ⟨_, hadvance, rfl, ?_, ?_⟩ <;> rw [sampleT0_eq]
    · exact sameRegisters_of_samples { s with deadline := 0 }
    · simp

/-- Settles O17: past the gates only the dispatch of the decoded state is left. -/
theorem advanceRunsTheDecodedState : Obligations.AdvanceRunsTheDecodedState := by
  unfold Obligations.AdvanceRunsTheDecodedState
  intro s i hungated hdecode
  have hstate : ({ sampleT0 s with deadline := 0 } : State).state = s.state := by rw [sampleT0_eq]
  rw [exec, execAdvance_of_ungated hungated, dispatchAndRespond_eq (hstate ▸ hdecode)]
  simp only [finishDispatch_eq]

/-- Settles O19: past the gates ADVANCE is the phase's dispatch, which transitions and leaves the answer to it. -/
theorem advanceRunsAPhase : Obligations.AdvanceRunsAPhase := by
  unfold Obligations.AdvanceRunsAPhase
  intro s p here there hrow hungated hcompleting hstate
  set start : State := { sampleT0 s with deadline := 0, response := none } with hstart
  rw [sampleT0_eq] at hstart
  have hphase : exec (.ofState here) start = .next (transition there (s.cfg.phaseDelayMs.get p)
      { start with trace := start.trace ++ (s.cfg.phaseOps.get p).map .emit }) := by
    have hdispatch := phaseDispatchesEmitAndMoveOn start (.ofState here) p there
    rw [hstart] at hdispatch ⊢
    refine hdispatch ?_ hungated.running hcompleting
    simp only [List.mem_cons, Prod.mk.injEq, List.not_mem_nil, or_false] at hrow
    rcases hrow with ⟨rfl, rfl, rfl⟩ | ⟨rfl, rfl, rfl⟩ | ⟨rfl, rfl, rfl⟩ | ⟨rfl, rfl, rfl⟩ | ⟨rfl, rfl, rfl⟩ <;>
      simp [Instr.ofState]
  have hadvance := advanceRunsTheDecodedState s (.ofState here) hungated (hstate ▸ decode_code here)
  rw [hphase, thenDo_next, if_pos (by rw [hstart]; simp [hungated.running])] at hadvance
  refine ⟨_, hadvance, rfl, by simp, by simp, ?ops, ?deadline, ?rest⟩
  case ops =>
    rw [respond_ops, transition_ops, hstart]
    simp [State.ops, List.filterMap_cons, Event.op?, Function.comp_def]
  case deadline => intro hzero; rw [hzero]; rfl
  case rest =>
    refine ⟨?_, ?_, ?_, ?_, fun k => ?_⟩
    · simp [hstart, hungated.active]
    · simp [hstart, hungated.notFailed]
    · simp [hstart]
    · simp [hstart]
    · refine ((keeps_transition there _ _).fbRead k).trans ?_
      rw [hstart]
      rfl

end Sys2Proof
end

