-- ==== Sys2Proof/Proofs/StateOrder.lean ====
section
/-! PROOF. The state order of ADVANCE, and that a step with meaningful inputs answers (O20, O53): what one dispatch can
do to `state`, and that each completes. -/

namespace Sys2Proof.Machine

open Sys2Proof.Safety

/-! ### What one dispatch does to the Driver State -/

/-- The edges of the dispatch table between two Driver State codes, with and without a reset line (R128, R143). -/
abbrev TableEdge (resetPresent : Bool) (here there : BitVec 4) : Prop :=
  (resetPresent = true ∧ (here, there) ∈ ([(1, 2), (2, 1), (2, 3)] : List (BitVec 4 × BitVec 4))) ∨
    (resetPresent = false ∧ (here, there) ∈ ([(1, 3), (2, 3)] : List (BitVec 4 × BitVec 4))) ∨
    (here, there) ∈ ([(3, 4), (4, 5), (5, 6), (6, 7), (7, 8), (8, 9), (9, 10), (10, 0)] : List (BitVec 4 × BitVec 4))

/-- A dispatch from `s` that ends in `t` stays in its Driver State, completing without an answer in IDLE and
TRANSFER_DATA only; or it completes along an edge of the table, without an answer of its own. -/
inductive FollowsTable (s t : State) : Prop where
  | stays (state : t.state = s.state)
      (open_ : t.hang = none → t.response = none → s.state = 0 ∨ s.state = 5)
  | moves (next : StateCode) (state : t.state = next.code) (running : t.hang = none) (unanswered : t.response = none)
      (edge : TableEdge s.cfg.resetPresent s.state next.code)

/-- No edge leads back to where it starts. -/
theorem not_tableEdge_self (resetPresent : Bool) (here : BitVec 4) : ¬ TableEdge resetPresent here here :=
  (by decide : ∀ (p : Bool) (x : BitVec 4), ¬ TableEdge p x x) resetPresent here

/-- A step held open stays, and is not answered. -/
theorem followsTable_of_held {s t : State} (hstate : t.state = s.state) (hheld : t.hang ≠ none) : FollowsTable s t :=
  .stays hstate fun hrun => absurd hrun hheld

/-- RESET and RESET_END (R130): from RESET low to RESET_END, from there high to RESET or, after C cycles, to UPDATE; with
no line on to UPDATE. -/
theorem resetPhase_followsTable {s : State} {other : StateCode} (h : Dispatching s)
    (hstate : s.state = StateCode.reset.code ∧ other = .resetEnd ∨ s.state = StateCode.resetEnd.code ∧ other = .reset) :
    FollowsTable s (resetPhase other s) := by
  have hfrom : s.state = 1 ∨ s.state = 2 := hstate.imp And.left And.left
  rcases resetPhase_cases other s with ⟨hp, e⟩ | ⟨hp, hlow, e⟩ | ⟨hp, hhigh, -, e⟩ | ⟨hp, hhigh, -, e⟩ <;> rw [e] <;>
    refine .moves _ (transition_state _ _ _) (by simp [h.running]) (by simp [h.unanswered]) ?_
  · refine .inr (.inl ⟨hp, ?_⟩)
    rcases hfrom with hs | hs <;> rw [hs] <;> decide
  · obtain ⟨hs, rfl⟩ : s.state = StateCode.reset.code ∧ other = .resetEnd := hstate.resolve_right fun ⟨hs, _⟩ =>
      Bool.false_ne_true ((h.inv.resetEndExpectsHigh hp h.active hs).symm.trans hlow)
    exact .inl ⟨hp, by rw [hs]; decide⟩
  · obtain ⟨hs, rfl⟩ : s.state = StateCode.resetEnd.code ∧ other = .reset := hstate.resolve_left fun ⟨hs, _⟩ =>
      Bool.false_ne_true (hhigh.symm.trans (h.inv.resetExpectsLow hp h.active hs))
    exact .inl ⟨hp, by rw [hs]; decide⟩
  · obtain ⟨hs, -⟩ : s.state = StateCode.resetEnd.code ∧ other = .reset := hstate.resolve_left fun ⟨hs, _⟩ =>
      Bool.false_ne_true (hhigh.symm.trans (h.inv.resetExpectsLow hp h.active hs))
    exact .inl ⟨hp, by rw [hs]; decide⟩

/-- UPDATE (R131): on to INITIALISE, or held open by the producer. -/
theorem execStateUpdate_followsTable {s t : State} (h : Dispatching s) (hstate : s.state = StateCode.update.code)
    (he : execStateUpdate s = .next t) : FollowsTable s t := by
  obtain ⟨-, fb, es, -, -, ⟨-, rfl⟩ | ⟨-, rfl⟩⟩ := execStateUpdate_cases h.running he
  · exact .moves .initialise rfl h.running h.unanswered (.inr (.inr (by rw [hstate]; decide)))
  · exact followsTable_of_held rfl (by simp)

/-- INITIALISE (R132): on to TRANSFER_DATA, or a failure that has answered, or held open in an entry. -/
theorem execStateInitialise_followsTable {s t : State} (h : Dispatching s)
    (hstate : s.state = StateCode.initialise.code) (he : execStateInitialise s = .next t) : FollowsTable s t := by
  have hlength : s.initLen ≤ 65535 := ((configProblem_eq_none_iff _).1 h.inv.configLegal).initLen
  obtain ⟨ok, u, hu, hsame, -, -, hend⟩ := execStateInitialise_cases h.running hlength
  have hkept : u.state = s.state := by rw [hsame]
  cases hu.symm.trans he
  cases hend with
  | ok hrun _ hregs =>
    obtain ⟨-, -, -, -, hresponse⟩ := hregs
    exact .moves .transferData rfl hrun (hresponse.trans h.unanswered) (.inr (.inr (by rw [hstate]; decide)))
  | failed hrun hregs =>
    obtain ⟨-, -, -, -, hfaulted⟩ := hregs
    exact .stays hkept fun _ hnone => by cases hfaulted.symm.trans hnone
  | held hheld _ => exact followsTable_of_held hkept hheld

/-- TRANSFER_DATA (R133): on to POWER_ON when the call is done; else it stays. -/
theorem execStateTransferData_followsTable {s t : State} (h : Dispatching s)
    (hstate : s.state = StateCode.transferData.code) (he : execStateTransferData s = .next t) : FollowsTable s t := by
  have hstaging := ((configProblem_eq_none_iff _).1 h.inv.configLegal).stagingSize
  obtain ⟨finished, u, blocks, es, hu, hsame, -, -, -, -, hend⟩ :=
    transfer_cases h.running hstaging h.inv.cursorBound
  have hkept : u.state = s.state := by rw [hsame]
  have hresponse : u.response = s.response := by rw [hsame]
  cases (execStateTransferData_eq hu).symm.trans he
  cases finished with
  | false => exact .stays hkept fun _ _ => .inr hstate
  | true =>
    cases hend with
    | finished hrun _ _ _ _ _ _ _ _ =>
      exact .moves .powerOn rfl hrun (hresponse.trans h.unanswered) (.inr (.inr (by rw [hstate]; decide)))

/-- A parameterised phase (R134 to R138): on to the next state, or held open by the transport. -/
theorem phaseStep_followsTable {s : State} {p : Phase} {next : StateCode} (h : Dispatching s)
    (hedge : (s.state, next.code) ∈
      ([(3, 4), (4, 5), (5, 6), (6, 7), (7, 8), (8, 9), (9, 10), (10, 0)] : List (BitVec 4 × BitVec 4))) :
    FollowsTable s (phaseStep p next s) := by
  rcases phaseStep_cases p next h.running with ⟨left, -, e⟩ | ⟨-, left, part, -, e⟩ <;> rw [e]
  · exact .moves next (transition_state _ _ _) (by simp [h.running]) (by simp [h.unanswered]) (.inr (.inr hedge))
  · exact followsTable_of_held rfl (by simp)

/-- Every dispatch follows the table (R128). -/
theorem dispatch_followsTable {s t : State} (h : Dispatching s) (he : dispatch s = .next t) : FollowsTable s t := by
  obtain ⟨c, hc, hnamed⟩ := stateCode_of_inv h.inv
  simp only [dispatch, hc, ofCode_code] at he
  cases c with
  | idle => cases he; exact .stays rfl fun _ _ => .inl hc
  | reset => cases he; exact resetPhase_followsTable h (.inl ⟨hc, rfl⟩)
  | resetEnd => cases he; exact resetPhase_followsTable h (.inr ⟨hc, rfl⟩)
  | update => exact execStateUpdate_followsTable h hc he
  | initialise => exact execStateInitialise_followsTable h hc he
  | transferData => exact execStateTransferData_followsTable h hc he
  | powerOn => cases he; exact phaseStep_followsTable h (by rw [hc]; decide)
  | postPowerOn => cases he; exact phaseStep_followsTable h (by rw [hc]; decide)
  | refreshScreen => cases he; exact phaseStep_followsTable h (by rw [hc]; decide)
  | powerOff => cases he; exact phaseStep_followsTable h (by rw [hc]; decide)
  | deepSleep => cases he; exact phaseStep_followsTable h (by rw [hc]; decide)
  | unknown11 => exact absurd hnamed (by decide)
  | unknownHigh low => exact absurd hnamed ((by decide : ∀ low : BitVec 2, ¬ (3#2 ++ low).toNat ≤ 10) low)

/-! ### Every dispatch and request completes -/

/-- With a legal record and meaningful producer writes every dispatch answers a next state (R61, R128). -/
theorem dispatch_next {s : State} (hlegal : configProblem s.cfg = none) (hrun : s.hang = none)
    (hcursor : s.cursor.toNat ≤ s.bufferLen) (hwrites : s.nextRun.writes.all (writeLegal s.cfg) = true) :
    ∃ t, dispatch s = .next t := by
  have hstaging := ((configProblem_eq_none_iff _).1 hlegal).stagingSize
  unfold dispatch
  cases StateCode.ofCode s.state with
  | update => exact execStateUpdate_next hlegal hwrites
  | transferData =>
    obtain ⟨finished, u, _, _, hu, -⟩ := transfer_cases hrun hstaging hcursor
    exact ⟨_, execStateTransferData_eq hu⟩
  | _ => exact ⟨_, rfl⟩

theorem dispatchAndRespond_next {s : State} (hlegal : configProblem s.cfg = none) (hrun : s.hang = none)
    (hcursor : s.cursor.toNat ≤ s.bufferLen) (hwrites : s.nextRun.writes.all (writeLegal s.cfg) = true) :
    ∃ t, dispatchAndRespond s = .next t := by
  obtain ⟨u, hu⟩ := dispatch_next (s := { s with response := none }) hlegal hrun hcursor hwrites
  exact ⟨finishDispatch u, by rw [dispatchAndRespond, hu]; rfl⟩

/-- With a legal record and meaningful producer writes ADVANCE answers a next state (R122). -/
theorem execAdvance_next {s : State} (hlegal : configProblem s.cfg = none) (hrun : s.hang = none)
    (hcursor : s.cursor.toNat ≤ s.bufferLen) (hwrites : s.nextRun.writes.all (writeLegal s.cfg) = true) :
    ∃ t, execAdvance s = .next t := by
  rcases execAdvance_cases s with ⟨-, e⟩ | ⟨-, -, e⟩ | ⟨_, _, -, -, e⟩ | ⟨_, _, _, -, -, -, e⟩ <;> rw [e]
  · exact ⟨_, rfl⟩
  · exact ⟨_, rfl⟩
  · exact ⟨_, rfl⟩
  · rw [sampleT0_eq]
    exact dispatchAndRespond_next hlegal hrun hcursor hwrites

/-! ### The step with meaningful inputs -/

/-- Without the reserved code next, what a step takes off the port is nothing, BEGIN_CYCLE or ADVANCE (R90). -/
theorem takeRequest_of_legal {s : State} (h : ∀ rest, s.requests ≠ 3 :: rest) :
    ∃ i : Option Instr, takeRequest s = (i, { s with requests := s.requests.tail }) ∧
      (i = none ∨ ∃ q, i = some q ∧ (q = .beginCycle ∨ q = .advance)) := by
  refine ⟨_, takeRequest_eq s, ?_⟩
  cases hrequests : s.requests with
  | nil => exact .inl rfl
  | cons code rest =>
    have hcode : code ≠ 3 := fun hthree => h rest (hthree ▸ hrequests)
    have hrequest := (by decide : ∀ code : BitVec 2, code ≠ 3 →
      decodeRequest code = none ∨ decodeRequest code = some .beginCycle ∨ decodeRequest code = some .advance) code hcode
    rcases hrequest with e | e | e
    · exact .inl (by simp [e])
    · exact .inr ⟨.beginCycle, by simp [e, Instr.ofRequest], .inl rfl⟩
    · exact .inr ⟨.advance, by simp [e, Instr.ofRequest], .inr rfl⟩

theorem hardwareReset_next {r : ResetInput} (hlegal : configProblem r.config = none) (s : State) :
    ∃ t, hardwareReset r s = .next t := by
  rcases hardwareReset_cases r s with ⟨p, hp, -⟩ | ⟨-, hnext⟩
  · cases hlegal.symm.trans hp
  · exact hnext

/-- A handling that answers is cut by a legal hardware reset (R305). -/
theorem resetInside_next {n : Nat} {r : ResetInput} {run : State → Host.Outcome State Fault Refusal} {s : State}
    (hlegal : configProblem r.config = none) (hrun : ∃ t, run s = .next t) :
    ∃ t, resetInside n r run s = .next t := by
  obtain ⟨u, hu⟩ := hrun
  rw [resetInside, hu]
  exact hardwareReset_next hlegal _

end Sys2Proof.Machine

namespace Sys2Proof

open Machine Safety

/-- Settles O20: a held or ignored ADVANCE keeps `state`; one that dispatches follows the table. -/
theorem advanceFollowsTheStateOrder : Obligations.AdvanceFollowsTheStateOrder := by
  unfold Obligations.AdvanceFollowsTheStateOrder
  intro s t h hrun he
  have hsampled : BlockInv (sampleT0 s) := sampleT0_inv h hrun
  have hsample := sampleT0_eq s
  rcases execAdvance_cases s with ⟨-, e⟩ | ⟨-, -, e⟩ | ⟨lvl, script, -, -, e⟩ | ⟨lvl, script, es, hes, hf, ha, e⟩ <;>
    replace he := e.symm.trans he
  · cases he
    exact ⟨.inl rfl, fun hanswer => by cases hanswer⟩
  · cases he
    exact ⟨.inl (by rw [hsample]; rfl), fun hanswer => by cases hanswer⟩
  · cases he
    exact ⟨.inl (by rw [hsample]; rfl), fun hanswer => by cases hanswer⟩
  · obtain ⟨u, hu, ht⟩ := thenDo_eq_next he
    have hops : opsSinceReset ((sampleT0 s).trace ++ es) = opsSinceReset (sampleT0 s).trace := by
      rcases hes with rfl | rfl <;> simp
    have hstart : Dispatching { sampleT0 s with
        deadline := 0, waitIdle := false, busyIn := lvl, busyScript := script, trace := (sampleT0 s).trace ++ es,
        response := none } :=
      { inv := hsampled.observe hops (fun hw => absurd hw Bool.false_ne_true) (.inl (by rw [hsample]; exact hrun))
        running := by rw [hsample]; exact hrun
        notFailed := by rw [hsample]; exact hf
        active := by rw [hsample]; exact ha
        unanswered := rfl }
    have hfollows := dispatch_followsTable hstart hu
    obtain ⟨-, -, -, hresponse, -⟩ := dispatch_keeps hu
    rw [hsample] at hfollows hresponse
    cases ht
    rcases finishDispatch_cases u with ⟨hrun', hnone, e⟩ | ⟨hended, e⟩ <;> rw [e]
    · cases hfollows with
      | stays hstate hopen => exact ⟨.inl hstate, fun _ _ => hopen hrun' hnone⟩
      | moves next hstate _ _ hedge =>
        rw [← hstate] at hedge
        exact ⟨.inr ⟨rfl, hedge⟩, fun _ hsame => absurd (hsame ▸ hedge) (not_tableEdge_self _ _)⟩
    · cases hfollows with
      | stays hstate _ =>
        refine ⟨.inl hstate, fun hprocessed => ?_⟩
        rw [hprocessed] at hresponse
        rcases hresponse with hr | hr | hr <;> cases hr
      | moves _ _ hrun' hnone _ => exact (hended.elim (· hrun') (· hnone)).elim

/-- Settles O53: a step does nothing, runs BEGIN_CYCLE or ADVANCE, or is a legal hardware reset. -/
theorem everyStepWithLegalInputsGoesOn : Obligations.EveryStepWithLegalInputsGoesOn := by
  unfold Obligations.EveryStepWithLegalInputsGoesOn
  intro s h hinputs
  obtain ⟨s1, hs1⟩ : ∃ s1, s1 = { s with resetIn := s.resetIn.tail } := ⟨_, rfl⟩
  obtain ⟨request, htake, hrequest⟩ := takeRequest_of_legal (s := s1) (by rw [hs1]; exact hinputs.requestLegal)
  obtain ⟨s2, hs2⟩ : ∃ s2, s2 = { s1 with requests := s1.requests.tail } := ⟨_, rfl⟩
  rw [← hs2] at htake
  have hruns (i : Instr) (hi : i = .beginCycle ∨ i = .advance) (hrun : s1.hang = none) : ∃ t, exec i s2 = .next t := by
    rcases hi with rfl | rfl
    · rcases execBeginCycle_cases s2 with ⟨-, e⟩ | ⟨-, -, e⟩ <;> exact ⟨_, e⟩
    · rw [hs1] at hrun
      rw [hs2, hs1]
      exact execAdvance_next h.configLegal hrun h.cursorBound hinputs.writesLegal
  rw [step, takeReset_eq, ← hs1]
  cases hreset : s.resetIn.head?.join with
  | none =>
    by_cases hrun : s1.hang = none
    · rcases hrequest with rfl | ⟨i, rfl, hi⟩
      · simp [hrun, htake]
      · simpa [hrun, htake] using hruns i hi hrun
    · simp [Option.isSome_iff_ne_none, hrun]
  | some r =>
    have hlegal : configProblem r.config = none := by
      obtain ⟨rest, hrest⟩ := List.head?_eq_some_iff.1 (Option.join_eq_some_iff.1 hreset)
      exact hinputs.resetLegal r rest hrest
    have hresets := hardwareReset_next hlegal
    cases hcut : r.cut with
    | none => simpa [hcut] using hresets _
    | some n =>
      by_cases hrun : s1.hang = none
      · rcases hrequest with rfl | ⟨i, rfl, hi⟩
        · simpa [hcut, hrun, htake] using hresets _
        · simpa [hcut, hrun, htake] using resetInside_next (n := n) hlegal (hruns i hi hrun)
      · simpa [hcut, Option.isSome_iff_ne_none, hrun] using hresets _

end Sys2Proof
end

