-- ==== Sys2Proof/Proofs/TransferCall.lean ====
section
/-! PROOF. One TRANSFER_DATA dispatch, and the dispatches of INITIALISE and TRANSFER_DATA under a transport that stops
(O38, O60). The comparison of `Laws/Stopping` is carried from the transfer loop to the whole call: its opening, its loop
and its end one after another. -/

namespace Sys2Proof.Safety

open Sys2Proof.Machine

/-! ### Composing comparisons -/

section
variable {n : Nat} {p ops : List TransportOp} {s u1 t1 u t : State}

/-- A part that issues `p`, and after it a part that issues `ops`. -/
theorem StopsAfter.seq (h : StopsAfter n p s u1 t1) (hissued : u1.ops = s.ops ++ p) (hsame : SameButPosition s u1)
    (htrace : u1.trace <+: u.trace) (hheld : n < p.length → t = t1)
    (hrest : p.length ≤ n → StopsAfter (n - p.length) ops { u1 with transportLeft := some (n - p.length) } u t) :
    StopsAfter n (p ++ ops) s u t := by
  rcases Nat.lt_or_ge n p.length with hlt | hge
  · rw [hheld hlt]
    exact h.post hlt htrace
  · exact (hrest hge).pre (by omega) hissued (hsame.trans (sameButPosition_of_eq rfl))

/-- What follows in the same step, where it neither looks at the transport nor records anything: it runs unless the step
is held open. -/
theorem StopsAfter.andThen {f : State → State} (h : StopsAfter n ops s u t) (hrun : u.hang = none)
    (hf : ∀ x left, f { x with transportLeft := left } = { f x with transportLeft := left })
    (htrace : ∀ x, (f x).trace = x.trace) : StopsAfter n ops s (f u) (t.andThen f) := by
  have hopen (hl : n < ops.length) : t.andThen f = t := andThen_of_held _ (by simp [(h.held hl).1])
  refine ⟨fun hl => ?_, fun hl => ?_, fun hl => ?_, fun hl => ?_, fun hl => ?_⟩
  · have hrun' : t.hang = none := by rw [h.enough hl]; exact hrun
    rw [andThen_of_running _ hrun', h.enough hl, hf]
  · rw [hopen hl]; exact h.held hl
  · rw [hopen hl]; exact h.issued hl
  · rw [hopen hl, htrace]; exact h.cut hl
  · rw [hopen hl]; exact h.kept hl

/-- A dispatch that ends in a transition where its action is done, as it is not when the step is held open. -/
theorem StopsAfter.transition {ru rt : Bool × State} (next : StateCode) (h : StopsAfter n ops s ru.2 rt.2)
    (henough : ops.length ≤ n → rt.1 = ru.1) (hheld : n < ops.length → rt.1 = false) :
    StopsAfter n ops s (if ru.1 then Machine.transition next 0 ru.2 else ru.2)
      (if rt.1 then Machine.transition next 0 rt.2 else rt.2) := by
  have hopen (hl : n < ops.length) : (if rt.1 then Machine.transition next 0 rt.2 else rt.2) = rt.2 := by
    rw [hheld hl]; rfl
  refine ⟨fun hl => ?_, fun hl => ?_, fun hl => ?_, fun hl => ?_, fun hl => ?_⟩
  · rw [henough hl, h.enough hl]
    split <;> rfl
  · rw [hopen hl]; exact h.held hl
  · rw [hopen hl]; exact h.issued hl
  · rw [hopen hl]
    split <;> exact h.cut hl
  · rw [hopen hl]; exact h.kept hl

end

end Sys2Proof.Safety

namespace Sys2Proof.Machine

open Sys2Proof.Safety

/-! ### Emitting a list, and a flush -/

theorem emitAll_of_completing (ops : List TransportOp) {s : State} (hrun : s.hang = none)
    (hcompleting : s.transportLeft = none) :
    emitAll ops s = { s with trace := s.trace ++ ops.map .emit } := by
  rcases (emits_emitAll ops hrun).cases hrun with ⟨left, e, hleft⟩ | ⟨hstops, -⟩
  · rw [e, hleft hcompleting, ← hcompleting]
  · exact absurd hcompleting hstops

/-- EmitAll under a transport that completes only `n` operations more (R142, R287). -/
theorem stopsAfter_emitAll (ops : List TransportOp) {s : State} {n : Nat} (hrun : s.hang = none)
    (hleft : s.transportLeft = some n) :
    StopsAfter n ops s (emitAll ops { s with transportLeft := none }) (emitAll ops s) := by
  induction ops generalizing s n with
  | nil => exact .nil (by simp [← hleft])
  | cons op ops ih =>
    have hfirst := stopsAfter_emit op hrun hleft
    have hcompleted := emit_of_completing op (s := { s with transportLeft := none }) hrun rfl
    rw [emitAll_cons, emitAll_cons]
    refine StopsAfter.seq (p := [op]) hfirst (by simp [hcompleted, State.ops, Event.op?])
      (by rw [hcompleted]; exact sameButPosition_of_eq rfl) ?_ (fun hl => ?_) (fun hl => ?_)
    · obtain ⟨es, hes⟩ := (keeps_emitAll ops (emit op { s with transportLeft := none })).trace
      exact ⟨es, hes.symm⟩
    · exact emitAll_of_held ops (by simp [(hfirst.held hl).1])
    · have hnext := ih (s := { emit op { s with transportLeft := none } with transportLeft := some (n - 1) })
        (by rw [hcompleted]; exact hrun) rfl
      rw [hfirst.enough hl]
      rw [hcompleted] at hnext ⊢
      exact hnext

/-- A flush under a transport that completes only `n` operations more (R214, R287). -/
theorem stopsAfter_flush {s : State} {n : Nat} (hrun : s.hang = none) (hleft : s.transportLeft = some n) :
    StopsAfter n [.data s.stage] s (flush { s with transportLeft := none }) (flush s) := by
  have hissues := stopsAfter_emit (.data s.stage) (s := recordAll (accesses .stageRead 0 s.stage) s) hrun hleft
  have hcompleted := emit_of_completing (.data s.stage)
    (s := { recordAll (accesses .stageRead 0 s.stage) s with transportLeft := none }) hrun rfl
  have hrun' : (emit (.data s.stage)
      { recordAll (accesses .stageRead 0 s.stage) s with transportLeft := none }).hang = none := by
    rw [hcompleted]; exact hrun
  have hflush := StopsAfter.andThen (f := fun x => { x with stage := [] })
    (hissues.pre (p := []) rfl (by simp [State.ops]) (sameButPosition_of_eq rfl)) hrun' (fun _ _ => rfl) (fun _ => rfl)
  rw [show flush { s with transportLeft := none } = _ from andThen_of_running _ hrun']
  exact hflush

/-! ### The opening and the end of a call -/

theorem transferOpen_eq (s : State) :
    transferOpen s = (emitAll (openingOps s) s).andThen fun x => { x with stage := [] } := by
  by_cases hcursor : s.cursor = 0 <;> simp only [transferOpen, openingOps, hcursor, if_true, if_false] <;> rfl

/-- `s` with a call opened and `left` operations that the transport still completes (R212, R213). -/
def opened (s : State) (left : Option Nat) : State :=
  { s with transportLeft := left, stage := [], trace := s.trace ++ (openingOps s).map .emit }

theorem transferOpen_of_completing {s : State} (hrun : s.hang = none) :
    transferOpen { s with transportLeft := none } = opened s none := by
  rw [transferOpen_eq, emitAll_of_completing _ (s := { s with transportLeft := none }) hrun rfl]
  exact andThen_of_running _ hrun

theorem opened_ops (s : State) (left : Option Nat) : (opened s left).ops = s.ops ++ openingOps s := by
  show (s.trace ++ (openingOps s).map Event.emit).filterMap Event.op? = _
  rw [List.filterMap_append, filterMap_emit]
  rfl

theorem sameButPosition_opened (s : State) (left : Option Nat) : SameButPosition s (opened s left) :=
  sameButPosition_of_eq rfl

/-- The start of a call under a transport that completes only `n` operations more (R212, R213). -/
theorem stopsAfter_transferOpen {s : State} {n : Nat} (hrun : s.hang = none) (hleft : s.transportLeft = some n) :
    StopsAfter n (openingOps s) s (transferOpen { s with transportLeft := none }) (transferOpen s) := by
  have hcompleted := emitAll_of_completing (openingOps s) (s := { s with transportLeft := none }) hrun rfl
  have hrun' : (emitAll (openingOps s) { s with transportLeft := none }).hang = none := by
    rw [hcompleted]; exact hrun
  rw [transferOpen_eq s, transferOpen_eq { s with transportLeft := none },
    show openingOps { s with transportLeft := none } = openingOps s from rfl, andThen_of_running _ hrun']
  exact (stopsAfter_emitAll _ hrun hleft).andThen (f := fun x => { x with stage := [] }) hrun' (fun _ _ => rfl)
    (fun _ => rfl)

theorem trace_prefix_transferClose (s : State) : s.trace <+: (transferClose s).trace := by
  obtain ⟨es, hes⟩ := (keeps_transferClose s).trace
  exact ⟨es, hes.symm⟩

/-- The operations that open a call carry no data bytes. -/
theorem dataBytes_take_openingOps (s : State) (k : Nat) : dataBytes ((openingOps s).take k) = [] := by
  unfold openingOps
  split <;> rcases k with _ | _ | k <;> simp [dataBytes]

/-- Those that close it carry the bytes still staged, in the first. -/
theorem dataBytes_take_closingOps (s : State) (k : Nat) : dataBytes ((closingOps s).take (k + 1)) = s.stage := by
  unfold closingOps
  split
  · simp_all [dataBytes]
  · cases k <;> simp [dataBytes]

/-- The end of a completed call under a transport that completes every operation (R216). -/
theorem transferClose_of_completing {s : State} (hrun : s.hang = none) (hcompleting : s.transportLeft = none) :
    (transferClose s).ops = s.ops ++ closingOps s ∧ (transferClose s).hang = none := by
  obtain ⟨es, -, -, ⟨left, e, hops, -⟩ | ⟨hstops, -⟩⟩ := transferClose_cases hrun
  · rw [e]
    exact ⟨by simp [State.ops, hops], hrun⟩
  · exact absurd hcompleting hstops

/-- A call's end that is held open leaves the cursor at the buffer's end (R289). -/
theorem transferClose_cursor_of_held {s : State} (hrun : s.hang = none) (hheld : (transferClose s).hang ≠ none) :
    (transferClose s).cursor = s.cursor := by
  obtain ⟨es, -, -, ⟨left, e, -⟩ | ⟨-, left, stage, -, e⟩⟩ := transferClose_cases hrun
  · rw [e] at hheld
    exact absurd hrun hheld
  · rw [e]

/-- The end of a completed call under a transport that completes only `n` operations more (R216, R287). -/
theorem stopsAfter_transferClose {s : State} {n : Nat} (hrun : s.hang = none) (hleft : s.transportLeft = some n) :
    StopsAfter n (closingOps s) s (transferClose { s with transportLeft := none }) (transferClose s) := by
  have hend {x : State} {m : Nat} (hx : x.hang = none) :
      StopsAfter m [.dataEnd] { x with transportLeft := some m }
        ((emit .dataEnd { x with transportLeft := none }).andThen fun y => { y with cursor := 0 })
        ((emit .dataEnd { x with transportLeft := some m }).andThen fun y => { y with cursor := 0 }) := by
    have hcompleted := emit_of_completing .dataEnd (s := { x with transportLeft := none }) hx rfl
    have hrun' : (emit .dataEnd { x with transportLeft := none }).hang = none := by rw [hcompleted]; exact hx
    rw [andThen_of_running _ hrun']
    exact (stopsAfter_emit .dataEnd (s := { x with transportLeft := some m }) hx rfl).andThen
      (f := fun y => { y with cursor := 0 }) hrun' (fun _ _ => rfl) (fun _ => rfl)
  by_cases hstage : s.stage = []
  · rw [closingOps, if_pos hstage, transferClose, transferClose, if_pos hstage, if_pos (by exact hstage)]
    have hlast := hend (m := n) hrun
    rwa [← hleft] at hlast
  · rw [closingOps, if_neg hstage, transferClose, transferClose, if_neg hstage, if_neg (by exact hstage)]
    have hflush := stopsAfter_flush hrun hleft
    obtain ⟨left, hflushed, hnone⟩ | ⟨hstops, -⟩ := flush_cases (s := { s with transportLeft := none }) hrun
    swap
    · exact absurd rfl hstops
    obtain rfl := hnone rfl
    refine StopsAfter.seq (p := [.data s.stage]) hflush (by simp [hflushed, State.ops])
      (by rw [hflushed]; exact sameButPosition_of_eq rfl) ?_ (fun hl => ?_) (fun hl => ?_)
    · obtain ⟨es, hes⟩ := ((keeps_emit .dataEnd (flush { s with transportLeft := none })).trans
        (keeps_andThen (f := fun x => { x with cursor := 0 }) (fun _ => ⟨rfl, rfl, rfl, ⟨[], by simp⟩, .inl rfl⟩) _)).trace
      exact ⟨es, hes.symm⟩
    · have hheld : (flush s).hang ≠ none := by simp [(hflush.held hl).1]
      rw [emit_of_held _ hheld, andThen_of_held _ hheld]
    · have hlast := hend (x := flush { s with transportLeft := none }) (m := n - 1) (by rw [hflushed]; exact hrun)
      rw [hflush.enough hl]
      rw [hflushed] at hlast ⊢
      exact hlast

/-! ### The call -/

/-- The end of a Transfer call after its loop (R216): the close when the loop reached the buffer's end. -/
def endCall (r : Bool × State) : Bool × State :=
  if r.1 then ((transferClose r.2).hang.isNone, transferClose r.2) else (false, r.2)

/-- A call that is opened is its loop and its end (R212). -/
theorem transfer_of_opened {s : State} (hopened : (transferOpen s).hang = none) :
    transfer s =
      thenDo (transferLoop ((transferOpen s).bufferLen - (transferOpen s).cursor.toNat) (transferOpen s))
        fun r => .next (endCall r) := by
  have hend : ∀ r : Bool × State, (if r.1 then
        .next ((transferClose r.2).hang.isNone, transferClose r.2) else .next (false, r.2)) =
      (.next (endCall r) : Host.Outcome (Bool × State) Fault Refusal) := by
    intro r
    unfold endCall
    split <;> rfl
  rw [transfer, hopened]
  simp only [Option.isSome_none, Bool.false_eq_true, if_false, hend]

/-- A call whose opening is held open ends there (R289). -/
theorem transfer_of_held {s : State} (hheld : (transferOpen s).hang ≠ none) :
    transfer s = .next (false, transferOpen s) := by
  rw [transfer, if_pos (Option.isSome_iff_ne_none.2 hheld)]

/-- From `s`, the part of a call that ends in `ru` with a transport that completes every operation ends in `rt` with one
that completes only `n` more; where it is held open the cursor stands after the bytes sent. -/
structure CallStops (n : Nat) (s : State) (ru rt : Bool × State) (ops : List TransportOp) : Prop where
  issued : ru.2.ops = s.ops ++ ops
  trace : s.trace <+: ru.2.trace
  stops : StopsAfter n ops s ru.2 rt.2
  enough : ops.length ≤ n → rt.1 = ru.1
  held : n < ops.length → rt.1 = false ∧ s.cursor.toNat ≤ rt.2.cursor.toNat ∧ rt.2.cursor.toNat ≤ s.bufferLen ∧
    dataBytes (ops.take (n + 1)) = bufferBytes s s.cursor.toNat rt.2.cursor.toNat

/-- The loop of a call and its end, from an empty staging block (R212, R216, R287). -/
theorem callStops_of_loopStops {n : Nat} {s u t : State} {b b' : Bool} {ops : List TransportOp} (hempty : s.stage = [])
    (h : LoopStops n s b u b' t ops) :
    CallStops n s (endCall (b, u)) (endCall (b', t)) (ops ++ if b then closingOps u else []) := by
  obtain ⟨hclosed, hcloseRun⟩ := transferClose_of_completing h.running h.completing
  have hissued : (endCall (b, u)).2.ops = s.ops ++ (ops ++ if b then closingOps u else []) := by
    cases b with
    | false => simp [endCall, h.issued]
    | true => simp [endCall, hclosed, h.issued]
  have hgrows : u.trace <+: (endCall (b, u)).2.trace := by
    cases b with
    | false => exact List.prefix_rfl
    | true => exact trace_prefix_transferClose u
  have hbytes := h.bytes
  rw [hempty, List.nil_append] at hbytes
  rcases Nat.lt_or_ge n ops.length with hlt | hge
  · obtain ⟨rfl, hadvanced, hbound, hsent⟩ := h.held hlt
    rw [hempty, List.nil_append] at hsent
    refine ⟨hissued, h.trace.trans hgrows, h.stops.post hlt hgrows, fun hl => ?_, fun _ =>
      ⟨rfl, hadvanced, hbound, ?_⟩⟩
    · rw [List.length_append] at hl
      omega
    · rw [List.take_append_of_le_length hlt]
      exact hsent
  · obtain rfl := h.enough hge
    have hsame := h.stops.enough hge
    cases b' with
    | false =>
      refine ⟨hissued, h.trace.trans hgrows, ?_, fun _ => rfl, fun hl => ?_⟩
      · simpa [endCall] using h.stops
      · simp at hl
        omega
    | true =>
      subst hsame
      have hclose := stopsAfter_transferClose (s := { u with transportLeft := some (n - ops.length) }) h.running rfl
      rw [show ({ u with transportLeft := none } : State) = u by rw [← h.completing]] at hclose
      have hstops := hclose.pre (n := n) (by omega) h.issued (h.registers.trans (sameButPosition_of_eq rfl))
      refine ⟨hissued, h.trace.trans hgrows, hstops, fun hl => ?_, fun hl => ?_⟩
      · show (transferClose _).hang.isNone = (transferClose u).hang.isNone
        rw [hstops.enough hl]
      · have hheld := (hstops.held hl).1
        have hcursor : (endCall (true, { u with transportLeft := some (n - ops.length) })).2.cursor = u.cursor :=
          transferClose_cursor_of_held h.running (by rw [hheld]; simp)
        rw [hcursor]
        refine ⟨?_, h.advanced, h.bound, ?_⟩
        · show (transferClose _).hang.isNone = false
          rw [hheld]
          rfl
        · rw [← hbytes, show n + 1 = ops.length + ((n - ops.length) + 1) by omega,
            List.take_length_add_append, dataBytes_append]
          exact congrArg (dataBytes ops ++ ·) (dataBytes_take_closingOps u _)

/-- The loop and the end of a call that has been opened (R212, R216, R287). -/
theorem opened_stops {s : State} (m : Nat) (hrun : s.hang = none) (hbound : s.cursor.toNat ≤ s.bufferLen) :
    ∃ ru rt ops, transfer { s with transportLeft := none } = .next ru ∧
      (transferOpen s = opened s (some m) → transfer s = .next rt) ∧ CallStops m (opened s (some m)) ru rt ops := by
  obtain ⟨b, u, b', t, ops, hu, ht, hloop⟩ :=
    transferLoop_stops (s.bufferLen - s.cursor.toNat) (s := opened s (some m)) hrun rfl rfl hbound
  refine ⟨_, _, _, ?_, fun hopened => ?_, callStops_of_loopStops rfl hloop⟩
  · rw [transfer_of_opened (by rw [transferOpen_of_completing hrun]; exact hrun), transferOpen_of_completing hrun]
    exact congrArg (thenDo · fun r => .next (endCall r)) hu
  · rw [transfer_of_opened (by rw [hopened]; exact hrun), hopened]
    exact congrArg (thenDo · fun r => .next (endCall r)) ht

/-- A call that is held open in its opening has sent nothing and left the cursor (R289). -/
theorem CallStops.of_heldOpening {n m : Nat} {s : State} {ru rt : Bool × State} {ops : List TransportOp}
    (h : CallStops m (opened s (some m)) ru rt ops) (hrun : s.hang = none) (hleft : s.transportLeft = some n)
    (hbound : s.cursor.toNat ≤ s.bufferLen) (hlt : n < (openingOps s).length) :
    CallStops n s ru (false, transferOpen s) (openingOps s ++ ops) := by
  have hopens := stopsAfter_transferOpen hrun hleft
  rw [transferOpen_of_completing hrun] at hopens
  have hcursor : (transferOpen s).cursor = s.cursor := by
    rcases transferOpen_cases hrun with ⟨left, e, -⟩ | ⟨-, left, part, -, e⟩ <;> rw [e]
  refine ⟨by rw [h.issued, opened_ops, List.append_assoc], (List.prefix_append _ _).trans h.trace,
    hopens.post hlt h.trace, fun hl => ?_, fun _ => ⟨rfl, ?_⟩⟩
  · rw [List.length_append] at hl
    omega
  · rw [hcursor, bufferBytes_self, List.take_append_of_le_length hlt, dataBytes_take_openingOps]
    exact ⟨le_rfl, hbound, rfl⟩

/-- A call that gets past its opening goes on with the operations left (R212). -/
theorem CallStops.of_opened {n m : Nat} {s : State} {ru rt : Bool × State} {ops : List TransportOp}
    (h : CallStops m (opened s (some m)) ru rt ops) (hn : n = m + (openingOps s).length) :
    CallStops n s ru rt (openingOps s ++ ops) := by
  refine ⟨by rw [h.issued, opened_ops, List.append_assoc], (List.prefix_append _ _).trans h.trace,
    h.stops.pre hn (opened_ops s _) (sameButPosition_opened s _), fun hl => h.enough ?_, fun hl => ?_⟩ <;>
    rw [List.length_append] at hl
  · omega
  · obtain ⟨hfalse, hadvanced, hend, hsent⟩ := h.held (by omega)
    refine ⟨hfalse, hadvanced, hend, ?_⟩
    have hopening : dataBytes (openingOps s) = [] := by
      simpa using dataBytes_take_openingOps s (openingOps s).length
    rw [show n + 1 = (openingOps s).length + (m + 1) by omega, List.take_length_add_append, dataBytes_append, hsent,
      hopening, List.nil_append]
    rfl

/-- A Transfer call under a transport that completes only `n` operations more (R212, R287). -/
theorem transfer_stops {s : State} {n : Nat} (hrun : s.hang = none) (hleft : s.transportLeft = some n)
    (hbound : s.cursor.toNat ≤ s.bufferLen) :
    ∃ ru rt ops, transfer { s with transportLeft := none } = .next ru ∧ transfer s = .next rt ∧
      CallStops n s ru rt ops := by
  have hopens := stopsAfter_transferOpen hrun hleft
  rw [transferOpen_of_completing hrun] at hopens
  obtain ⟨ru, rt, ops, hru, hrt, hcall⟩ := opened_stops (n - (openingOps s).length) hrun hbound
  rcases Nat.lt_or_ge n (openingOps s).length with hlt | hge
  · exact ⟨ru, _, _, hru, transfer_of_held (by simp [(hopens.held hlt).1]),
      hcall.of_heldOpening hrun hleft hbound hlt⟩
  · exact ⟨ru, rt, _, hru, hrt (hopens.enough hge), hcall.of_opened (by omega)⟩

/-! ### What the two dispatches record -/

/-- Interpret from offset 0 under a transport that completes only `n` operations more (R180, R181, R287). -/
theorem interpret_stops {s : State} {n : Nat} (hrun : s.hang = none) (hleft : s.transportLeft = some n) :
    InterpretStops n s (interpret { s with transportLeft := none }) (interpret s) :=
  InterpretStops.pre (s1 := { s with idx := 0 }) (p := []) (interpretLoop_stops s.initLen hrun hleft) rfl
    (List.append_nil _).symm (sameButPosition_of_eq rfl) rfl rfl

/-- INITIALISE is its interpretation, and the transition when that was ok (R132). -/
theorem execStateInitialise_eq (s : State) :
    execStateInitialise s =
      .next (if (interpret s).1 then transition .transferData 0 (interpret s).2 else (interpret s).2) := rfl

/-- The transition that may end a dispatch issues nothing. -/
theorem ops_transition_if (b : Bool) (next : StateCode) (d : Word) (s : State) :
    (if b then transition next d s else s).ops = s.ops := by
  split
  · exact transition_ops next d s
  · rfl

theorem ops_of_trace {s t : State} {es : List Event} (h : t.trace = s.trace ++ es) :
    t.ops = s.ops ++ es.filterMap Event.op? := by
  rw [State.ops, h, List.filterMap_append]
  rfl

theorem clockSamples_of_trace {s t : State} {es : List Event} (h : t.trace = s.trace ++ es) :
    clockSamples t = clockSamples s ++ es.filterMap Event.sample? := by
  rw [clockSamples, h, List.filterMap_append]
  rfl

/-- A whole call's operations: the start command exactly when the cursor is 0, then one data phase (R212, R213). -/
theorem callOps_eq (s : State) (blocks : List (List Byte)) :
    openingOps s ++ (blocks.map .data ++ [.dataEnd]) =
      (if s.cursor = 0 then [.command s.cfg.transferStartCmd []] else []) ++
        (.dataBegin :: blocks.map .data ++ [.dataEnd]) := by
  unfold openingOps
  split <;> rfl

end Sys2Proof.Machine

namespace Sys2Proof

open Machine Safety

/-- Settles O60: the interpreter's runs with and without the transport's end compare, and the transition comes after
both. -/
theorem initialiseHeldOpenByTheTransport : Obligations.InitialiseHeldOpenByTheTransport := by
  unfold Obligations.InitialiseHeldOpenByTheTransport
  intro s n hrun hleft
  obtain ⟨ops, hissued, hstops, henough, hheld⟩ := interpret_stops hrun hleft
  have hdispatch := hstops.transition .transferData henough fun hl => (hheld hl).1
  refine ⟨_, _, ops, execStateInitialise_eq _, (ops_transition_if _ _ _ _).trans hissued, execStateInitialise_eq s,
    hdispatch, fun hl => ?_⟩
  obtain ⟨hfalse, hcursor, hstage⟩ := hheld hl
  obtain ⟨-, hregisters⟩ := hstops.kept hl
  rw [hcursor, hstage] at hregisters
  rw [hfalse]
  exact hregisters

/-- Settles O38: the whole call by `transfer_cases`; with a transport that stops, by the comparison of its runs. -/
theorem transferCallSendsBlocksInOrder : Obligations.TransferCallSendsBlocksInOrder := by
  unfold Obligations.TransferCallSendsBlocksInOrder
  refine ⟨fun s hrun hcompleting hstaging hbound => ?call, fun s n hrun hleft hbound => ?stops⟩
  case stops =>
    obtain ⟨ru, rt, ops, hru, hrt, h⟩ := transfer_stops hrun hleft hbound
    refine ⟨if rt.1 then transition .powerOn 0 rt.2 else rt.2, if ru.1 then transition .powerOn 0 ru.2 else ru.2, ops,
      by rw [exec, execStateTransferData, hru]; rfl, (ops_transition_if _ _ _ _).trans h.issued,
      by rw [exec, execStateTransferData, hrt]; rfl,
      h.stops.transition .powerOn h.enough fun hl => (h.held hl).1, fun hl => ?_⟩
    obtain ⟨hfalse, hbytes⟩ := h.held hl
    rw [hfalse]
    exact hbytes
  case call =>
    obtain ⟨b, u, blocks, es, hu, hsame, htrace, -, hlast, hcompletes, hend⟩ := transfer_cases hrun hstaging hbound
    obtain ⟨hopen, hleft⟩ := hcompletes hcompleting
    rw [hopen, hleft, ← hrun, ← hcompleting] at hsame
    have hexec := execStateTransferData_eq hu
    have hops := ops_of_trace htrace
    have hsamples := clockSamples_of_trace htrace
    have hone : 1 ≤ s.stagingSize := Nat.pos_of_ne_zero (BitVec.toNat_ne.1 hstaging)
    cases hend with
    | finished hang stage cursor issued sampled bytes full sized inBudget =>
      rw [issued, callOps_eq, ← List.append_assoc] at hops
      rw [sampled] at hsamples
      rw [stage] at hsame
      refine ⟨_, blocks, s.bufferLen, hexec, ?_, hbound, le_rfl, bytes, full, sized, hsamples, .inl
        ⟨rfl, cursor, rfl, rfl, rfl, inBudget⟩, fun _ => rfl, ?_⟩
      · exact hops.trans (by simp)
      · rw [if_pos rfl]
        conv_lhs => rw [hsame]
    | exceeded hang stage some issued sampled bytes full advanced inBudget overBudget =>
      rw [issued, callOps_eq, ← List.append_assoc] at hops
      rw [sampled, ← fullBlocks_of_full full] at hsamples
      rw [stage] at hsame
      obtain ⟨hstate, hdeadline, hwait⟩ : u.state = s.state ∧ u.deadline = s.deadline ∧ u.waitIdle = s.waitIdle := by
        rw [hsame]
        exact ⟨rfl, rfl, rfl⟩
      refine ⟨_, blocks, u.cursor.toNat, hexec, ?_, by omega, hlast, bytes,
        fun x hx => full x (List.dropLast_subset _ hx), fun x hx => ⟨(full x hx).symm ▸ hone, (full x hx).le⟩, hsamples,
        .inr ⟨by omega, some, full, inBudget, overBudget, rfl, hstate, hdeadline, hwait⟩,
        fun hinBudget => ?_, ?_⟩
      · exact hops.trans (by simp)
      · exact absurd overBudget (by rw [hinBudget _ (sampleAt_mem s _)]; simp)
      · rw [if_neg Bool.false_ne_true]
        conv_lhs => rw [hsame]
        rw [hstate, hdeadline, hwait]
    | held hang _ _ => cases hopen.symm.trans hang

end Sys2Proof
end

