-- ==== Sys2Proof/Proofs/UpdateCycle.lean ====
section
/-! PROOF. A whole update cycle (O59): what holds between two of its requests, which dispatch leads from each state to the
next, and the eleven steps one after another. -/

namespace Sys2Proof.Machine

open Sys2Proof.Safety

/-! ### What an interpretation leaves of the inputs -/

/-- `t` has the requests and resets to come of `s`, a transport that completes if that of `s` does, and no clock value
that `s` has not. -/
structure KeepsInputs (s t : State) : Prop where
  requests : t.requests = s.requests
  resetIn : t.resetIn = s.resetIn
  script : t.nowScript <:+ s.nowScript
  completing : s.transportLeft = none → t.transportLeft = none

theorem KeepsInputs.refl (s : State) : KeepsInputs s s := ⟨rfl, rfl, List.suffix_refl _, id⟩

theorem KeepsInputs.trans {s t u : State} (h : KeepsInputs s t) (h' : KeepsInputs t u) : KeepsInputs s u :=
  ⟨h'.requests.trans h.requests, h'.resetIn.trans h.resetIn, h'.script.trans h.script,
    fun hs => h'.completing (h.completing hs)⟩

theorem keepsInputs_now (s : State) : KeepsInputs s (now s).2 := by
  rw [now_snd]
  exact ⟨rfl, rfl, List.tail_suffix _, id⟩

theorem keepsInputs_sleepLoop (ts : Word) (t : Nat) (script : List Word) (s : State) :
    KeepsInputs s (sleepLoop ts t script s).2 := by
  have hsample := keepsInputs_now s
  induction script generalizing s with
  | nil =>
    simp only [sleepLoop]
    split
    · exact hsample
    · exact ⟨hsample.requests, hsample.resetIn, hsample.script, hsample.completing⟩
  | cons v rest ih =>
    simp only [sleepLoop]
    split
    · exact hsample
    · exact hsample.trans (ih _ (keepsInputs_now _))

theorem keepsInputs_entryDelay (t : Byte) (s : State) : KeepsInputs s (entryDelay t s).2 := by
  have hstart : KeepsInputs s { (now s).2 with sleepStart := (now s).1 } := by
    obtain ⟨hrequests, hreset, hscript, hcompleting⟩ := keepsInputs_now s
    exact ⟨hrequests, hreset, hscript, hcompleting⟩
  have hslept : KeepsInputs s (sleepMs t.toNat s).2 := hstart.trans (keepsInputs_sleepLoop _ _ _ _)
  simp only [entryDelay]
  split
  · exact ⟨hslept.requests, hslept.resetIn, hslept.script, hslept.completing⟩
  · exact hslept

theorem keepsInputs_commandEntry (c : Byte) (n : BitVec 7) (s : State) : KeepsInputs s (commandEntry c n s).2 := by
  have hemits (op : TransportOp) (u : State) : KeepsInputs u (emit op u) := by
    rcases emit_cases op u with ⟨_, e⟩ | ⟨_, _, e⟩ | ⟨_, _, e⟩ | ⟨_, _, hleft, e⟩ <;> rw [e]
    · exact KeepsInputs.refl u
    · exact ⟨rfl, rfl, List.suffix_refl _, id⟩
    · exact ⟨rfl, rfl, List.suffix_refl _, id⟩
    · exact ⟨rfl, rfl, List.suffix_refl _, fun hnone => by cases hleft.symm.trans hnone⟩
  have hissued := hemits (.command c (s.payload n.toNat)) (recordAll (payloadReads n.toNat s) s)
  obtain ⟨hrequests, hreset, hscript, hcompleting⟩ := hissued
  simp only [commandEntry]
  split
  · exact ⟨rfl, rfl, List.suffix_refl _, id⟩
  · split <;> exact ⟨hrequests, hreset, hscript, hcompleting⟩

theorem keepsInputs_interpretLoop (fuel : Nat) (s : State) : KeepsInputs s (interpretLoop fuel s).2 := by
  have hentry (e : Entry) (u : State) : KeepsInputs u (runEntry e u).2 := by
    cases e with
    | delay t => exact keepsInputs_entryDelay t u
    | cmd c n => exact keepsInputs_commandEntry c n u
    | cmdB7 c n => exact keepsInputs_commandEntry c n u
  induction fuel generalizing s with
  | zero => exact KeepsInputs.refl s
  | succ fuel ih =>
    by_cases hend : s.idx.toNat = s.initLen
    · rw [interpretLoop, if_pos hend]
      exact KeepsInputs.refl s
    · cases hhere : s.entryHere with
      | none =>
        rw [interpretLoop, if_neg hend, hhere]
        exact ⟨rfl, rfl, List.suffix_refl _, id⟩
      | some e =>
        have hread : KeepsInputs s (recordAll (headerReads s) s) := ⟨rfl, rfl, List.suffix_refl _, id⟩
        have hran := hread.trans (hentry e _)
        rw [interpretLoop_entry fuel hend hhere]
        split
        · exact hran.trans (ih _)
        · exact hran

/-- INITIALISE leaves the inputs as its interpretation does: its transition takes no sample (R132). -/
theorem keepsInputs_execStateInitialise {s t : State} (he : execStateInitialise s = .next t) : KeepsInputs s t := by
  have hinterprets : KeepsInputs s (interpret s).2 := by
    have hloop := keepsInputs_interpretLoop s.initLen { s with idx := 0 }
    exact ⟨hloop.requests, hloop.resetIn, hloop.script, hloop.completing⟩
  rw [execStateInitialise_eq] at he
  cases he
  split
  · exact ⟨hinterprets.requests, hinterprets.resetIn, hinterprets.script, hinterprets.completing⟩
  · exact hinterprets

/-! ### Between two requests of a cycle -/

/-- A cycle of a block with the record `cfg` stands at the Driver State `c`, with the request codes `requests` to come: no
gate of ADVANCE but the busy line can hold it, the clock stands still until the transfer, and the producer's window is
meaningful until it is run. -/
structure Cycling (cfg : PanelConfig) (c : StateCode) (requests : List (BitVec 2)) (s : State) : Prop where
  config : s.cfg = cfg
  state : s.state = c.code
  requests : s.requests = requests
  running : s.hang = none
  active : s.active = true
  notFailed : s.failed = false
  noDeadline : s.deadline = 0
  cursor : s.cursor = 0
  noReset : s.resetIn = []
  completing : s.transportLeft = none
  stopped : c ∈ [StateCode.reset, .update, .initialise, .transferData] → s.nowScript = []
  window : c ∈ [StateCode.reset, .update] →
    s.nextRun.done = true ∧ s.nextRun.writes.all (writeLegal cfg) = true

/-- The answer changes nothing of this. -/
theorem Cycling.respond {cfg : PanelConfig} {c : StateCode} {requests : List (BitVec 2)} {s : State}
    (h : Cycling cfg c requests s) (r : Response) : Cycling cfg c requests (respond r s) := by
  obtain ⟨h1, h2, h3, h4, h5, h6, h7, h8, h9, h10, h11, h12⟩ := h
  exact ⟨h1, h2, h3, h4, h5, h6, h7, h8, h9, h10, h11, h12⟩

/-- Where the dispatch of an ADVANCE starts that takes its request, leaving `rest`, and the start sample `v` (R125). -/
def dispatchStart (v : Word) (rest : List (BitVec 2)) (s : State) : State :=
  { s with
    resetIn := s.resetIn.tail, requests := rest, t0 := v, nowMs := v, nowScript := s.nowScript.tail, deadline := 0,
    waitIdle := false, response := none, trace := s.trace ++ [.clock v] }

theorem dispatchStart_ops (v : Word) (rest : List (BitVec 2)) (s : State) : (dispatchStart v rest s).ops = s.ops :=
  (ops_of_trace rfl).trans (List.append_nil _)

theorem Cycling.dispatchStart {cfg : PanelConfig} {c : StateCode} {requests rest : List (BitVec 2)} {s : State}
    (h : Cycling cfg c requests s) (v : Word) : Cycling cfg c rest (dispatchStart v rest s) :=
  { h with
    requests := rfl
    noDeadline := rfl
    noReset := congrArg List.tail h.noReset
    stopped := fun hc => congrArg List.tail (h.stopped hc) }

/-- Without a busy line the poll lets the request pass with `wait_idle` clear (R43, R127). -/
theorem busyHolds_of_noLine {s : State} (habsent : s.cfg.busyPresent = false) :
    busyHolds s = (false, { s with waitIdle := false }) := by
  cases hwait : s.waitIdle with
  | true => exact busyHolds_of_absent hwait habsent
  | false =>
    rw [busyHolds_of_clear hwait]
    simp [← hwait]

/-- The bytes of the frame buffer, in the order of their addresses. -/
def wholeBuffer (s : State) : List Byte := bufferBytes s 0 s.bufferLen

theorem Keeps.wholeBuffer_eq {s t : State} (h : Keeps s t) : wholeBuffer t = wholeBuffer s := by
  have hdefault : t.fbDefault = s.fbDefault := by
    funext k
    simp [State.fbDefault, h.cfg, h.fbAllocated]
  simp [wholeBuffer, bufferBytes, State.bufferLen, State.fbByte, h.cfg, h.fb, hdefault]

section
variable {cfg : PanelConfig} {c : StateCode} {rest : List (BitVec 2)} {s : State}

/-- A step of the cycle that takes an ADVANCE is the dispatch of its Driver State (R122, R128). -/
theorem Cycling.step_eq (h : Cycling cfg c (2 :: rest) s) (hbusy : cfg.busyPresent = false) :
    ∃ v, step s = thenDo (exec (.ofState c) (Machine.dispatchStart v rest s)) fun t => .next (finishDispatch t) := by
  set taken : State := { s with resetIn := s.resetIn.tail, requests := rest } with htaken
  have hstep : step s = execAdvance taken :=
    stepRunsTheDecodedRequest s 2 rest .advance (noReset_iff.2 (by rw [h.noReset]; rfl)) h.running h.requests rfl
  refine ⟨(now taken).1, ?_⟩
  have hpoll : busyHolds { sampleT0 taken with deadline := 0 } =
      (false, { sampleT0 taken with deadline := 0, waitIdle := false }) :=
    busyHolds_of_noLine (by rw [sampleT0_eq]; exact (congrArg _ h.config).trans hbusy)
  have hdecode : decode (.state (sampleT0 taken).state) = .ok (.ofState c) := by
    rw [sampleT0_eq]
    exact h.state ▸ decode_code c
  rw [hstep, execAdvance_of_deadlinePassed (s := taken) h.notFailed h.active (.inl h.noDeadline), hpoll,
    if_neg Bool.false_ne_true,
    dispatchAndRespond_eq (s := { sampleT0 taken with deadline := 0, waitIdle := false }) hdecode, sampleT0_eq]
  rfl

/-- From `d` the dispatch of `c` leads the cycle to `next` without an answer of its own, and issues operations of which
`issues` holds. -/
def Completes (cfg : PanelConfig) (c next : StateCode) (rest : List (BitVec 2)) (issues : List TransportOp → Prop)
    (d : State) : Prop :=
  ∃ u ops, exec (.ofState c) d = .next u ∧ issues ops ∧ Cycling cfg next rest u ∧ u.response = d.response ∧
    u.ops = d.ops ++ ops

/-- A step of the cycle whose dispatch completes leads it on, and leaves the buffer's bytes unless it is UPDATE's. -/
theorem Cycling.advance {next : StateCode} {issues : List TransportOp → Prop} (h : Cycling cfg c (2 :: rest) s)
    (hbusy : cfg.busyPresent = false)
    (hdispatch : ∀ v, Completes cfg c next rest issues (Machine.dispatchStart v rest s)) :
    ∃ t ops, step s = .next t ∧ issues ops ∧ Cycling cfg next rest t ∧ t.ops = s.ops ++ ops ∧
      (c ≠ .update → wholeBuffer t = wholeBuffer s) := by
  obtain ⟨v, hstep⟩ := h.step_eq hbusy
  obtain ⟨u, ops, hexec, hissues, hcycling, hresponse, hops⟩ := hdispatch v
  rw [hexec, thenDo_next, finishDispatch_of_completed hcycling.running hresponse] at hstep
  refine ⟨_, ops, hstep, hissues, hcycling.respond _, ?_, fun hnotUpdate => ?_⟩
  · rw [respond_ops, hops, dispatchStart_ops]
  · have hkeeps : Keeps (Machine.dispatchStart v rest s) u :=
      keeps_exec_dispatch hexec (by cases c <;> simp_all [Instr.ofState]) (by cases c <;> simp [Instr.ofState])
        (by cases c <;> simp [Instr.ofState])
    exact hkeeps.wholeBuffer_eq

/-! ### The dispatches of a cycle -/

/-- RESET without a reset line goes straight on to UPDATE (R130). -/
theorem completes_reset (h : Cycling cfg .reset rest s) (hline : cfg.resetPresent = false) :
    Completes cfg .reset .update rest (· = []) s := by
  obtain ⟨hexec, -⟩ := resetDispatches s .stateReset .resetEnd (by simp)
  refine ⟨_, [], hexec (by rw [h.config]; exact hline), rfl, ?_, rfl, (List.append_nil _).symm⟩
  exact
    { h with
      state := rfl
      noDeadline := rfl
      stopped := fun _ => h.stopped (by simp)
      window := fun _ => h.window (by simp) }

/-- UPDATE runs the producer's window, which issues nothing, and goes on to INITIALISE (R131). -/
theorem completes_update (h : Cycling cfg .update rest s) (hlegal : configProblem cfg = none) :
    Completes cfg .update .initialise rest (· = []) s := by
  obtain ⟨hdone, hwrites⟩ := h.window (by simp)
  obtain ⟨u, hexec⟩ := execStateUpdate_next (s := s) (by rw [h.config]; exact hlegal) (by rw [h.config]; exact hwrites)
  obtain ⟨-, fb, acts, hacts, -, ⟨-, hu⟩ | ⟨hnot, -⟩⟩ := execStateUpdate_cases h.running hexec
  · refine ⟨u, [], hexec, rfl, ?_, by rw [hu], ?_⟩
    · rw [hu]
      exact
        { h with
          state := rfl
          noDeadline := rfl
          stopped := fun _ => h.stopped (by simp)
          window := fun hc => by simp at hc }
    · rw [ops_of_trace (es := .producerStart :: acts ++ [.producerDone]) (by rw [hu, List.append_assoc])]
      simp [Event.op?, List.filterMap_cons, op?_fbAccesses hacts]
  · cases hdone.symm.trans hnot

/-- INITIALISE interprets a program without waits to its end (R132, R189). -/
theorem completes_initialise {prog : List Asm} (h : Cycling cfg .initialise rest s) (hlegal : configProblem cfg = none)
    (hprog : assembleAll prog = some cfg.initSeq) (hnoWaits : prog.all (fun a => !asmWaits a) = true) :
    Completes cfg .initialise .transferData rest (· = commandsOf prog) s := by
  have hshort : cfg.initSeq.length ≤ 65535 := ((configProblem_eq_none_iff _).1 hlegal).initLen
  obtain ⟨u, hexec, hends, -, hruns⟩ := assembledProgramIsInterpretedExactly s prog cfg.initSeq hprog hshort
    (by rw [h.config]) h.running h.completing
  have hrun := hruns hnoWaits
  obtain ⟨hops, -, hstate, hdeadline, -, hfailed, -, -, hactive, hcursor, hcfg, hresponse, -⟩ := hends hrun
  have hinputs := keepsInputs_execStateInitialise hexec
  refine ⟨u, _, hexec, rfl, ?_, hresponse, hops⟩
  exact
    { config := hcfg.trans h.config
      state := hstate
      requests := hinputs.requests.trans h.requests
      running := hrun
      active := hactive.trans h.active
      notFailed := hfailed.trans h.notFailed
      noDeadline := hdeadline
      cursor := hcursor.trans h.cursor
      noReset := hinputs.resetIn.trans h.noReset
      completing := hinputs.completing h.completing
      stopped := fun _ => List.suffix_nil.1 (h.stopped (by simp) ▸ hinputs.script)
      window := fun hc => by simp at hc }

/-- What one whole transfer issues: the start command, and one data phase with the buffer's bytes (R212, R213, R217). -/
def SendsBuffer (s : State) (ops : List TransportOp) : Prop :=
  ∃ sent, ops = .command s.cfg.transferStartCmd [] :: sent ∧ dataBytes sent = wholeBuffer s ∧
    ∀ op ∈ sent, ∀ c p, op ≠ .command c p

theorem dataBytes_dataPhase (blocks : List (List Byte)) :
    dataBytes (.dataBegin :: blocks.map .data ++ [.dataEnd]) = blocks.flatten := by
  simp [dataBytes, List.flatMap_map]

/-- TRANSFER_DATA on a stopped clock sends the whole buffer in one call (R133, R215). -/
theorem completes_transferData (h : Cycling cfg .transferData rest s) (hlegal : configProblem cfg = none)
    (hclock : s.nowMs = s.t0) : Completes cfg .transferData .powerOn rest (SendsBuffer s) s := by
  have hstaging : s.cfg.stagingSize ≠ 0 := h.config ▸ ((configProblem_eq_none_iff _).1 hlegal).stagingSize
  obtain ⟨hcall, -⟩ := transferCallSendsBlocksInOrder
  obtain ⟨u, blocks, stop, hexec, hops, -, -, hbytes, -, -, -, hend, hinTime, hsame⟩ :=
    hcall s h.running h.completing hstaging (by rw [h.cursor]; exact Nat.zero_le _)
  have hnever : ∀ v ∈ s.nowMs :: s.nowScript, exceeded s.t0 v s.cfg.transferBudgetMs = false := by
    intro v hv
    rw [h.stopped (by simp), List.mem_singleton] at hv
    rw [hv, hclock, ← Bool.not_eq_true, exceeded_iff, BitVec.sub_self]
    exact Nat.not_lt_zero _
  have hpowerOn := hinTime hnever
  obtain ⟨rfl, hcursor, -, hdeadline, -, -⟩ | ⟨-, -, -, -, hover, -⟩ := hend
  · rw [h.cursor] at hbytes
    rw [if_pos h.cursor] at hops
    refine ⟨u, _, hexec, ⟨_, rfl, (dataBytes_dataPhase blocks).trans hbytes, ?_⟩, ?_, by rw [hsame], ?_⟩
    · rintro _ hop c p rfl
      simp at hop
    · rw [hsame]
      exact
        { h with
          state := hpowerOn
          noDeadline := hdeadline
          cursor := hcursor
          stopped := fun hc => by simp at hc
          window := fun hc => by simp at hc }
    · rw [hops]
      simp
  · rw [hnever _ (sampleAt_mem s _)] at hover
    cases hover

/-- A parameterised phase with a delay of 0 issues its operations and goes on (R134 to R138). -/
theorem completes_phase {p : Phase} {next : StateCode}
    (hrow : (Instr.ofState c, p, next) ∈ [(Instr.statePowerOn, Phase.powerOn, StateCode.postPowerOn),
      (.statePostPowerOn, .postPowerOn, .refreshScreen), (.stateRefreshScreen, .refreshScreen, .powerOff),
      (.statePowerOff, .powerOff, .deepSleep), (.stateDeepSleep, .deepSleep, .idle)])
    (h : Cycling cfg c rest s) (hdelay : cfg.phaseDelayMs.get p = 0) :
    Completes cfg c next rest (· = cfg.phaseOps.get p) s := by
  have hexec := phaseDispatchesEmitAndMoveOn s (.ofState c) p next hrow h.running h.completing
  rw [show s.cfg.phaseDelayMs.get p = 0 from h.config ▸ hdelay] at hexec
  have hnext : next ∉ [StateCode.reset, .update, .initialise, .transferData] ∧ next ∉ [StateCode.reset, .update] := by
    simp only [List.mem_cons, Prod.mk.injEq, List.not_mem_nil, or_false] at hrow
    obtain ⟨-, -, rfl⟩ | ⟨-, -, rfl⟩ | ⟨-, -, rfl⟩ | ⟨-, -, rfl⟩ | ⟨-, -, rfl⟩ := hrow <;> decide
  refine ⟨_, s.cfg.phaseOps.get p, hexec, by rw [h.config], ?_, rfl, ?_⟩
  · exact
      { h with
        config := h.config
        state := rfl
        noDeadline := rfl
        stopped := fun hc => absurd hc hnext.1
        window := fun hc => absurd hc hnext.2 }
  · rw [transition_ops]
    exact (ops_of_trace rfl).trans (by rw [filterMap_emit])

/-! ### Steps one after another -/

theorem run_succ {s t : State} (k : Nat) (hstep : step s = .next t) : core.run (k + 1) s = core.run k t := by
  have hcore : core.step s = .next t := hstep
  simp only [Host.Core.run, hcore]

/-- BEGIN_CYCLE in IDLE starts the cycle in RESET (R124). -/
theorem beginCycle_cycling {requests : List (BitVec 2)} (hinv : BlockInv s) (hrun : s.hang = none) (hstate : s.state = 0)
    (hfailed : s.failed = false) (hreset : s.resetIn = []) (hscript : s.nowScript = []) (hleft : s.transportLeft = none)
    (hlegal : s.nextRun.writes.all (writeLegal s.cfg) = true) (hdone : s.nextRun.done = true)
    (hrequests : s.requests = 1 :: requests) :
    ∃ t, step s = .next t ∧ Cycling s.cfg .reset requests t ∧ t.ops = s.ops := by
  have hstep := stepRunsTheDecodedRequest s 1 requests .beginCycle (noReset_iff.2 (by rw [hreset]; rfl)) hrun hrequests rfl
  have haccepted := (beginCycleAcceptedOrRejected { s with resetIn := s.resetIn.tail, requests := requests }).1
    hfailed hstate
  have hcursor : s.cursor = 0 := by
    by_contra hne
    exact absurd ((hinv.cursorPlace hne).symm.trans hstate) (by decide)
  refine ⟨_, hstep.trans haccepted, ?_, (ops_of_trace rfl).trans (List.append_nil _)⟩
  exact
    { config := rfl
      state := rfl
      requests := rfl
      running := hrun
      active := rfl
      notFailed := hfailed
      noDeadline := rfl
      cursor := hcursor
      noReset := congrArg List.tail hreset
      completing := hleft
      stopped := fun _ => hscript
      window := fun _ => ⟨hdone, hlegal⟩ }

/-- ADVANCE in IDLE ends the cycle (R129). -/
theorem Cycling.ends (h : Cycling cfg .idle (2 :: rest) s) (hbusy : cfg.busyPresent = false) :
    ∃ t, step s = .next t ∧ t.state = 0 ∧ t.active = false ∧ t.failed = false ∧ t.cursor = 0 ∧
      t.response = some .processed ∧ t.requests = rest ∧ t.ops = s.ops ∧ wholeBuffer t = wholeBuffer s := by
  obtain ⟨v, hstep⟩ := h.step_eq hbusy
  have hexec : exec (.ofState .idle) (Machine.dispatchStart v rest s) =
      .next { Machine.dispatchStart v rest s with active := false } := idleDispatchEndsTheCycle _
  rw [hexec, thenDo_next, finishDispatch_of_completed (by exact h.running) rfl] at hstep
  exact ⟨_, hstep, h.state, rfl, h.notFailed, h.cursor, rfl, rfl,
    (respond_ops _ _).trans (dispatchStart_ops v rest s), rfl⟩

/-- The first four requests lead the cycle to POWER_ON, with the init commands and the frame buffer sent. -/
theorem Cycling.sends {prog : List Asm} (h : Cycling cfg .reset (2 :: 2 :: 2 :: 2 :: rest) s)
    (hbusy : cfg.busyPresent = false) (hline : cfg.resetPresent = false) (hlegal : configProblem cfg = none)
    (hprog : assembleAll prog = some cfg.initSeq) (hnoWaits : prog.all (fun a => !asmWaits a) = true) :
    ∃ t sent, (∀ k, core.run (k + 4) s = core.run k t) ∧ Cycling cfg .powerOn rest t ∧
      t.ops = s.ops ++ commandsOf prog ++ .command cfg.transferStartCmd [] :: sent ∧ dataBytes sent = wholeBuffer t ∧
      ∀ op ∈ sent, ∀ c p, op ≠ .command c p := by
  obtain ⟨t₁, _, hstep₁, rfl, h₁, hops₁, -⟩ :=
    h.advance hbusy fun v => completes_reset (h.dispatchStart v) hline
  obtain ⟨t₂, _, hstep₂, rfl, h₂, hops₂, -⟩ :=
    h₁.advance hbusy fun v => completes_update (h₁.dispatchStart v) hlegal
  obtain ⟨t₃, _, hstep₃, rfl, h₃, hops₃, -⟩ :=
    h₂.advance hbusy fun v => completes_initialise (h₂.dispatchStart v) hlegal hprog hnoWaits
  obtain ⟨t₄, _, hstep₄, ⟨sent, rfl, hbytes, hdata⟩, h₄, hops₄, hbuffer⟩ :=
    h₃.advance (issues := SendsBuffer t₃) hbusy fun v => completes_transferData (h₃.dispatchStart v) hlegal rfl
  refine ⟨t₄, sent, fun k => ?_, h₄, ?_, hbytes.trans (hbuffer (by simp)).symm, hdata⟩
  · rw [run_succ _ hstep₁, run_succ _ hstep₂, run_succ _ hstep₃, run_succ _ hstep₄]
  · simp [hops₄, hops₃, hops₂, hops₁, h₃.config]

/-- The request in a parameterised phase with a delay of 0. -/
theorem Cycling.runsPhase (p : Phase) (next : StateCode)
    (hrow : (Instr.ofState c, p, next) ∈ [(Instr.statePowerOn, Phase.powerOn, StateCode.postPowerOn),
      (.statePostPowerOn, .postPowerOn, .refreshScreen), (.stateRefreshScreen, .refreshScreen, .powerOff),
      (.statePowerOff, .powerOff, .deepSleep), (.stateDeepSleep, .deepSleep, .idle)])
    (h : Cycling cfg c (2 :: rest) s) (hbusy : cfg.busyPresent = false) (hdelay : ∀ p, cfg.phaseDelayMs.get p = 0) :
    ∃ t, step s = .next t ∧ Cycling cfg next rest t ∧ t.ops = s.ops ++ cfg.phaseOps.get p ∧
      wholeBuffer t = wholeBuffer s := by
  obtain ⟨t, _, hstep, rfl, hcycling, hops, hbuffer⟩ :=
    h.advance hbusy fun v => completes_phase hrow (h.dispatchStart v) (hdelay p)
  refine ⟨t, hstep, hcycling, hops, hbuffer ?_⟩
  rintro rfl
  simp [Instr.ofState] at hrow

/-- The next five requests run the parameterised phases and lead the cycle to IDLE. -/
theorem Cycling.runsPhases (h : Cycling cfg .powerOn (2 :: 2 :: 2 :: 2 :: 2 :: rest) s) (hbusy : cfg.busyPresent = false)
    (hdelay : ∀ p, cfg.phaseDelayMs.get p = 0) :
    ∃ t, (∀ k, core.run (k + 5) s = core.run k t) ∧ Cycling cfg .idle rest t ∧
      t.ops = s.ops ++ cfg.phaseOps.powerOn ++ cfg.phaseOps.postPowerOn ++ cfg.phaseOps.refreshScreen ++
        cfg.phaseOps.powerOff ++ cfg.phaseOps.deepSleep ∧
      wholeBuffer t = wholeBuffer s := by
  obtain ⟨t₁, hstep₁, h₁, hops₁, hbuffer₁⟩ :=
    Cycling.runsPhase .powerOn .postPowerOn (by simp [Instr.ofState]) h hbusy hdelay
  obtain ⟨t₂, hstep₂, h₂, hops₂, hbuffer₂⟩ :=
    Cycling.runsPhase .postPowerOn .refreshScreen (by simp [Instr.ofState]) h₁ hbusy hdelay
  obtain ⟨t₃, hstep₃, h₃, hops₃, hbuffer₃⟩ :=
    Cycling.runsPhase .refreshScreen .powerOff (by simp [Instr.ofState]) h₂ hbusy hdelay
  obtain ⟨t₄, hstep₄, h₄, hops₄, hbuffer₄⟩ :=
    Cycling.runsPhase .powerOff .deepSleep (by simp [Instr.ofState]) h₃ hbusy hdelay
  obtain ⟨t₅, hstep₅, h₅, hops₅, hbuffer₅⟩ :=
    Cycling.runsPhase .deepSleep .idle (by simp [Instr.ofState]) h₄ hbusy hdelay
  refine ⟨t₅, fun k => ?_, h₅, ?_, ?_⟩
  · rw [run_succ _ hstep₁, run_succ _ hstep₂, run_succ _ hstep₃, run_succ _ hstep₄, run_succ _ hstep₅]
  · rw [hops₅, hops₄, hops₃, hops₂, hops₁]
    rfl
  · rw [hbuffer₅, hbuffer₄, hbuffer₃, hbuffer₂, hbuffer₁]

end

end Sys2Proof.Machine

namespace Sys2Proof

open Machine Safety

/-- Settles O59: BEGIN_CYCLE starts the cycle, four ADVANCE requests send the commands and the buffer, five run the phases
and one ends the cycle in IDLE. -/
theorem cycleCompletesInTenAdvances : Obligations.CycleCompletesInTenAdvances := by
  unfold Obligations.CycleCompletesInTenAdvances
  intro s prog later hinv hrun hstate hfailed hreset hscript hleft hline hbusy hdelay hprog hnoWaits hlegal hdone hrequests
  obtain ⟨a, hbegin, hcycle, hops⟩ :=
    beginCycle_cycling hinv hrun hstate hfailed hreset hscript hleft hlegal hdone hrequests
  obtain ⟨b, sent, hsending, hpower, hopsSent, hbytes, hdata⟩ :=
    Cycling.sends hcycle hbusy hline hinv.configLegal hprog hnoWaits
  obtain ⟨c, hphases, hidle, hopsPhases, hbufferPhases⟩ := Cycling.runsPhases hpower hbusy hdelay
  obtain ⟨t, hlast, hstate', hactive, hfailed', hcursor, hresponse, hrequests', hopsLast, hbuffer⟩ :=
    Cycling.ends hidle hbusy
  refine ⟨t, sent, ?_, hstate', hactive, hfailed', hcursor, hresponse, hrequests', ?_,
    hbytes.trans (hbuffer.trans hbufferPhases).symm, hdata⟩
  · rw [run_succ 10 hbegin, hsending 6, hphases 1, run_succ 0 hlast]
    rfl
  · rw [hopsLast, hopsPhases, hopsSent, hops]

end Sys2Proof
end

