-- ==== Sys2Proof/Proofs/ResetPulse.lean ====
section
/-! PROOF. ResetStep invoked again and again (O24): what one invocation leaves, and where flag and counter stand after
`n` of them. -/

namespace Sys2Proof.Machine

open Sys2Proof.Safety

theorem resetStep_cfg (s : State) : (resetStep s).2.cfg = s.cfg := by
  rcases resetStep_cases s with ⟨-, e⟩ | ⟨-, -, e⟩ | ⟨-, -, e⟩ <;> rw [e]

/-- With a reset line an invocation flips the flag, drives the line to the flag's new level and counts the high halves;
it is complete when that leaves the flag set and the counter at C (R161). -/
theorem resetStep_of_present {s : State} (hpresent : s.cfg.resetPresent = true) :
    (resetStep s).2.expectLow = !s.expectLow ∧
      (resetStep s).2.rstQ = (resetStep s).2.expectLow ∧
      (resetStep s).2.resetCount = (if s.expectLow then s.resetCount else s.resetCount + 1) ∧
      ((resetStep s).1 = true ↔
        (resetStep s).2.expectLow = true ∧ (resetStep s).2.resetCount = s.cfg.resetCycles) := by
  rcases resetStep_cases s with ⟨habsent, -⟩ | ⟨-, hflag, e⟩ | ⟨-, hflag, e⟩
  · cases hpresent.symm.trans habsent
  · simp [e, hflag]
  · simp [e, hflag]

theorem resetSteps_cfg (n : Nat) (s : State) : (resetSteps n s).2.cfg = s.cfg := by
  induction n with
  | zero => rfl
  | succ n ih => exact (resetStep_cfg _).trans ih

section

variable {s : State} (hpresent : s.cfg.resetPresent = true) (hlow : s.expectLow = true)

include hpresent

theorem resetSteps_present (n : Nat) : (resetSteps n s).2.cfg.resetPresent = true :=
  (resetSteps_cfg n s).symm ▸ hpresent

include hlow

theorem resetSteps_expectLow (n : Nat) : (resetSteps n s).2.expectLow = decide (n % 2 = 0) := by
  induction n with
  | zero => exact hlow
  | succ n ih =>
    obtain ⟨hflip, -⟩ := resetStep_of_present (resetSteps_present hpresent n)
    refine hflip.trans ?_
    rw [ih, ← decide_not, decide_eq_decide]
    omega

/-- Every second invocation counts. -/
theorem resetSteps_resetCount (hzero : s.resetCount = 0) (n : Nat) :
    (resetSteps n s).2.resetCount = BitVec.ofNat 8 (n / 2) := by
  induction n with
  | zero => exact hzero
  | succ n ih =>
    obtain ⟨-, -, hcount, -⟩ := resetStep_of_present (resetSteps_present hpresent n)
    refine hcount.trans ?_
    rw [resetSteps_expectLow hpresent hlow, ih]
    by_cases heven : n % 2 = 0
    · rw [if_pos (decide_eq_true heven), show (n + 1) / 2 = n / 2 by omega]
    · rw [if_neg (by simpa using heven), show (n + 1) / 2 = n / 2 + 1 by omega]
      exact (BitVec.ofNat_add _ _).symm

end

end Sys2Proof.Machine

namespace Sys2Proof

open Machine Safety

/-- Settles O24: flag and counter by induction on the invocations; one is complete when it leaves the flag set and the
counter at C, that is at an even n with n / 2 = C. -/
theorem resetPulseCompletesAtTwiceTheCycleCount : Obligations.ResetPulseCompletesAtTwiceTheCycleCount := by
  unfold Obligations.ResetPulseCompletesAtTwiceTheCycleCount
  intro s hlow hzero _
  constructor
  · intro hpresent n hpos hle
    have hflag := resetSteps_expectLow hpresent hlow n
    have hcount : (resetSteps n s).2.resetCount.toNat = n / 2 := by
      rw [resetSteps_resetCount hpresent hlow hzero, BitVec.toNat_ofNat]
      omega
    obtain ⟨m, rfl⟩ := Nat.exists_eq_add_of_le' hpos
    obtain ⟨-, hline, -, hdone⟩ := resetStep_of_present (resetSteps_present hpresent m)
    refine ⟨hdone.trans ?_, hflag, hline.trans hflag, hcount⟩
    change (resetSteps (m + 1) s).2.expectLow = true ∧ (resetSteps (m + 1) s).2.resetCount = _ ↔ _
    rw [hflag, decide_eq_true_iff, resetSteps_cfg, ← BitVec.toNat_inj, hcount]
    omega
  · intro habsent
    rcases resetStep_cases s with ⟨-, e⟩ | ⟨hpresent, -⟩ | ⟨hpresent, -⟩
    · exact e
    · cases habsent.symm.trans hpresent
    · cases habsent.symm.trans hpresent

end Sys2Proof
end

