-- ==== Sys2Proof/Proofs/Interpreter.lean ====
section
/-! PROOF. The init-sequence interpreter (O28, O31, O33, O34, O36, O37): a command entry under each transport, a DELAY
on a stopped clock, one turn of the loop, the programs that are interpreted to their end, and the malformed tails. -/

namespace Sys2Proof.Machine

open Sys2Proof.Safety

/-! ### Command entries -/

/-- Emit with a transport that completes this operation and `left` more. -/
theorem emit_of_left (op : TransportOp) {s : State} {left : Nat} (hrun : s.hang = none)
    (hleft : s.transportLeft = some (left + 1)) :
    emit op s = { s with transportLeft := some left, trace := s.trace ++ [.emit op] } := by
  simp [emit, hrun, hleft, record]

/-- Emit with a transport that completes no more operations (R287). -/
theorem emit_of_stopped (op : TransportOp) {s : State} (hrun : s.hang = none) (hzero : s.transportLeft = some 0) :
    emit op s = { s with hang := some .transport, trace := s.trace ++ [.emit op] } := by
  simp [emit, hrun, hzero, record]

/-- The over-length check of R183. -/
theorem overLength_iff (s : State) (n : Nat) : s.overLength n = true ↔ s.initLen < s.idx.toNat + 2 + n :=
  decide_eq_true_iff

theorem commandEntry_of_overLength (c : Byte) {n : BitVec 7} {s : State} (hover : s.overLength n.toNat = true) :
    commandEntry c n s = (false, raiseFault .initOverlength s.idx s) :=
  if_pos hover

/-- In range a command entry is its COMMAND, and `i` moves on unless the transport holds that open (R184). -/
theorem commandEntry_of_emit {c : Byte} {n : BitVec 7} {s u : State} (hin : ¬ s.overLength n.toNat = true)
    (hemit : emit (.command c (s.payload n.toNat)) (recordAll (payloadReads n.toNat s) s) = u) :
    commandEntry c n s =
      if u.hang.isSome then (false, u) else (true, { u with idx := u.idx + 2 + n.setWidth 16 }) :=
  hemit ▸ if_neg hin

theorem payload_eq (s : State) (n : Nat) : s.payload n = (s.cfg.initSeq.drop (s.idx.toNat + 2)).take n := by
  rw [State.payload, State.romRest, List.drop_drop]

/-! ### A DELAY on a stopped clock -/

theorem op?_clockSamples (samples : List Word) : (samples.map Event.clock).filterMap Event.op? = [] := by
  simp [Event.op?, List.filterMap_map, Function.comp_def]

/-- SleepMs does not end where no value that the clock still shows has elapsed (R187, R287). -/
theorem sleepLoop_of_stopped {ts : Word} {t : Nat} {script : List Word} {s : State} (hscript : s.nowScript = script)
    (hstill : ∀ v ∈ s.nowMs :: script, elapsed ts v t = false) : (sleepLoop ts t script s).1 = false := by
  have hsample : elapsed ts (now s).1 t = false := hstill _ (hscript ▸ now_mem s)
  induction script generalizing s with
  | nil => simp [sleepLoop, hsample]
  | cons v rest ih =>
    have hnext : ∀ u ∈ (now s).2.nowMs :: rest, elapsed ts u t = false := by
      rw [now_nowMs]
      exact List.forall_mem_cons.2 ⟨hsample, fun u hu => hstill u (by simp [hu])⟩
    have hrest : (now s).2.nowScript = rest := by rw [now_nowScript, hscript, List.tail_cons]
    simp only [sleepLoop, hsample, Bool.false_eq_true, if_false]
    exact ih hrest hnext (hnext _ (hrest ▸ now_mem _))

/-- A DELAY that is not of 0 ms does not end when no sample after its start sample has elapsed: the clock may stand
still at the start sample itself, which has not elapsed either (R187, R287). -/
theorem entryDelay_of_stopped {t : Byte} {s : State} (ht : t ≠ 0)
    (hstill : ∀ v ∈ (now s).2.nowScript, elapsed (now s).1 v t.toNat = false) : (entryDelay t s).1 = false := by
  have hstart : elapsed (now s).1 (now s).1 t.toNat = false := by
    have hpos : t.toNat ≠ 0 := fun h => ht (BitVec.eq_of_toNat_eq h)
    rw [← Bool.not_eq_true, elapsed_iff, BitVec.sub_self]
    exact fun h => hpos (Nat.le_zero.1 h)
  have hslept : (sleepMs t.toNat s).1 = false :=
    sleepLoop_of_stopped (s := { (now s).2 with sleepStart := (now s).1 }) rfl
      (List.forall_mem_cons.2 ⟨by rw [← hstart]; exact congrArg (elapsed _ · _) (now_nowMs s), hstill⟩)
  simp [entryDelay, hslept]

/-! ### One turn of the loop -/

/-- With fewer than two bytes left before the end, a turn of the loop raises INIT_TRUNCATED (R182). -/
theorem interpretLoop_truncated {s : State} (fuel : Nat) (hnotEnd : s.idx.toNat ≠ s.initLen)
    (hshort : s.romRest.length < 2) :
    interpretLoop (fuel + 1) s = (false, raiseFault .initTruncated s.idx s) := by
  rcases entryHere_cases s with ⟨hnone, -⟩ | ⟨e, -, hheader⟩
  · rw [interpretLoop, if_neg hnotEnd, hnone]
  · rw [romRest_length] at hshort
    omega

/-- The header's reads, as they stand in the trace (R181). -/
theorem recordAll_headerReads {s : State} {c x : Byte} {rest : List Byte} (h : s.romRest = c :: x :: rest) :
    recordAll (headerReads s) s =
      { s with trace := s.trace ++ [.romRead s.idx.toNat c, .romRead (s.idx.toNat + 1) x] } := by
  rw [headerReads, h]
  rfl

/-! ### Programs and their bytes -/

theorem romRest_cases (s : State) : s.romRest.length < 2 ∨ ∃ c x rest, s.romRest = c :: x :: rest := by
  match s.romRest with
  | [] => exact .inl (by simp)
  | [_] => exact .inl (by simp)
  | c :: x :: rest => exact .inr ⟨c, x, rest, rfl⟩

theorem initLen_of_header {s : State} {c x : Byte} {rest : List Byte} (h : s.romRest = c :: x :: rest) :
    s.initLen = s.idx.toNat + 2 + rest.length := by
  have hlen := romRest_length s
  rw [h, List.length_cons, List.length_cons] at hlen
  omega

/-- A command after which the loop goes on is in range, and moves `i` by 2 + n (R183, R184). -/
theorem commandEntry_moves {c : Byte} {n : BitVec 7} {s t : State} (hshort : s.initLen ≤ 65535)
    (hgoOn : commandEntry c n s = (true, t)) :
    s.idx.toNat + 2 + n.toNat ≤ s.initLen ∧ t.idx.toNat = s.idx.toNat + 2 + n.toNat := by
  by_cases hover : s.overLength n.toNat = true
  · cases (commandEntry_of_overLength c hover).symm.trans hgoOn
  · have hin : s.idx.toNat + 2 + n.toNat ≤ s.initLen := by rwa [overLength_iff, not_lt] at hover
    rw [commandEntry_of_emit hover rfl] at hgoOn
    split at hgoOn
    · cases hgoOn
    · cases hgoOn
      exact ⟨hin, by simpa using idx_add hin hshort⟩

/-- An entry after which the loop goes on moves `i` by its length (R83, R184, R186). -/
theorem runEntry_moves {e : Entry} {s t : State} (hheader : s.idx.toNat + 2 ≤ s.initLen)
    (hshort : s.initLen ≤ 65535) (hgoOn : runEntry e s = (true, t)) :
    s.idx.toNat + 2 + e.count ≤ s.initLen ∧ t.idx.toNat = s.idx.toNat + 2 + e.count := by
  cases e with
  | cmd c n => exact commandEntry_moves hshort hgoOn
  | cmdB7 c n => exact commandEntry_moves hshort hgoOn
  | delay d =>
    obtain ⟨_, _, _, _, e | e⟩ := entryDelay_cases d s
    · cases e.symm.trans hgoOn
      exact ⟨hheader, idx_after_header hheader hshort⟩
    · cases e.symm.trans hgoOn

end Sys2Proof.Machine

namespace Sys2Proof

/-- Byte 1 of a CMD is what the assembler writes for its count (R80, R88). -/
theorem countByte_cmd {x : Byte} (hbit : x.getLsbD 7 = false) : BitVec.ofNat 8 (x.extractLsb' 0 7).toNat = x :=
  (by decide : ∀ x : Byte, x.getLsbD 7 = false → BitVec.ofNat 8 (x.extractLsb' 0 7).toNat = x) x hbit

/-- Byte 1 of a CMD.B7 is what the assembler writes for its count, which is at most 126 (R82, R88). -/
theorem countByte_cmdB7 {x : Byte} (hmarker : x ≠ 0xFF#8) (hbit : x.getLsbD 7 = true) :
    0x80#8 ||| BitVec.ofNat 8 (x.extractLsb' 0 7).toNat = x ∧ (x.extractLsb' 0 7).toNat ≤ 126 :=
  (by decide : ∀ x : Byte, x ≠ 0xFF#8 → x.getLsbD 7 = true →
    0x80#8 ||| BitVec.ofNat 8 (x.extractLsb' 0 7).toNat = x ∧ (x.extractLsb' 0 7).toNat ≤ 126) x hmarker hbit

/-- Every header with the data bytes that it declares is the assembler's output for one statement (R82, R88). -/
theorem exists_assemble_entry (c x : Byte) {data : List Byte} (hcount : data.length = (decodeEntry c x).count) :
    ∃ a, assemble a = some (c :: x :: data) := by
  rcases decodeEntry_cases c x with ⟨rfl, e⟩ | ⟨-, hbit, e⟩ | ⟨hmarker, hbit, e⟩ <;> rw [e, Entry.count] at hcount
  · obtain rfl : data = [] := List.eq_nil_of_length_eq_zero hcount
    have hwf : (Asm.delay c.toNat).wf = true := decide_eq_true (by omega)
    exact ⟨.delay c.toNat, by rw [assemble, if_pos hwf]; simp [assembleDelay, delayMarker]⟩
  · have hwf : (Asm.cmd c data).wf = true := decide_eq_true (by omega)
    exact ⟨.cmd c data, by rw [assemble, if_pos hwf, hcount, countByte_cmd hbit]⟩
  · obtain ⟨hbyte, hmax⟩ := countByte_cmdB7 hmarker hbit
    have hwf : (Asm.cmdB7 c data).wf = true := decide_eq_true (hcount.trans_le hmax)
    exact ⟨.cmdB7 c data, by rw [assemble, if_pos hwf, hcount, hbyte]⟩

theorem assembleAll_cons {a : Asm} {prog : List Asm} {first more : List Byte} (hfirst : assemble a = some first)
    (hmore : assembleAll prog = some more) : assembleAll (a :: prog) = some (first ++ more) := by
  simp [assembleAll, hfirst, hmore]

end Sys2Proof

namespace Sys2Proof.Machine

open Sys2Proof.Safety

theorem runEntry_cfg {e : Entry} {s t : State} {es : List Event} {goOn : Bool}
    (hrun : runEntry e (recordAll es s) = (goOn, t)) : t.cfg = s.cfg :=
  (congrArg (fun r => r.2.cfg) hrun).symm.trans (keeps_runEntry e (recordAll es s)).cfg

/-- What is left of the ROM after an entry after which the loop goes on: what follows its data bytes (R83, R181). -/
theorem romRest_after_entry {s t : State} {c x : Byte} {rest : List Byte} (hshort : s.initLen ≤ 65535)
    (hrom : s.romRest = c :: x :: rest)
    (hrun : runEntry (decodeEntry c x) (recordAll (headerReads s) s) = (true, t)) :
    (decodeEntry c x).count ≤ rest.length ∧ t.romRest = rest.drop (decodeEntry c x).count := by
  have hlen := initLen_of_header hrom
  obtain ⟨hin, hidx⟩ : s.idx.toNat + 2 + (decodeEntry c x).count ≤ s.initLen ∧
      t.idx.toNat = s.idx.toNat + 2 + (decodeEntry c x).count :=
    runEntry_moves (s := recordAll (headerReads s) s) (by change s.idx.toNat + 2 ≤ s.initLen; omega) hshort hrun
  refine ⟨by omega, ?_⟩
  calc t.romRest = (s.romRest.drop 2).drop (decodeEntry c x).count := by
        rw [State.romRest, State.romRest, List.drop_drop, List.drop_drop, hidx, runEntry_cfg hrun, Nat.add_assoc]
    _ = rest.drop (decodeEntry c x).count := by rw [hrom]; rfl

/-- Where the loop reaches the end, what was left of the ROM is a program's bytes: a statement for each turn (R189). -/
theorem exists_assembleAll_of_interpretLoop (fuel : Nat) {s : State} (hshort : s.initLen ≤ 65535)
    (hok : (interpretLoop fuel s).1 = true) : ∃ prog, assembleAll prog = some s.romRest := by
  have hdone (s : State) (hend : s.idx.toNat = s.initLen) : ∃ prog, assembleAll prog = some s.romRest :=
    ⟨[], congrArg some (List.eq_nil_of_length_eq_zero (by rw [romRest_length, hend, Nat.sub_self])).symm⟩
  induction fuel generalizing s with
  | zero => exact hdone s (of_decide_eq_true hok)
  | succ fuel ih =>
    by_cases hend : s.idx.toNat = s.initLen
    · exact hdone s hend
    rcases romRest_cases s with hleft | ⟨c, x, rest, hrom⟩
    · cases (congrArg Prod.fst (interpretLoop_truncated fuel hend hleft)).symm.trans hok
    obtain ⟨goOn, t, hrun⟩ : ∃ goOn t, runEntry (decodeEntry c x) (recordAll (headerReads s) s) = (goOn, t) :=
      ⟨_, _, rfl⟩
    rw [interpretLoop_header fuel hrom hrun] at hok
    cases goOn with
    | false => cases hok
    | true =>
      obtain ⟨hin, hrest⟩ := romRest_after_entry hshort hrom hrun
      obtain ⟨prog, hprog⟩ := ih (by rw [State.initLen, runEntry_cfg hrun]; exact hshort) hok
      obtain ⟨a, ha⟩ := exists_assemble_entry c x (List.length_take_of_le hin)
      refine ⟨a :: prog, (assembleAll_cons ha hprog).trans ?_⟩
      rw [hrest, hrom, List.cons_append, List.cons_append, List.take_append_drop]

/-- The interpreter does not move the Driver State (R132). -/
theorem interpretLoop_state (fuel : Nat) (s : State) : (interpretLoop fuel s).2.state = s.state := by
  induction fuel generalizing s with
  | zero => rfl
  | succ fuel ih =>
    by_cases hend : s.idx.toNat = s.initLen
    · rw [interpretLoop_of_end _ hend]
    rcases entryHere_cases s with ⟨hnone, -⟩ | ⟨e, hhere, -⟩
    · rw [interpretLoop, if_neg hend, hnone]
      rfl
    · have hentry := (keepsControl_runEntry e (recordAll (headerReads s) s)).state
      rw [interpretLoop_entry fuel hend hhere]
      split
      · exact (ih _).trans hentry
      · exact hentry

/-! ### Malformed tails -/

theorem raiseFault_ops (cause : FaultCause) (info : BitVec 16) (s : State) : (raiseFault cause info s).ops = s.ops :=
  respond_ops _ _

theorem recordAll_ops (es : List Event) (s : State) : (recordAll es s).ops = s.ops ++ es.filterMap Event.op? :=
  ops_of_trace rfl

/-- What stands after a program where the sequence is malformed, and the failure's cause: a lone byte, or a command
header that declares more data bytes than follow (R182, R183). -/
inductive MalformedTail : List Byte → FaultCause → Prop where
  | loneByte (b : Byte) : MalformedTail [b] .initTruncated
  | overLong (c x : Byte) (rest : List Byte) (hx : x ≠ 0xFF#8) (hlong : rest.length < (x &&& 0x7F#8).toNat) :
      MalformedTail (c :: x :: rest) .initOverlength

/-- At a malformed tail the loop raises its failure, with the position it stands at (R182, R183, R190). -/
theorem MalformedTail.fails {tail : List Byte} {cause : FaultCause} {fuel : Nat} {s : State}
    (h : MalformedTail tail cause) (hstands : StandsAt tail [] fuel s) :
    ∃ reads, reads.filterMap Event.op? = [] ∧
      interpretLoop fuel s = (false, raiseFault cause s.idx (recordAll reads s)) := by
  have hrom : s.romRest = tail := by rw [hstands.rom, List.append_nil]
  cases h with
  | loneByte b =>
    obtain ⟨fuel, rfl⟩ := hstands.exists_fuel (List.cons_ne_nil _ _)
    have hposition := hstands.position (List.cons_ne_nil _ _)
    refine ⟨[], rfl, (interpretLoop_truncated fuel ?_ (by simp [hrom])).trans ?_⟩
    · rw [List.length_singleton] at hposition
      omega
    · simp [recordAll]
  | overLong c x rest hx hlong =>
    obtain ⟨fuel, rfl⟩ := hstands.exists_fuel (List.cons_ne_nil _ _)
    obtain ⟨n, hentry, hn⟩ := decodeEntry_command c hx
    have hover : (recordAll (headerReads s) s).overLength n.toNat = true := by
      rw [overLength_iff]
      show s.initLen < s.idx.toNat + 2 + n.toNat
      rw [initLen_of_header hrom, hn]
      omega
    have hrun : runEntry (decodeEntry c x) (recordAll (headerReads s) s) = (false, raiseFault .initOverlength s.idx
        (recordAll (headerReads s) s)) := by
      refine Eq.trans ?_ (commandEntry_of_overLength c hover)
      rcases hentry with e | e <;> rw [e] <;> rfl
    exact ⟨headerReads s, op?_romReads _ _, interpretLoop_header fuel hrom hrun⟩

end Sys2Proof.Machine

namespace Sys2Proof

open Machine Safety

/-- Settles O31: the exact COMMAND of `emit` under each transport, or the failure of the over-length check. -/
theorem commandEntries : Obligations.CommandEntries := by
  unfold Obligations.CommandEntries
  intro s i c n hi payload trace hpayload htrace
  have hexec : exec i s = .next (commandEntry c n s).2 := by rcases hi with rfl | rfl <;> rfl
  rw [← payload_eq] at hpayload
  subst hpayload
  rw [← List.append_assoc] at htrace
  subst htrace
  rw [hexec]
  refine ⟨fun hrun hfits => ?inRange, fun hlong => ?overLength⟩
  case inRange =>
    have hin : ¬ s.overLength n.toNat = true := by rw [overLength_iff]; exact hfits.not_gt
    refine ⟨fun hcompleting => ?_, fun left hleft => ?_, fun hstopped => ?_⟩
    · rw [commandEntry_of_emit hin (emit_of_completing _ hrun hcompleting)]
      simp [hrun, payloadReads]
    · rw [commandEntry_of_emit hin (emit_of_left _ hrun hleft)]
      simp [hrun, payloadReads]
    · rw [commandEntry_of_emit hin (emit_of_stopped _ hrun hstopped)]
      simp [payloadReads]
  case overLength =>
    rw [commandEntry_of_overLength c ((overLength_iff s _).2 hlong)]
    rfl

/-- Settles O33: a DELAY ends or is held open, and the samples to come, or a count of 0, say which. -/
theorem delayHangsWhenTheClockStops : Obligations.DelayHangsWhenTheClockStops := by
  unfold Obligations.DelayHangsWhenTheClockStops
  intro s t hrun
  have hexec : exec (.delay t) s = .next (entryDelay t s).2 := rfl
  obtain ⟨ts, v, script, samples, e | e⟩ := entryDelay_cases t s <;> rw [e] at hexec
  · have hissued := issued_of_events s (hang := s.hang) (idx := s.idx + 2) (sleepStart := ts) (nowMs := v)
      (nowScript := script) (op?_clockSamples samples)
    refine ⟨fun hstill ht => ?_, fun _ => ⟨_, hexec, hrun, rfl, ?_, hissued.registers⟩⟩
    · have hnot := entryDelay_of_stopped ht (by simpa using hstill)
      cases (congrArg Prod.fst e).symm.trans hnot
    · exact hissued.ops.trans (List.append_nil _)
  · have hissued := issued_of_events s (hang := some .sleep) (idx := s.idx) (sleepStart := ts) (nowMs := v)
      (nowScript := script) (op?_clockSamples samples)
    refine ⟨fun _ _ => ⟨_, hexec, rfl, rfl, ?_, rfl, hissued.registers⟩, ?_⟩
    · exact hissued.ops.trans (List.append_nil _)
    · rintro rfl
      cases (congrArg Prod.fst e).symm.trans (entryDelay_zero s)

/-- Settles O34: the header word decodes to the entry that the loop runs. -/
theorem interpreterRunsTheDecodedEntry : Obligations.InterpreterRunsTheDecodedEntry := by
  unfold Obligations.InterpreterRunsTheDecodedEntry
  intro s fuel hnotEnd
  refine ⟨fun c x rest i hrom hdecode => ?_, fun hshort => interpretLoop_truncated fuel hnotEnd hshort⟩
  obtain rfl : Instr.ofEntry (decodeEntry c x) = i := Except.ok.inj ((decode_header_append c x).symm.trans hdecode)
  rw [← recordAll_headerReads hrom]
  exact ⟨_, _, exec_ofEntry _ _, interpretLoop_header fuel hrom rfl⟩

/-- Settles O36: only an interpretation that is ok moves the state to TRANSFER_DATA. -/
theorem interpretedSequenceIsAProgram : Obligations.InterpretedSequenceIsAProgram := by
  unfold Obligations.InterpretedSequenceIsAProgram
  intro s t hstate hshort he hdone
  cases (execStateInitialise_eq s).symm.trans he
  by_cases hok : (interpret s).1 = true
  · exact exists_assembleAll_of_interpretLoop s.initLen (s := { s with idx := 0 }) hshort hok
  · have hkept : (interpret s).2.state = s.state := interpretLoop_state s.initLen { s with idx := 0 }
    rw [if_neg hok, hkept, hstate] at hdone
    exact absurd hdone (by decide)

/-- Settles O37: the program's bytes are consumed first, or a wait in them is held open; then the tail fails. -/
theorem malformedSequenceFaultsPrecisely : Obligations.MalformedSequenceFaultsPrecisely := by
  unfold Obligations.MalformedSequenceFaultsPrecisely
  intro s prog bytes tail cause hprog hshort hseq hrun hcompleting htail
  obtain ⟨fault, hmalformed, rfl⟩ : ∃ fault, MalformedTail tail fault ∧ fault.code = cause := by
    rcases htail with ⟨b, rfl, rfl⟩ | ⟨c, x, rest, rfl, hx, hlong, rfl⟩
    · exact ⟨_, .loneByte b, rfl⟩
    · exact ⟨_, .overLong c x rest hx hlong, rfl⟩
  have hstart : StandsAt bytes tail s.initLen { s with idx := 0 } :=
    standsAt_start hrun hcompleting hseq (by rwa [List.length_append])
  have hexec {t : State} (hinterpret : interpret s = (false, t)) : exec .stateInitialise s = .next t := by
    rw [exec, execStateInitialise, hinterpret]
    rfl
  rcases interprets_assembleAll hprog _ _ _ hstart with
    ⟨fuel, t, h⟩ | ⟨hwaits, t, ⟨part, hpart, hissued⟩, hheld, hends⟩
  · obtain ⟨reads, hreads, hfails⟩ :=
      hmalformed.fails (StandsAt.after (b := tail) (rest := []) { hstart with rom := by simpa using hstart.rom } h)
    have hregs := h.issued.registers
    have hops : (raiseFault fault t.idx (recordAll reads t)).ops = s.ops ++ commandsOf prog := by
      rw [raiseFault_ops, recordAll_ops, hreads, List.append_nil]
      exact h.issued.ops
    refine ⟨_, hexec (h.goesOn.trans hfails), fun _ => ?_, fun hheld => absurd h.running hheld, fun _ => h.running⟩
    exact ⟨hops, rfl, rfl, h.position.trans (Nat.zero_add _), rfl, rfl,
      hregs.state, hregs.deadline, hregs.waitIdle, hregs.cursor, hregs.expectLow, hregs.resetCount, hregs.rstQ,
      hregs.cfg, hregs.memory⟩
  · refine ⟨t, hexec hends, fun hnone => ?_, fun _ => ?_, fun hnoWaits => ?_⟩
    · cases hheld.symm.trans hnone
    · exact ⟨hheld, hissued.ops ▸ (List.prefix_append_right_inj s.ops).2 hpart,
        (sameRegisters_of_position s).trans hissued.registers⟩
    · rw [← List.not_any_eq_all_not, hwaits] at hnoWaits
      cases hnoWaits

/-- Settles O28: with L = 0 the loop is at its end at offset 0. -/
theorem emptySequenceGoesStraightOn : Obligations.EmptySequenceGoesStraightOn := by
  unfold Obligations.EmptySequenceGoesStraightOn
  intro s hempty
  have hlen : s.initLen = 0 := congrArg List.length hempty
  have hinterpret : interpret s = (true, { s with idx := 0 }) := interpretLoop_of_end s.initLen hlen.symm
  rw [exec, execStateInitialise, hinterpret]
  rfl

end Sys2Proof
end

