-- ==== Sys2Proof/Proofs/RepeatedTransfer.lean ====
section
/-! PROOF. The calls of one transfer (O39, O40): the call that finds the cursor at the buffer's end, and the calls made
again and again until one is done. Each call that is not done moves the cursor on by at least S, which bounds their
number; what they send is put together call by call. -/

namespace Sys2Proof.Machine

open Sys2Proof.Safety

/-! ### The call at the buffer's end -/

/-- At the buffer's end the loop of Transfer does nothing, whatever its fuel (R212). -/
theorem transferLoop_of_end (fuel : Nat) {s : State} (hend : s.cursor.toNat = s.bufferLen) :
    transferLoop fuel s = .next (true, s) := by
  cases fuel <;> rw [transferLoop, if_pos hend]

/-- With nothing staged a completed call ends without a flush (R216). -/
theorem transferClose_of_empty {s : State} (hstage : s.stage = []) (hrun : s.hang = none)
    (hcompleting : s.transportLeft = none) :
    transferClose s = { s with cursor := 0, trace := s.trace ++ [.emit .dataEnd] } := by
  rw [transferClose, if_pos hstage, emit_of_completing .dataEnd hrun hcompleting]
  exact andThen_of_running _ hrun

/-- The call that finds `cursor = N` only opens and ends its data phase (R218). -/
theorem transfer_of_end {s : State} (hrun : s.hang = none) (hcompleting : s.transportLeft = none)
    (hend : s.cursor.toNat = s.bufferLen) :
    transfer s =
      .next (true, { opened s none with cursor := 0, trace := (opened s none).trace ++ [.emit .dataEnd] }) := by
  have hopen : transferOpen s = opened s none := by
    have h := transferOpen_of_completing hrun
    rwa [show ({ s with transportLeft := none } : State) = s by rw [← hcompleting]] at h
  have hclose := transferClose_of_empty (s := opened s none) rfl hrun rfl
  have hcall : endCall (true, opened s none) =
      (true, { opened s none with cursor := 0, trace := (opened s none).trace ++ [.emit .dataEnd] }) := by
    rw [endCall, if_pos rfl, hclose]
    exact congrArg (·, _) (congrArg Option.isNone hrun)
  rw [transfer_of_opened (by rw [hopen]; exact hrun), hopen, transferLoop_of_end (s := opened s none) _ hend, ← hcall]
  rfl

/-! ### What the calls send together -/

/-- The command that starts a transfer, issued when the cursor is 0 and only then (R213). -/
def startOps (s : State) : List TransportOp :=
  if s.cursor = 0 then [.command s.cfg.transferStartCmd []] else []

theorem startOps_of_zero {s : State} (hzero : s.cursor = 0) :
    startOps s = [.command s.cfg.transferStartCmd []] := if_pos hzero

theorem startOps_of_past {s : State} (hpast : s.cursor ≠ 0) : startOps s = [] := if_neg hpast

/-- From `s` the buffer's bytes from the cursor up to `stop` have gone out, each once and in order, after the start
command where one is due and with no other command; `t` is the state after them. -/
structure SendsUpTo (s : State) (stop : Nat) (t : State) : Prop where
  running : t.hang = none
  completing : t.transportLeft = none
  keeps : Keeps s t
  issued : ∃ sent, t.ops = s.ops ++ (startOps s ++ sent) ∧ dataBytes sent = bufferBytes s s.cursor.toNat stop ∧
    ∀ op ∈ sent, ∀ c p, op ≠ .command c p

theorem Keeps.bufferBytes_eq {s t : State} (h : Keeps s t) (first last : Nat) :
    bufferBytes t first last = bufferBytes s first last := by
  have hdefault : t.fbDefault = s.fbDefault := by
    funext k
    simp [State.fbDefault, h.cfg, h.fbAllocated]
  simp [bufferBytes, State.fbByte, h.fb, hdefault]

theorem Keeps.bufferLen_eq {s t : State} (h : Keeps s t) : t.bufferLen = s.bufferLen := by
  rw [State.bufferLen, h.cfg, State.bufferLen]

theorem Keeps.stagingSize_eq {s t : State} (h : Keeps s t) : t.stagingSize = s.stagingSize := by
  rw [State.stagingSize, h.cfg, State.stagingSize]

/-- Calls that have left the cursor past 0 go on without a second start command, from where they stand. -/
theorem SendsUpTo.trans {s t u : State} {stop : Nat} (h : SendsUpTo s t.cursor.toNat t) (h' : SendsUpTo t stop u)
    (hpast : t.cursor ≠ 0) (hadvanced : s.cursor.toNat ≤ t.cursor.toNat) (hstop : t.cursor.toNat ≤ stop) :
    SendsUpTo s stop u := by
  obtain ⟨sent, hops, hbytes, hdata⟩ := h.issued
  obtain ⟨sent', hops', hbytes', hdata'⟩ := h'.issued
  refine ⟨h'.running, h'.completing, h.keeps.trans h'.keeps, sent ++ sent', ?_, ?_, fun op hop => ?_⟩
  · rw [hops', hops, startOps_of_past hpast]
    simp
  · rw [dataBytes_append, hbytes, hbytes', h.keeps.bufferBytes_eq, bufferBytes_append s hadvanced hstop]
  · exact (List.mem_append.1 hop).elim (hdata op) (hdata' op)

/-- One call's operations send the bytes of its blocks (R212, R217). -/
theorem sendsUpTo_of_blocks {s t : State} {stop : Nat} {blocks : List (List Byte)} {es : List Event}
    (hrun : t.hang = none) (hcompleting : t.transportLeft = none) (hkeeps : Keeps s t)
    (htrace : t.trace = s.trace ++ es)
    (hissued : es.filterMap Event.op? = openingOps s ++ (blocks.map .data ++ [.dataEnd]))
    (hbytes : blocks.flatten = bufferBytes s s.cursor.toNat stop) : SendsUpTo s stop t := by
  refine ⟨hrun, hcompleting, hkeeps, .dataBegin :: blocks.map .data ++ [.dataEnd], ?_,
    (dataBytes_dataPhase blocks).trans hbytes, ?_⟩
  · rw [ops_of_trace htrace, hissued, callOps_eq, startOps]
  · rintro _ hop c p rfl
    simp at hop

/-- A call's start sample and the clock values it meets are no part of what is kept. -/
theorem keeps_callInputs (s : State) (start : Word) (ticks : List Word) :
    Keeps s { s with t0 := start, nowScript := ticks } :=
  ⟨rfl, rfl, rfl, ⟨[], by simp⟩, .inl rfl⟩

/-- One call, with a start sample and clock values of its own: it is done at the buffer's end with the cursor back at 0,
or it moves the cursor on by at least S (R215, R216, R217). -/
theorem transfer_sends {s : State} (start : Word) (ticks : List Word) (hrun : s.hang = none)
    (hcompleting : s.transportLeft = none) (hstaging : s.cfg.stagingSize ≠ 0)
    (hbound : s.cursor.toNat ≤ s.bufferLen) :
    (∃ t, transfer { s with t0 := start, nowScript := ticks } = .next (true, t) ∧ t.cursor = 0 ∧
        SendsUpTo s s.bufferLen t) ∨
      ∃ t, transfer { s with t0 := start, nowScript := ticks } = .next (false, t) ∧
        s.cursor.toNat + s.stagingSize ≤ t.cursor.toNat ∧ t.cursor.toNat ≤ s.bufferLen ∧
        SendsUpTo s t.cursor.toNat t := by
  obtain ⟨b, t, blocks, es, hcall, -, htrace, -, hlast, hcompletes, hend⟩ :=
    transfer_cases (s := { s with t0 := start, nowScript := ticks }) hrun hstaging hbound
  obtain ⟨hopen, hleft⟩ := hcompletes hcompleting
  have hkeeps : Keeps s t := (keeps_callInputs s start ticks).trans (keeps_transfer hcall)
  cases hend with
  | finished _ _ cursor issued _ bytes _ _ _ =>
    exact .inl ⟨t, hcall, cursor, sendsUpTo_of_blocks hopen hleft hkeeps htrace issued bytes⟩
  | exceeded _ _ _ issued _ bytes _ advanced _ _ =>
    exact .inr ⟨t, hcall, advanced, hlast, sendsUpTo_of_blocks hopen hleft hkeeps htrace issued bytes⟩
  | held hang _ _ => cases hopen.symm.trans hang

/-- The calls of a transfer, from wherever it stands: those that are not done move the cursor on by at least S each, so
that one is done as soon as they would pass the buffer's end. -/
theorem transferCalls_sends (calls : List (Word × List Word)) {s : State} (hrun : s.hang = none)
    (hcompleting : s.transportLeft = none) (hstaging : s.cfg.stagingSize ≠ 0)
    (hbound : s.cursor.toNat ≤ s.bufferLen) :
    ∃ (finished : Bool) (t : State), transferCalls calls s = .next (finished, t) ∧
      (s.bufferLen < s.cursor.toNat + calls.length * s.stagingSize → finished = true) ∧
      (finished = true → t.cursor = 0 ∧ SendsUpTo s s.bufferLen t) := by
  induction calls generalizing s with
  | nil =>
    refine ⟨false, s, rfl, fun hpast => ?_, fun h => absurd h Bool.false_ne_true⟩
    rw [List.length_nil, Nat.zero_mul] at hpast
    omega
  | cons call rest ih =>
    obtain ⟨start, ticks⟩ := call
    rcases transfer_sends start ticks hrun hcompleting hstaging hbound with
      ⟨t, hcall, hcursor, hsends⟩ | ⟨t, hcall, hadvanced, hlast, hsends⟩
    · exact ⟨true, t, by rw [transferCalls, hcall]; rfl, fun _ => rfl, fun _ => ⟨hcursor, hsends⟩⟩
    · have hlen := hsends.keeps.bufferLen_eq
      have hsize := hsends.keeps.stagingSize_eq
      have hone : 0 < s.stagingSize := Nat.pos_of_ne_zero (BitVec.toNat_ne.1 hstaging)
      have hpast : t.cursor ≠ 0 := by
        intro hzero
        have hnat : t.cursor.toNat = 0 := congrArg BitVec.toNat hzero
        omega
      obtain ⟨finished, u, hrest, henough, hdone⟩ :=
        ih hsends.running hsends.completing (by rw [hsends.keeps.cfg]; exact hstaging) (by rw [hlen]; exact hlast)
      refine ⟨finished, u, by rw [transferCalls, hcall]; exact hrest, fun hend => henough ?_, fun h => ?_⟩
      · rw [List.length_cons, Nat.succ_mul] at hend
        rw [hlen, hsize]
        omega
      · obtain ⟨hcursor, hsends'⟩ := hdone h
        rw [hlen] at hsends'
        exact ⟨hcursor, hsends.trans hsends' hpast (by omega) hlast⟩

end Sys2Proof.Machine

namespace Sys2Proof

open Machine Safety

/-- Settles O39: the loop does nothing, so the call is its opening and its end. -/
theorem transferCallAtTheEndSendsNothing : Obligations.TransferCallAtTheEndSendsNothing := by
  unfold Obligations.TransferCallAtTheEndSendsNothing
  intro s hrun hcompleting hend hpast
  rw [exec, execStateTransferData_eq (transfer_of_end hrun hcompleting hend), if_pos rfl]
  have hopens : openingOps s = [.dataBegin] := if_neg hpast
  simp [opened, hopens, hcompleting, StateCode.code]

/-- Settles O40: `floor(N/S) + 1` steps of at least S from cursor 0 pass the buffer's end. -/
theorem transferSendsTheBufferExactlyOnce : Obligations.TransferSendsTheBufferExactlyOnce := by
  unfold Obligations.TransferSendsTheBufferExactlyOnce
  intro s calls hrun hcompleting hstaging _ hcursor
  have hone : 0 < s.stagingSize := Nat.pos_of_ne_zero (BitVec.toNat_ne.1 hstaging)
  have hzero : s.cursor.toNat = 0 := congrArg BitVec.toNat hcursor
  obtain ⟨finished, t, hcalls, henough, hdone⟩ :=
    transferCalls_sends calls hrun hcompleting hstaging (hzero ▸ Nat.zero_le _)
  refine ⟨finished, t, hcalls, fun hmany => henough ?_, fun h => ?_⟩
  · rw [hzero, Nat.zero_add]
    exact (Nat.div_lt_iff_lt_mul hone).1 hmany
  · obtain ⟨hback, hsends⟩ := hdone h
    obtain ⟨sent, hops, hbytes, hdata⟩ := hsends.issued
    rw [startOps_of_zero hcursor] at hops
    rw [hzero] at hbytes
    exact ⟨hback, hsends.running, hsends.keeps.fbRead, sent, hops, hbytes, hdata⟩

end Sys2Proof
end

