-- ==== Sys2Proof/Proofs/ColorQuantizer.lean ====
section
/-! PROOF. The color quantizer and the pixel packer (O41, O42, O43): the quantizer's two branches, each with the code it
answers, and what a pixel write makes of the one byte that holds its nibble. -/

namespace Sys2Proof.Machine

/-! ### The quantizer -/

section
variable {c : PanelConfig} {r g b : Byte}

/-- The gray branch (R242). -/
theorem quantize_of_gray
    (h : max r.toNat (max g.toNat b.toNat) < min r.toNat (min g.toNat b.toNat) + c.grayT.toNat) :
    quantize c r g b =
      if c.lumaMid.toNat < r.toNat + g.toNat + b.toNat then c.codeWhite else c.codeBlack := by
  have hgray : max r.toNat (max g.toNat b.toNat) - min r.toNat (min g.toNat b.toNat) < c.grayT.toNat := by omega
  exact if_pos hgray

/-- The color branch, by which channels are on (R242, R243). -/
theorem quantize_of_color {rOn gOn bOn : Bool}
    (h : min r.toNat (min g.toNat b.toNat) + c.grayT.toNat ≤ max r.toNat (max g.toNat b.toNat))
    (hr : decide (c.onT < r) = rOn) (hg : decide (c.onT < g) = gOn) (hb : decide (c.onT < b) = bOn) :
    quantize c r g b = cornerCode c rOn gOn bOn := by
  have hcolor : ¬ max r.toNat (max g.toNat b.toNat) - min r.toNat (min g.toNat b.toNat) < c.grayT.toNat := by omega
  rw [← hr, ← hg, ← hb]
  exact if_neg hcolor

end

/-- A channel at ON_T or below is off. -/
theorem channel_off {onT channel : Byte} (h : channel ≤ onT) : decide (onT < channel) = false :=
  decide_eq_false (BitVec.not_lt.2 h)

theorem cornerCode_mem_paletteCodes (c : PanelConfig) (rOn gOn bOn : Bool) :
    cornerCode c rOn gOn bOn ∈ paletteCodes c := by
  cases rOn <;> cases gOn <;> cases bOn <;> simp [cornerCode, paletteCodes]

theorem quantize_mem_paletteCodes (c : PanelConfig) (r g b : Byte) : quantize c r g b ∈ paletteCodes c := by
  rcases Nat.lt_or_ge (max r.toNat (max g.toNat b.toNat)) (min r.toNat (min g.toNat b.toNat) + c.grayT.toNat)
    with hgray | hcolor
  · rw [quantize_of_gray hgray]
    split <;> simp [paletteCodes]
  · rw [quantize_of_color hcolor rfl rfl rfl]
    exact cornerCode_mem_paletteCodes c _ _ _

/-- The largest channel value is on unless ON_T is that value. -/
theorem channel_max_on {onT : Byte} (h : onT ≠ 255) : decide (onT < 255) = true := by
  have hne : onT.toNat ≠ (255 : Byte).toNat := BitVec.toNat_ne.1 h
  exact decide_eq_true (BitVec.lt_def.2 (Nat.lt_of_le_of_ne (Nat.le_of_lt_succ onT.isLt) hne))

/-- A channel value of 0 is off. -/
theorem channel_zero_off (onT : Byte) : decide (onT < 0) = false :=
  decide_eq_false BitVec.not_lt_zero

/-! ### The pixel packer -/

/-- A code zero-extended to a byte lies in the low nibble. -/
theorem extractLsb'_code (code : BitVec 3) :
    (code.setWidth 8).extractLsb' 0 4 = code.setWidth 4 ∧ (code.setWidth 8).extractLsb' 4 4 = 0#4 := by
  revert code
  decide

/-- Shifted by a nibble it lies in the high one. -/
theorem extractLsb'_code_shiftLeft (code : BitVec 3) :
    (code.setWidth 8 <<< 4).extractLsb' 4 4 = code.setWidth 4 ∧
      (code.setWidth 8 <<< 4).extractLsb' 0 4 = 0#4 := by
  revert code
  decide

/-- For an even index the code stands in the high nibble and the low one is kept (R67). -/
theorem packNibble_of_even {idx : Nat} (old : Byte) (code : BitVec 3) (h : idx % 2 = 0) :
    (packNibble idx old code).extractLsb' 4 4 = code.setWidth 4 ∧
      (packNibble idx old code).extractLsb' 0 4 = old.extractLsb' 0 4 := by
  obtain ⟨hhigh, hlow⟩ := extractLsb'_code_shiftLeft code
  have hpack : packNibble idx old code = old &&& 0x0F#8 ||| code.setWidth 8 <<< 4 := if_pos h
  have hmaskHigh : (0x0F#8).extractLsb' 4 4 = 0#4 := rfl
  have hmaskLow : (0x0F#8).extractLsb' 0 4 = BitVec.allOnes 4 := rfl
  simp only [hpack, BitVec.extractLsb'_or, BitVec.extractLsb'_and]
  constructor
  · rw [hmaskHigh, hhigh, BitVec.and_zero, BitVec.zero_or]
  · rw [hmaskLow, hlow, BitVec.and_allOnes, BitVec.or_zero]

/-- For an odd index the code stands in the low nibble and the high one is kept (R67). -/
theorem packNibble_of_odd {idx : Nat} (old : Byte) (code : BitVec 3) (h : idx % 2 = 1) :
    (packNibble idx old code).extractLsb' 0 4 = code.setWidth 4 ∧
      (packNibble idx old code).extractLsb' 4 4 = old.extractLsb' 4 4 := by
  obtain ⟨hlow, hhigh⟩ := extractLsb'_code code
  have hpack : packNibble idx old code = old &&& 0xF0#8 ||| code.setWidth 8 := if_neg (by omega)
  have hmaskHigh : (0xF0#8).extractLsb' 4 4 = BitVec.allOnes 4 := rfl
  have hmaskLow : (0xF0#8).extractLsb' 0 4 = 0#4 := rfl
  simp only [hpack, BitVec.extractLsb'_or, BitVec.extractLsb'_and]
  constructor
  · rw [hmaskLow, hlow, BitVec.and_zero, BitVec.zero_or]
  · rw [hmaskHigh, hhigh, BitVec.and_allOnes, BitVec.or_zero]

/-! ### The pixel port -/

section
variable {s : State} {x y : Word} (r g b : Byte) (hport : s.cfg.quantPresent = true)
include hport

theorem producerWrite_pixel_of_out (h : pixelIndex s.cfg x y = none) :
    producerWrite (.pixel x y r g b) s = .next s := by
  simp [producerWrite, hport, writePixel, h]

/-- A pixel write in bounds reads its byte and stores it with the nibble replaced (R250). -/
theorem producerWrite_pixel_of_in {idx : Nat} (h : pixelIndex s.cfg x y = some idx) :
    producerWrite (.pixel x y r g b) s =
      storeByte (idx / 2) (packNibble idx (s.fbByte (idx / 2)) (quantize s.cfg r g b))
        (record (.fbRead (idx / 2) (s.fbByte (idx / 2))) s) := by
  simp [producerWrite, hport, writePixel, h]

/-- What a pixel write in bounds leaves: the one byte with its nibble replaced, and the read and the write of it in the
trace (R250, log 17). -/
theorem producerWrite_pixel_spec {idx : Nat} (hc : configProblem s.cfg = none) (hwf : s.fbWf = true)
    (hidx : pixelIndex s.cfg x y = some idx) {old new : Byte} (hold : s.fbByte (idx / 2) = old)
    (hnew : packNibble idx old (quantize s.cfg r g b) = new) :
    ∃ t, producerWrite (.pixel x y r g b) s = .next t ∧ idx / 2 < s.bufferLen ∧
      t = { s with fb := t.fb, trace := s.trace ++ [.fbRead (idx / 2) old, .fbWrite (idx / 2) new] } ∧
      ∀ k, t.fbByte k = if k = idx / 2 then new else s.fbByte k := by
  subst hold hnew
  obtain ⟨t, ht⟩ := producerWrite_next (w := .pixel x y r g b) hc hport
  have hstore := producerWrite_pixel_of_in r g b hport hidx
  obtain ⟨hsame, hbytes⟩ := storeByte_spec (hstore.symm.trans ht)
  rw [record_trace, List.append_assoc] at hsame
  exact ⟨t, ht, lt_bufferLen_of_producerWrite ht (by simp [ProducerWrite.address, hidx]), hsame, (hbytes hwf).2⟩

end

end Sys2Proof.Machine

namespace Sys2Proof

open Machine

/-- Settles O41: white and black are grays of difference 0, yellow and red colors of difference 255. -/
theorem quantizerKeepsToThePalette : Obligations.QuantizerKeepsToThePalette := by
  unfold Obligations.QuantizerKeepsToThePalette
  intro c r g b
  have hpos : c.grayT ≠ 0 → 0 < c.grayT.toNat := fun h => Nat.pos_of_ne_zero (BitVec.toNat_ne.1 h)
  have hgrayT : c.grayT.toNat ≤ 255 := Nat.le_of_lt_succ c.grayT.isLt
  refine ⟨quantize_mem_paletteCodes c r g b, fun hgray hmid => ?white, fun hgray => ?black,
    fun hon => ⟨?yellow, ?red⟩⟩
  case white => exact (quantize_of_gray (Nat.lt_add_of_pos_right (hpos hgray))).trans (if_pos (Nat.lt_succ_of_le hmid))
  case black => exact (quantize_of_gray (Nat.lt_add_of_pos_right (hpos hgray))).trans (if_neg (Nat.not_lt_zero _))
  case yellow =>
    exact quantize_of_color (by simpa using hgrayT) (channel_max_on hon) (channel_max_on hon) (channel_zero_off _)
  case red =>
    exact quantize_of_color (by simpa using hgrayT) (channel_max_on hon) (channel_zero_off _) (channel_zero_off _)

/-- Settles O43: the write is one store of the packed byte, which packs by the parity of the index. -/
theorem pixelWriteReplacesOneNibble : Obligations.PixelWriteReplacesOneNibble := by
  unfold Obligations.PixelWriteReplacesOneNibble
  intro s x y r g b hc hwf hport
  constructor
  · intro hout
    exact producerWrite_pixel_of_out r g b hport (if_neg hout)
  · intro hx0 hxW hy0 hyH
    obtain ⟨t, ht, hlt, hsame, hbytes⟩ :=
      producerWrite_pixel_spec r g b hport hc hwf (if_pos ⟨hx0, hxW, hy0, hyH⟩) rfl rfl
    have hlen : t.bufferLen = s.bufferLen := by rw [hsame]; rfl
    refine ⟨t, ht, fun k hk => ?other, _, _, hsame, if_pos hlt, ?written, packNibble_of_even _ _, packNibble_of_odd _ _⟩
    case other => rw [fbRead, fbRead, hlen, hbytes, if_neg hk]
    case written => rw [fbRead, hlen, if_pos hlt, hbytes, if_pos rfl]

/-- Settles O42: each branch by its condition, each channel by which side of ON_T it lies on. -/
theorem quantizerBranchesAndCorners : Obligations.QuantizerBranchesAndCorners := by
  unfold Obligations.QuantizerBranchesAndCorners
  intro c r g b
  constructor
  · intro hgray
    rw [quantize_of_gray hgray]
    exact ⟨fun habove => if_pos habove, fun hbelow => if_neg (Nat.not_lt.2 hbelow)⟩
  · intro hcolor
    refine ⟨fun hr hg hb => ?black, fun hr hg hb => ?blue, fun hr hg hb => ?green, fun hr hg hb => ?cyan,
      fun hr hg hb => ?red, fun hr hg hb => ?magenta, fun hr hg hb => ?yellow, fun hr hg hb => ?white⟩
    case black => exact quantize_of_color hcolor (channel_off hr) (channel_off hg) (channel_off hb)
    case blue => exact quantize_of_color hcolor (channel_off hr) (channel_off hg) (decide_eq_true hb)
    case green => exact quantize_of_color hcolor (channel_off hr) (decide_eq_true hg) (channel_off hb)
    case cyan => exact quantize_of_color hcolor (channel_off hr) (decide_eq_true hg) (decide_eq_true hb)
    case red => exact quantize_of_color hcolor (decide_eq_true hr) (channel_off hg) (channel_off hb)
    case magenta => exact quantize_of_color hcolor (decide_eq_true hr) (channel_off hg) (decide_eq_true hb)
    case yellow => exact quantize_of_color hcolor (decide_eq_true hr) (decide_eq_true hg) (channel_off hb)
    case white => exact quantize_of_color hcolor (decide_eq_true hr) (decide_eq_true hg) (decide_eq_true hb)

end Sys2Proof
end

