-- ==== Sys2Proof/Proofs/StoppedPhase.lean ====
section
/-! PROOF. What holds a step open, and what a held step leaves alone (O13, O30): EmitAll under a transport that completes
only so many operations more, and the parameterised phases that it ends. -/

namespace Sys2Proof.Machine

/-! ### Emitting a list under a transport that stops -/

/-- EmitAll with at most as many operations as the transport still completes (R45, R142). -/
theorem emitAll_of_enough (ops : List TransportOp) {s : State} {n : Nat} (hrun : s.hang = none)
    (hleft : s.transportLeft = some n) (henough : ops.length ≤ n) :
    emitAll ops s = { s with transportLeft := some (n - ops.length), trace := s.trace ++ ops.map .emit } := by
  induction ops generalizing s n with
  | nil => simp [← hleft]
  | cons op ops ih =>
    obtain _ | n := n
    · exact absurd henough (by simp)
    · rw [emitAll_cons, emit_of_left op hrun hleft,
        ih (n := n) (by exact hrun) rfl (Nat.le_of_succ_le_succ henough)]
      simp

/-- EmitAll with more operations than the transport still completes: the first not completed is issued and holds the step
open, and none after it is issued (R287, R289). -/
theorem emitAll_of_stopped (ops : List TransportOp) {s : State} {n : Nat} (hrun : s.hang = none)
    (hleft : s.transportLeft = some n) (hstops : n < ops.length) :
    emitAll ops s = { s with
      transportLeft := some 0, hang := some .transport, trace := s.trace ++ (ops.take (n + 1)).map .emit } := by
  induction ops generalizing s n with
  | nil => exact absurd hstops (Nat.not_lt_zero n)
  | cons op ops ih =>
    obtain _ | n := n
    · rw [emitAll_cons, emit_of_stopped op hrun hleft, emitAll_of_held ops (by simp)]
      simp [← hleft]
    · rw [emitAll_cons, emit_of_left op hrun hleft, ih (n := n) (by exact hrun) rfl (Nat.lt_of_succ_lt_succ hstops)]
      simp

/-! ### The parameterised phases -/

/-- Each of the five parameterised dispatches is its phase's step (R134 to R138). -/
theorem exec_phase {i : Instr} {p : Phase} {there : StateCode}
    (hrow : (i, p, there) ∈ [(Instr.statePowerOn, Phase.powerOn, StateCode.postPowerOn),
      (.statePostPowerOn, .postPowerOn, .refreshScreen), (.stateRefreshScreen, .refreshScreen, .powerOff),
      (.statePowerOff, .powerOff, .deepSleep), (.stateDeepSleep, .deepSleep, .idle)]) (s : State) :
    exec i s = .next (phaseStep p there s) := by
  simp only [List.mem_cons, Prod.mk.injEq, List.not_mem_nil, or_false] at hrow
  rcases hrow with ⟨rfl, rfl, rfl⟩ | ⟨rfl, rfl, rfl⟩ | ⟨rfl, rfl, rfl⟩ | ⟨rfl, rfl, rfl⟩ | ⟨rfl, rfl, rfl⟩ <;> rfl

/-- A phase whose operations the transport still completes goes on to its transition. -/
theorem phaseStep_of_enough (p : Phase) (next : StateCode) {s : State} {n : Nat} (hrun : s.hang = none)
    (hleft : s.transportLeft = some n) (henough : (s.cfg.phaseOps.get p).length ≤ n) :
    phaseStep p next s = transition next (s.cfg.phaseDelayMs.get p) { s with
      transportLeft := some (n - (s.cfg.phaseOps.get p).length),
      trace := s.trace ++ (s.cfg.phaseOps.get p).map .emit } := by
  rw [phaseStep, emitAll_of_enough _ hrun hleft henough]
  exact andThen_of_running _ hrun

/-- A phase with more operations than that ends at the first not completed, with no transition (R289). -/
theorem phaseStep_of_stopped (p : Phase) (next : StateCode) {s : State} {n : Nat} (hrun : s.hang = none)
    (hleft : s.transportLeft = some n) (hstops : n < (s.cfg.phaseOps.get p).length) :
    phaseStep p next s = { s with
      transportLeft := some 0, hang := some .transport,
      trace := s.trace ++ ((s.cfg.phaseOps.get p).take (n + 1)).map .emit } := by
  rw [phaseStep, emitAll_of_stopped _ hrun hleft hstops]
  exact andThen_of_held _ (by simp)

end Sys2Proof.Machine

namespace Sys2Proof

open Machine

/-- Settles O30: the dispatch is its phase's step, which goes on or is held open by the operations left to complete. -/
theorem phaseHeldOpenByTheTransport : Obligations.PhaseHeldOpenByTheTransport := by
  unfold Obligations.PhaseHeldOpenByTheTransport
  intro s i p there hrow hrun n hleft
  rw [exec_phase hrow]
  constructor
  · intro henough
    rw [phaseStep_of_enough p there hrun hleft henough]
  · intro hstops
    rw [phaseStep_of_stopped p there hrun hleft hstops]

/-- Settles O13: of the ways a step without a hardware reset can go, only the first is open to a held one. -/
theorem heldStepTakesNoRequest : Obligations.HeldStepTakesNoRequest := by
  unfold Obligations.HeldStepTakesNoRequest
  intro s hreset hheld
  rcases step_of_noReset hreset with ⟨-, e⟩ | ⟨hrun, -⟩ | ⟨_, hrun, -⟩
  · exact e
  · exact absurd hrun hheld
  · exact absurd hrun hheld

end Sys2Proof
end

