-- ==== Sys2Proof/Proofs/HardwareReset.lean ====
section
/-! PROOF. What a legal hardware reset leaves, and the three places in a step where it can come: before the request, in
place of a request that is not presented, and inside the request's handling (O45, O48, O49, O50). -/

namespace Sys2Proof.Machine

/-! ### What hardware reset leaves -/

/-- The part of the state after a hardware reset that the reset input alone decides: the registers of `State.reset` with
the allocation's outcome, the stored record and the agents that the input brings. -/
def blockAfterReset (r : ResetInput) : State :=
  { State.reset with
    failed := !r.allocOk
    faultCode := (if r.allocOk then FaultCause.none else FaultCause.bufferAlloc).code
    cfg := storedConfig r.config
    fbAllocated := r.allocOk
    nowMs := r.agents.nowMs
    nowScript := r.agents.nowScript
    busyIn := r.agents.busyIn
    busyScript := r.agents.busyScript
    producer := r.agents.producer
    transportLeft := r.agents.transportLeft }

/-- A legal hardware reset keeps the host's inputs and the record of actions, and nothing else (R300, R305). -/
theorem hardwareReset_of_legal {r : ResetInput} (hlegal : configProblem r.config = none) (s : State) :
    hardwareReset r s = .next { blockAfterReset r with
      requests := s.requests, resetIn := s.resetIn, trace := s.trace ++ .hardwareReset :: fillEvents r } := by
  rw [hardwareReset, hlegal]
  rfl

/-- A failed allocation is fault cause 3, a successful one none (R302, R271). -/
theorem allocationOutcome_code (ok : Bool) :
    (if ok then FaultCause.none else FaultCause.bufferAlloc).code = if ok then 0 else 3 := by
  cases ok <;> rfl

/-- The fill value with the quantizer has the white code in both nibbles, which is 17 times the code (R251). -/
theorem fillValue_eq (c : PanelConfig) :
    fillValue c = if c.quantPresent then c.codeWhite.setWidth 8 * 17 else c.fillByte := by
  rw [fillValue, (by decide : ∀ x : BitVec 3, x.setWidth 8 <<< 4 ||| x.setWidth 8 = x.setWidth 8 * 17) c.codeWhite]

/-- An allocated buffer in which nothing is listed reads as the fill value at each of its addresses (R303). -/
theorem fbRead_of_filled {s : State} (hempty : s.fb = []) (halloc : s.fbAllocated = true) {k : Nat}
    (hk : k < s.bufferLen) : fbRead s k = some (fillValue s.cfg) := by
  rw [fbRead, if_pos hk, State.fbByte, hempty, Memory.read, State.fbDefault, if_pos halloc]

theorem filterMap_op_fillEvents (r : ResetInput) : (fillEvents r).filterMap Event.op? = [] := by
  unfold fillEvents
  split <;> rfl

/-- Neither the reset nor its fill issues an operation: those issued before it stay the only ones (R305). -/
theorem ops_of_trace_reset {s t : State} {r : ResetInput}
    (h : t.trace = s.trace ++ .hardwareReset :: fillEvents r) : t.ops = s.ops := by
  rw [ops_of_trace h, List.filterMap_cons_none rfl, filterMap_op_fillEvents, List.append_nil]

/-! ### Where a hardware reset comes in a step -/

section
variable {s : State} {r : ResetInput} {rest : List (Option ResetInput)}

/-- A hardware reset that comes before the request, or at a step held open, is the whole step (R305). -/
theorem step_of_resetFirst (hreset : s.resetIn = some r :: rest) (hfirst : r.cut = none ∨ s.hang ≠ none) :
    step s = hardwareReset r { s with resetIn := rest } := by
  rw [step, takeReset_eq, hreset]
  cases hcut : r.cut with
  | none => simp [hcut]
  | some n =>
    have hheld : s.hang ≠ none := hfirst.resolve_left (by simp [hcut])
    simp [hcut, Option.isSome_iff_ne_none, hheld]

/-- One meant for the inside of a step is the whole step where the host presents no request (R90, R305). -/
theorem step_of_resetWithoutRequest (hreset : s.resetIn = some r :: rest) (hcut : r.cut ≠ none) (hrun : s.hang = none)
    (hnone : s.requests = [] ∨ ∃ later, s.requests = 0 :: later) :
    step s = hardwareReset r { s with resetIn := rest, requests := s.requests.tail } := by
  obtain ⟨n, hn⟩ := Option.ne_none_iff_exists'.1 hcut
  rw [step, takeReset_eq, hreset]
  rcases hnone with hempty | ⟨later, hzero⟩
  · simp [hn, hrun, takeRequest_eq, hempty]
  · simp [hn, hrun, takeRequest_eq, hzero, decodeRequest]

/-- One inside a step to which a request is presented cuts the request's handling (R305). -/
theorem step_of_resetInsideRequest {n : Nat} {code : BitVec 2} {later : List (BitVec 2)} {i : Instr}
    (hreset : s.resetIn = some r :: rest) (hcut : r.cut = some n) (hrun : s.hang = none)
    (hrequests : s.requests = code :: later) (hdecode : decode (.request code) = .ok i) :
    step s = resetInside n r (exec i) { s with resetIn := rest, requests := later } := by
  rw [step, takeReset_eq, hreset]
  simp [hcut, hrun, takeRequest_eq, hrequests, decodeRequest_of_decode hdecode]

end

/-! ### A handling that is cut -/

/-- A handling that answers is cut after its first `n` actions, and the reset follows (R305). -/
theorem resetInside_of_next {n : Nat} {r : ResetInput} {run : State → Host.Outcome State Fault Refusal} {s t : State}
    (h : run s = .next t) : resetInside n r run s = hardwareReset r (cutAt n s t) := by
  rw [resetInside, h]

/-- Cut after `n` actions, the record holds the first `n` of those the handling adds. -/
theorem cutAt_trace {n : Nat} {s t : State} {es : List Event} (h : t.trace = s.trace ++ es) :
    (cutAt n s t).trace = s.trace ++ es.take n := by
  simp [cutAt, h]

/-- What a request code decodes to is the instruction of a request (R90). -/
theorem ofRequest_of_decode {code : BitVec 2} {i : Instr} (h : decode (.request code) = .ok i) :
    ∃ q : Request, i = .ofRequest q := by
  obtain ⟨q, -, hq⟩ := Option.map_eq_some_iff.1 (decodeRequest_of_decode h)
  exact ⟨q, hq.symm⟩

end Sys2Proof.Machine

namespace Sys2Proof

open Machine

/-- Settles O50: the handling extends the record, the cut keeps the first actions of the extension, and the reset runs
on what the cut leaves. -/
theorem hardwareResetInsideAStepCutsIt : Obligations.HardwareResetInsideAStepCutsIt := by
  unfold Obligations.HardwareResetInsideAStepCutsIt
  intro s t r rest n code later i hreset hcut hrun hrequests hdecode hexec hlegal
  obtain ⟨q, rfl⟩ := ofRequest_of_decode hdecode
  obtain ⟨events, hevents⟩ := trace_prefix_execRequest hexec
  have hrecorded := cutAt_trace (n := n) hevents.symm
  have hstep := (step_of_resetInsideRequest hreset hcut hrun hrequests hdecode).trans (resetInside_of_next hexec)
  rw [hardwareReset_of_legal hlegal] at hstep
  refine ⟨events, _, hevents.symm, hstep, ?trace, ?ops, rfl, rfl, _, hardwareReset_of_legal hlegal s, rfl⟩
  case trace => exact congrArg (· ++ _) hrecorded
  case ops => exact (ops_of_trace_reset rfl).trans (ops_of_trace hrecorded)

/-- Settles O45: the registers are those of `blockAfterReset`, and an emptied list reads as the fill value. -/
theorem hardwareResetLeavesTheResetState : Obligations.HardwareResetLeavesTheResetState := by
  unfold Obligations.HardwareResetLeavesTheResetState
  intro r s hlegal
  refine ⟨_, hardwareReset_of_legal hlegal s, rfl, rfl, rfl, rfl, rfl, ?faultCode, rfl, rfl, rfl, rfl, rfl, rfl, rfl,
    ?filled, ?ops, ?trace, rfl, rfl, rfl⟩
  case faultCode => exact allocationOutcome_code r.allocOk
  case filled =>
    intro halloc k hk
    rw [← fillValue_eq]
    exact fbRead_of_filled rfl halloc hk
  case ops => exact ops_of_trace_reset (r := r) rfl
  case trace =>
    rw [← fillValue_eq]
    rfl

/-- Settles O48: at a held step the reset is the whole step, and its own record adds no operation. -/
theorem hardwareResetEndsAHeldStep : Obligations.HardwareResetEndsAHeldStep := by
  unfold Obligations.HardwareResetEndsAHeldStep
  intro s r rest hheld hreset hlegal
  rw [step_of_resetFirst hreset (.inr hheld)]
  exact ⟨_, hardwareReset_of_legal hlegal _, rfl, rfl, ops_of_trace_reset (r := r) rfl, rfl, rfl, rfl⟩

/-- Settles O49: the reset runs first, or finds no request on the port. -/
theorem hardwareResetComesBeforeTheRequest : Obligations.HardwareResetComesBeforeTheRequest := by
  unfold Obligations.HardwareResetComesBeforeTheRequest
  intro s r rest hreset
  exact ⟨step_of_resetFirst hreset, fun hrun hcut hnone => step_of_resetWithoutRequest hreset hcut hrun hnone⟩

end Sys2Proof
end
